-- ==== Sys2Proof/Word.lean ====
section
/-! DEFINITION. The word and byte types of the hardware (00_scope.md R7: `W = 64`; 20_memory.md R55: bytes of a word). -/

namespace Sys2Proof

/-- A stream word, a register-file cell, a descriptor: 64 bits (R7, R24, R36, R81). -/
abbrev Word := BitVec 64

/-- One byte of the byte view of the stream (R55). -/
abbrev Byte := BitVec 8

end Sys2Proof
end

