-- ==== Sys2Proof/Config.lean ====
section
/-! DEFINITION. What an implementation fixes: the named constants of 00_scope.md R7 and the parameters it leaves OPEN.
There is no free value: no rule gives an instruction an undefined result after which the machine goes on. -/

namespace Sys2Proof.Config

/-- `W`, the width in bits of a stream word (R7, R59, D2). -/
def wordBits : Nat := 64

/-- `EOFF`, the offset added to `floor(log2 x)` by `exponent` (R7, R121, D4). -/
def eoff : Int := 1

/-- `PREC_BIAS`, the constant of the `maxprec` formula, the same for every dimension (R7, R209, D5). -/
def precBias : Int := 8

/-- Cells of each block register file: sized for the largest block (R26). -/
def fileCells : Nat := 64

/-- The parameters R7 leaves OPEN, as wired values a machine carries unchanged (log 1).
`NW` is not among them: it is the number of workers a state holds. -/
structure Params where
  /-- `STREAM_WORDS`, the number of words of the stream memory (R7, R54, D19). -/
  streamWords : Nat
  /-- `MIN_EXP[F32]` (R7, D6). -/
  minExpF32 : Int
  /-- `MIN_EXP[F64]` (R7, D6). -/
  minExpF64 : Int
deriving DecidableEq, Repr

/-- The parameters of `State.reset`. `MIN_EXP` is the spec's default (R7, D6).
DESIGN CHOICE (log 1, unsafe for a claim about runs from reset alone): `STREAM_WORDS = 2^42`, every word a descriptor can reach,
since `(block_idx + 1) × maxbits ≤ 2^48` (R83). -/
def Params.atReset : Params := { streamWords := 2 ^ 42, minExpF32 := -1074, minExpF64 := -1074 }

/-- DESIGN CHOICE (log 1): the number of workers of `State.reset`; R7 leaves `NW ≥ 1` open and no result depends on it (R254). -/
def workersAtReset : Nat := 2

end Sys2Proof.Config
end

