-- ==== Sys2Proof/Syntax.lean ====
section
/-! DEFINITION. The command set: scalar kinds, the descriptor's fields, and one constructor per row of spec/opcode_table.json
(30_encoding.md R81, R88). -/

namespace Sys2Proof

/-- The scalar kinds and their codes (R8, R81). -/
inductive Kind where
  | f32
  | f64
  | i32
  | i64
deriving DecidableEq, Repr

/-- The six fields of format `CMD64`, before any check (R81). -/
structure Descriptor where
  /-- bits 1:0 -/
  kind : Kind
  /-- bits 3:2 -/
  dims : BitVec 2
  /-- bits 7:4, reserved -/
  rsv0 : BitVec 4
  /-- bits 23:8 -/
  maxbits : BitVec 16
  /-- bits 31:24, reserved -/
  rsv1 : BitVec 8
  /-- bits 63:32 -/
  blockIdx : BitVec 32
deriving DecidableEq, Repr

/-- The twelve commands `ENC.<kind>.<d>D` (R88, R90). The constructor fixes `kind` and `dims`; `maxbits` and `blockIdx` are the
descriptor's two variable fields, every value of which is legal (R83). The operand block is not part of the descriptor (R80). -/
inductive Instr where
  | encF32D1 (maxbits : BitVec 16) (blockIdx : BitVec 32)
  | encF32D2 (maxbits : BitVec 16) (blockIdx : BitVec 32)
  | encF32D3 (maxbits : BitVec 16) (blockIdx : BitVec 32)
  | encF64D1 (maxbits : BitVec 16) (blockIdx : BitVec 32)
  | encF64D2 (maxbits : BitVec 16) (blockIdx : BitVec 32)
  | encF64D3 (maxbits : BitVec 16) (blockIdx : BitVec 32)
  | encI32D1 (maxbits : BitVec 16) (blockIdx : BitVec 32)
  | encI32D2 (maxbits : BitVec 16) (blockIdx : BitVec 32)
  | encI32D3 (maxbits : BitVec 16) (blockIdx : BitVec 32)
  | encI64D1 (maxbits : BitVec 16) (blockIdx : BitVec 32)
  | encI64D2 (maxbits : BitVec 16) (blockIdx : BitVec 32)
  | encI64D3 (maxbits : BitVec 16) (blockIdx : BitVec 32)
deriving DecidableEq, Repr

/-- The scalar kind a command binds (R88). -/
def Instr.kind : Instr → Kind
  | .encF32D1 _ _ => .f32
  | .encF32D2 _ _ => .f32
  | .encF32D3 _ _ => .f32
  | .encF64D1 _ _ => .f64
  | .encF64D2 _ _ => .f64
  | .encF64D3 _ _ => .f64
  | .encI32D1 _ _ => .i32
  | .encI32D2 _ _ => .i32
  | .encI32D3 _ _ => .i32
  | .encI64D1 _ _ => .i64
  | .encI64D2 _ _ => .i64
  | .encI64D3 _ _ => .i64

/-- The dimension a command binds (R88). -/
def Instr.dims : Instr → BitVec 2
  | .encF32D1 _ _ => 1
  | .encF32D2 _ _ => 2
  | .encF32D3 _ _ => 3
  | .encF64D1 _ _ => 1
  | .encF64D2 _ _ => 2
  | .encF64D3 _ _ => 3
  | .encI32D1 _ _ => 1
  | .encI32D2 _ _ => 2
  | .encI32D3 _ _ => 3
  | .encI64D1 _ _ => 1
  | .encI64D2 _ _ => 2
  | .encI64D3 _ _ => 3

/-- The command's `maxbits` field (R81). -/
def Instr.maxbits : Instr → BitVec 16
  | .encF32D1 m _ => m
  | .encF32D2 m _ => m
  | .encF32D3 m _ => m
  | .encF64D1 m _ => m
  | .encF64D2 m _ => m
  | .encF64D3 m _ => m
  | .encI32D1 m _ => m
  | .encI32D2 m _ => m
  | .encI32D3 m _ => m
  | .encI64D1 m _ => m
  | .encI64D2 m _ => m
  | .encI64D3 m _ => m

/-- The command's `block_idx` field (R81). -/
def Instr.blockIdx : Instr → BitVec 32
  | .encF32D1 _ b => b
  | .encF32D2 _ b => b
  | .encF32D3 _ b => b
  | .encF64D1 _ b => b
  | .encF64D2 _ b => b
  | .encF64D3 _ b => b
  | .encI32D1 _ b => b
  | .encI32D2 _ b => b
  | .encI32D3 _ b => b
  | .encI64D1 _ b => b
  | .encI64D2 _ b => b
  | .encI64D3 _ b => b

end Sys2Proof
end

