-- ==== Sys2Proof/WellFormed.lean ====
section
/-! DEFINITION. Which descriptors are commands (30_encoding.md R89, 70_reset_and_hazards.md R279). -/

namespace Sys2Proof

/-- Why a descriptor is not a command (R89). -/
inductive Reject where
  /-- `dims = 0`, the encoding kept free for d = 4 (R89, D25). -/
  | dimsZero
  /-- a bit of `rsv0`, bits 7:4, is set (R89). -/
  | rsv0NotZero
  /-- a bit of `rsv1`, bits 31:24, is set (R89). -/
  | rsv1NotZero
deriving DecidableEq, Repr

/-- The first check of R89 that a descriptor fails. Which of several is named first is not observable (R242). -/
def Descriptor.reject (d : Descriptor) : Option Reject :=
  if d.dims = 0 then some .dimsZero
  else if d.rsv0 ≠ 0 then some .rsv0NotZero
  else if d.rsv1 ≠ 0 then some .rsv1NotZero
  else none

/-- A descriptor is one of the twelve valid forms (R279). -/
def Descriptor.wellFormed (d : Descriptor) : Bool := d.reject.isNone

/-- The descriptor a command stands for (R81, R88). -/
def Instr.descriptor (i : Instr) : Descriptor :=
  { kind := i.kind, dims := i.dims, rsv0 := 0, maxbits := i.maxbits, rsv1 := 0, blockIdx := i.blockIdx }

/-- A command is well formed when its descriptor is. Every term of `Instr` is: its constructor fixes `dims` and the reserved
fields, and every value of `maxbits` and `block_idx` is legal (R83). -/
def Instr.wellFormed (i : Instr) : Bool := i.descriptor.wellFormed

end Sys2Proof
end

