-- ==== Sys2Proof/Machine/State.lean ====
section
/-! DEFINITION. The state of the machine (10_state.md R21 to R37), its stops, and the state after reset. -/

namespace Sys2Proof.Machine

/-- One event: an `AtomicOr` of `value` into stream word `addr` (00_scope.md R18, R56). -/
structure Event where
  addr : Nat
  value : Word
deriving DecidableEq, Repr

/-- The sequencer phase of a worker (R33). -/
inductive Phase where
  | idle
  | setup
  | exponent
  | header
  | cast
  | xform
  | order
  | planes
  | done
deriving DecidableEq, Repr

/-- The block cursor (R28). The fields are counts; their widths are kept by `Worker.Fits` (log 19). -/
structure Cursor where
  /-- `word_index`, 42 bits. -/
  wordIndex : Nat
  /-- `start_bit`, 6 bits, 0..63. -/
  startBit : Nat
  /-- `current_bit`, 17 bits. -/
  currentBit : Nat
deriving DecidableEq, Repr

/-- The registers of the bit-plane encoder (R29). -/
structure PlaneRegs where
  /-- `k`, 7 bits, 0..64: the current plane, counting down. -/
  k : Nat
  /-- `kmin`, 7 bits, 0..64: the plane at which coding stops. -/
  kmin : Nat
  /-- `n`, 7 bits, 0..64: the length of the significant prefix. -/
  n : Nat
  /-- `bits`, 16 bits: the remaining budget. -/
  bits : Nat
  /-- `x`, 64 bits: the unemitted tail of the plane. -/
  x : Word
deriving DecidableEq, Repr

/-- The registers of one worker (R23 to R29, R33, R35). -/
structure Worker where
  /-- `phase` (R33). -/
  phase : Phase
  /-- The completion signal (R35): the worker has completed the command last issued to it (log 18). -/
  done : Bool
  /-- `kind`, 2 bits (R23). -/
  kind : Kind
  /-- `dims`, 2 bits (R23). -/
  dims : BitVec 2
  /-- `maxbits`, 16 bits (R23). -/
  maxbits : BitVec 16
  /-- `block_idx`, 32 bits (R23). -/
  blockIdx : BitVec 32
  /-- `fblk[0..63]`, the scalar block, 64-bit cells (R24). -/
  fblk : List Word
  /-- `iblk[0..63]`, the integer block, 64-bit cells (R25, log 13). -/
  iblk : List Word
  /-- `ublk[0..63]`, the reordered unsigned block, 64-bit cells (R26). -/
  ublk : List Word
  /-- `emax`, signed, 12 bits, -1023..1024 (R27). -/
  emax : Int
  /-- `maxprec`, 7 bits, 0..64 (R27). -/
  maxprec : Nat
  /-- `e`, 12 bits, 0..2047 (R27). -/
  e : Nat
  /-- The writer's cursor (R28). -/
  cursor : Cursor
  /-- The bit-plane registers (R29). -/
  planes : PlaneRegs
  /-- The model's own: events the writer has been called for and the stream memory has not yet performed, oldest first
  (R58, R60, R169, log 6). -/
  pending : List Event
deriving DecidableEq, Repr

/-- The stream memory as bytes, in the canonical form of `Memory.wf`: addresses strictly rising, no byte listed that equals what an
unlisted one reads as. Byte `j` of stream word `a` has address `8a + j` (R36, R55). -/
abbrev Memory := List Host.Cell

/-- What the host holds at the command port: the worker it addresses (R82) and the operand space (R50 a, R85). -/
structure Port where
  worker : Nat
  block : List Word
deriving DecidableEq, Repr

/-- One move of an agent (R20), a line of a program or a choice of the scheduler (log 4). -/
inductive Move where
  /-- The host issues a descriptor to the port's worker, which then takes all its steps before any other agent moves: one of the
  legal interleavings (R61, log 5). -/
  | encode (descriptor : Word)
  /-- The host issues a descriptor to the port's worker (R82). -/
  | issue (descriptor : Word)
  /-- The host presents a worker number and an operand block at the port (R82, R85). -/
  | present (worker : Nat) (block : List Word)
  /-- A worker takes one small step (R20). -/
  | worker (index : Nat)
  /-- `HOST.ZERO words=n` (R90). -/
  | zero (words : Nat)
  /-- `HOST.WAIT` (R90). -/
  | wait
  /-- `HOST.READ a` (R90). -/
  | read (addr : Nat)
  /-- A reset of the core (R38, R266). -/
  | reset
deriving DecidableEq, Repr

/-- The state of the machine (R21), with what stands at its outside (the port, the reads, the moves to come). -/
structure State where
  /-- Wired parameters; no move changes them (R7, R21, log 1). -/
  params : Config.Params
  /-- `stream[0..STREAM_WORDS)` (R36). -/
  stream : Memory
  /-- The `NW` workers (R20). -/
  workers : List Worker
  /-- The command port and the operand space (R50, R80, R82). -/
  port : Port
  /-- The moves to come (log 4). -/
  agenda : List Move
  /-- What `HOST.READ` has answered so far, oldest first: word index and word (R90, log 20). -/
  reads : List (Nat × Word)
deriving DecidableEq, Repr

/-- Reasons the machine stops with a fault. No command raises one (60_exceptions.md R240): both are about an access of the host to
stream words that do not exist. -/
inductive Fault where
  /-- Raised by the move `read`: `HOST.READ a` with `a` at or above `STREAM_WORDS` (R36, R90). Safe: the model stops (log 9). -/
  | readOutsideStream (addr : Nat)
  /-- Raised by the move `zero`: `HOST.ZERO words=n` with `n` above `STREAM_WORDS` (R36, R90). Safe: the model stops (log 9). -/
  | zeroOutsideStream (words : Nat)
deriving DecidableEq, Repr

/-- Reasons the model gives a move no meaning. -/
inductive Refusal where
  /-- Raised by an arm of `exec` that has no meaning yet. Safe. No arm of this model raises it. -/
  | notModelled (mnemonic : String)
  /-- Raised by `encode` and `issue`: a reserved descriptor (R89, R242). Safe. -/
  | reservedDescriptor (why : Reject)
  /-- Raised by a command issued to a worker that is not `IDLE` (R242, R278). Safe. -/
  | workerBusy (index : Nat)
  /-- Raised by a float command whose operand block holds a NaN or an infinity (R135, R242). Safe. -/
  | notFinite
  /-- Raised by a command, or a `worker` move, that names a worker number at or above `NW` (R20, log 8). Safe. -/
  | noSuchWorker (index : Nat)
  /-- Raised by the move `zero` while a command is in flight: the spec gives the host no such move (R66, R276, log 9). Safe. -/
  | hostWriteInFlight
deriving DecidableEq, Repr

/-- A cleared register file. -/
def clearedFile : List Word := List.replicate Config.fileCells 0

/-- A worker after reset: `IDLE`, no command (R37, R265).
DESIGN CHOICE (log 2, unsafe): every other register, unspecified by R37 and never observed, holds zero. -/
def Worker.reset : Worker :=
  { phase := .idle, done := false, kind := .f32, dims := 0, maxbits := 0, blockIdx := 0
    fblk := clearedFile, iblk := clearedFile, ublk := clearedFile
    emax := 0, maxprec := 0, e := 0
    cursor := { wordIndex := 0, startBit := 0, currentBit := 0 }
    planes := { k := 0, kmin := 0, n := 0, bits := 0, x := 0 }
    pending := [] }

/-- The machine right after reset: every worker `IDLE` (R37), no move to come (R267).
DESIGN CHOICE (log 1, 3, 12): the parameters, the number of workers, the stream's bytes and the port's contents. -/
def State.reset : State :=
  { params := Config.Params.atReset
    stream := []
    workers := List.replicate Config.workersAtReset Worker.reset
    port := { worker := 0, block := clearedFile }
    agenda := []
    reads := [] }

/-- Replace the registers of worker `i`. -/
def State.setWorker (s : State) (i : Nat) (w : Worker) : State := { s with workers := s.workers.set i w }

/-- Replace all workers. -/
def State.setWorkers (s : State) (ws : List Worker) : State := { s with workers := ws }

/-- Replace the stream memory. -/
def State.setStream (s : State) (m : Memory) : State := { s with stream := m }

/-- Replace the port. -/
def State.setPort (s : State) (p : Port) : State := { s with port := p }

/-- Replace the moves to come. -/
def State.setAgenda (s : State) (a : List Move) : State := { s with agenda := a }

/-- Record what a host read answered. -/
def State.addRead (s : State) (addr : Nat) (w : Word) : State := { s with reads := s.reads ++ [(addr, w)] }

end Sys2Proof.Machine
end

