-- ==== Sys2Proof/Machine/Flags.lean ====
section
/-! DEFINITION. Status. The hardware has no flags, condition codes or predicates (10_state.md R31): the one piece of status is a
worker's completion (R35) and, with it, whether a worker is busy. -/

namespace Sys2Proof.Machine

/-- A worker holds a command: its phase is not `IDLE` (R33). -/
def Worker.busy (w : Worker) : Bool := w.phase != .idle

/-- The completion signal: the command is over and the worker is back in `IDLE` (R35, log 18). -/
def Worker.signalDone (w : Worker) : Worker := { w with phase := .idle, done := true }

/-- No command is in flight: what `HOST.WAIT` waits for (R90, log 10). -/
def allIdle (ws : List Worker) : Bool := ws.all (fun w => !w.busy)

end Sys2Proof.Machine
end

