-- ==== Sys2Proof/Machine/Operands.lean ====
section
/-! DEFINITION. Operand formats: the per-kind and per-dimension constants (00_scope.md R8, R9), the integer primitives (R11 to R14),
the scalar formats (30_encoding.md R86, R87) and how an operand block is read (R85). The float formats are the spec's, which marks them
as from general knowledge (PRESUMED by the spec, log 14). -/

namespace Sys2Proof.Machine

/-- `N`, the width of `Int` and `UInt`; the document's `precision` and `intprec` (R8). -/
def width : Kind → Nat
  | .f32 => 32
  | .f64 => 64
  | .i32 => 32
  | .i64 => 64

/-- Bit 1 of the kind code is 0 for the float kinds (R81). -/
def isFloat : Kind → Bool
  | .f32 => true
  | .f64 => true
  | .i32 => false
  | .i64 => false

/-- `EBITS` (R8); the integer kinds have no exponent field. -/
def ebits : Kind → Nat
  | .f32 => 8
  | .f64 => 11
  | .i32 => 0
  | .i64 => 0

/-- `EBIAS` (R8); the integer kinds have none. -/
def ebias : Kind → Int
  | .f32 => 127
  | .f64 => 1023
  | .i32 => 0
  | .i64 => 0

/-- `FBITS` (R7); the integer kinds have no fraction field. -/
def fbits : Kind → Nat
  | .f32 => 23
  | .f64 => 52
  | .i32 => 0
  | .i64 => 0

/-- `MIN_EXP[kind]` (R7, D6); the integer kinds do not use it. -/
def minExp (p : Config.Params) : Kind → Int
  | .f32 => p.minExpF32
  | .f64 => p.minExpF64
  | .i32 => 0
  | .i64 => 0

/-- `BlockSize = 4^d` (R9). -/
def blockSize (dims : BitVec 2) : Nat := 4 ^ dims.toNat

/-- `wrap_N(z)`: the `Int_N` congruent to `z` modulo `2^N` (R12). -/
def wrap (n : Nat) (z : Int) : Int := z.bmod (2 ^ n)

/-- `bits_N(v)`, as a number below `2^N` (R11). -/
def bitsN (n : Nat) (v : Int) : Nat := (v % 2 ^ n).toNat

/-- `signed_N(u)`: `u` below `2^(N-1)`, and `u - 2^N` from there on (R11). -/
def signedN (n : Nat) (u : Nat) : Int := if u < 2 ^ (n - 1) then u else u - 2 ^ n

/-- `asr(v, s) = floor(v / 2^s)` (R13). -/
def asr (v : Int) (s : Nat) : Int := v / 2 ^ s

/-- The low `n` bits of a word, zero-extended. -/
def lowBits (n : Nat) (v : Word) : Word := BitVec.ofNat 64 (v.toNat % 2 ^ n)

/-- Cell `i` of a register file or of the operand space. -/
def cell (l : List Word) (i : Nat) : Word := l.getD i 0

/-- A register file whose leading cells are rewritten, the others keeping what they held (log 23). -/
def rewriteFile (new old : List Word) : List Word := new ++ old.drop new.length

/-- The cells `0 .. BlockSize-1` of a register file. -/
def blockCells (size : Nat) (l : List Word) : List Word := (List.range size).map (cell l)

/-- The sign bit `s = p[N-1]` (R86). -/
def signField (kind : Kind) (p : Word) : Bool := p.toNat.testBit (width kind - 1)

/-- The exponent field `E = p[N-2 : FBITS]` (R86). -/
def exponentField (kind : Kind) (p : Word) : Nat := p.toNat / 2 ^ fbits kind % 2 ^ ebits kind

/-- The fraction field `F = p[FBITS-1 : 0]` (R86). -/
def fractionField (kind : Kind) (p : Word) : Nat := p.toNat % 2 ^ fbits kind

/-- The magnitude pattern `p[N-2 : 0]` (R125). -/
def magnitudeField (kind : Kind) (p : Word) : Nat := p.toNat % 2 ^ (width kind - 1)

/-- An exponent field of all ones is an infinity or a NaN (R86). -/
def isFiniteScalar (kind : Kind) (p : Word) : Bool := exponentField kind p != 2 ^ ebits kind - 1

/-- Every scalar of a block is finite (R135, R277). -/
def isFiniteBlock (kind : Kind) (block : List Word) : Bool := block.all (isFiniteScalar kind)

/-- The scalars a command reads from the operand space: `zext_64` of the `N`-bit elements `0 .. BlockSize-1` (R85, log 12). -/
def operandBlock (kind : Kind) (size : Nat) (space : List Word) : List Word :=
  (blockCells size space).map (lowBits (width kind))

/-- The value of an integer scalar or of an `iblk` cell: `signed_N` of the low `N` bits (R87, log 13). -/
def intOfCell (kind : Kind) (c : Word) : Int := signedN (width kind) (c.toNat % 2 ^ width kind)

/-- The `iblk` cell of an `Int_N` value: two's complement, sign-extended to the cell (R25, log 13). -/
def cellOfInt (v : Int) : Word := BitVec.ofInt 64 v

end Sys2Proof.Machine
end

