-- ==== Sys2Proof/Machine/Lifting.lean ====
section
/-! DEFINITION. The 4-point lifting decorrelator, unit C4 (42_lifting.md). -/

namespace Sys2Proof.Machine

/-- The four variables of a lift (R140). -/
structure Quad where
  x : Int
  y : Int
  z : Int
  w : Int
deriving DecidableEq, Repr

/-- The steps of `fwd_lift` on its four variables, in order, additions modulo `2^N` and halvings of the wrapped sum (R140, R141). -/
def liftSteps (n : Nat) (q : Quad) : Quad :=
  let x := asr (wrap n (q.x + q.w)) 1
  let w := wrap n (q.w - x)
  let z := asr (wrap n (q.z + q.y)) 1
  let y := wrap n (q.y - z)
  let x := asr (wrap n (x + z)) 1
  let z := wrap n (z - x)
  let w := asr (wrap n (w + y)) 1
  let y := wrap n (y - w)
  let w := wrap n (w + asr y 1)
  let y := wrap n (y - asr w 1)
  { x := x, y := y, z := z, w := w }

/-- `fwd_lift(p, s)`: lift the 4-vector at base `p` and stride `s`, stored back as `(w, z, y, x)` (R140, R147). -/
def fwdLift (n : Nat) (l : List Int) (p s : Nat) : List Int :=
  let q := liftSteps n
    { x := l.getD p 0, y := l.getD (p + s) 0, z := l.getD (p + 2 * s) 0, w := l.getD (p + 3 * s) 0 }
  (((l.set p q.w).set (p + s) q.z).set (p + 2 * s) q.y).set (p + 3 * s) q.x

/-- The base indices of a pass: coordinate 0 along the axis of stride `s` (R148). -/
def passBases (size s : Nat) : List Nat := (List.range size).filter (fun p => p / s % 4 = 0)

/-- The pass along axis `a`, stride `4^a` (R148). -/
def fwdPass (n size a : Nat) (l : List Int) : List Int :=
  (passBases size (4 ^ a)).foldl (fun l p => fwdLift n l p (4 ^ a)) l

/-- `fwd_xform`: the passes along x, then y, then z (R149, R150). -/
def fwdXform (n d : Nat) (l : List Int) : List Int :=
  (List.range d).foldl (fun l a => fwdPass n (4 ^ d) a l) l

end Sys2Proof.Machine
end

