-- ==== Sys2Proof/Machine/Ops.lean ====
section
/-! DEFINITION. The stream memory's operations (20_memory.md R50 to R58). There is no exception entry or return to model: the
hardware raises no exception and takes no interrupt (60_exceptions.md R240, R245, R247). -/

namespace Sys2Proof.Machine

/-- What a byte that no entry lists reads as. DESIGN CHOICE (log 3, unsafe): the spec does not say what the stream holds before the
host's first zeroing (R37). -/
def Memory.unlisted : Byte := 0

/-- The byte at a byte address. -/
def Memory.readByte : Memory → Nat → Byte
  | [], _ => Memory.unlisted
  | (a, b) :: m, addr => if a = addr then b else Memory.readByte m addr

/-- An entry put before a memory, unless it equals what an unlisted byte reads as. -/
def Memory.putFront (m : Memory) (addr : Nat) (v : Byte) : Memory := if v = Memory.unlisted then m else (addr, v) :: m

/-- Store a byte, keeping the canonical form. -/
def Memory.writeByte : Memory → Nat → Byte → Memory
  | [], addr, v => Memory.putFront [] addr v
  | (a, b) :: m, addr, v =>
    if addr < a then Memory.putFront ((a, b) :: m) addr v
    else if addr = a then Memory.putFront m addr v
    else (a, b) :: Memory.writeByte m addr v

/-- The canonical form: addresses strictly rising, no entry equal to what an unlisted byte reads as. -/
def Memory.wf : Memory → Bool
  | [] => true
  | [(_, b)] => b != Memory.unlisted
  | (a, b) :: (a', b') :: m => b != Memory.unlisted && decide (a < a') && Memory.wf ((a', b') :: m)

/-- Byte `j` of a word: its bits `8j+7 : 8j` (R55). -/
def byteOf (v : Word) (j : Nat) : Byte := v.extractLsb' (8 * j) 8

/-- `MemRead(a, W)`: the word at word index `a`, little-endian in the byte view (R15, R55). -/
def Memory.readWord (m : Memory) (a : Nat) : Word :=
  m.readByte (8 * a + 7) ++ m.readByte (8 * a + 6) ++ m.readByte (8 * a + 5) ++ m.readByte (8 * a + 4) ++
    m.readByte (8 * a + 3) ++ m.readByte (8 * a + 2) ++ m.readByte (8 * a + 1) ++ m.readByte (8 * a)

/-- OR the low `count` bytes of a word into word `a`. -/
def Memory.orBytes (m : Memory) (a : Nat) (v : Word) : Nat → Memory
  | 0 => m
  | j + 1 =>
    let m' := Memory.orBytes m a v j
    m'.writeByte (8 * a + j) (m'.readByte (8 * a + j) ||| byteOf v j)

/-- `AtomicOr(a, v)`: replaces `stream[a]` by `stream[a] OR v` (R56). A zero-valued event is performed like any other (R173). -/
def Memory.atomicOr (m : Memory) (ev : Event) : Memory := m.orBytes ev.addr ev.value 8

/-- `stream[0..n)` set to zero (R90). -/
def Memory.zeroWords (m : Memory) (n : Nat) : Memory := m.filter (fun c => decide (8 * n ≤ c.1))

/-- Global bit `p` of the stream: bit `p mod W` of word `p div W` (R51). -/
def Memory.globalBit (m : Memory) (p : Nat) : Bool := (m.readWord (p / Config.wordBits)).getLsbD (p % Config.wordBits)

/-- Perform events in order while the stream memory admits them (R54); what is left over is the part that has no step. -/
def performEvents (streamWords : Nat) : List Event → Memory → Memory × List Event
  | [], m => (m, [])
  | ev :: evs, m => if ev.addr < streamWords then performEvents streamWords evs (m.atomicOr ev) else (m, ev :: evs)

end Sys2Proof.Machine
end

