-- ==== Sys2Proof/Machine/Writer.lean ====
section
/-! DEFINITION. The bit-packed output writer, unit C6 (44_block_writer.md). A call moves the cursor and produces events; the writer
never reads the stream (R174). -/

namespace Sys2Proof.Machine

/-- Construction of the writer from `(block_idx, maxbits)`; the product is exact (R165). -/
def Cursor.construct (blockIdx maxbits : Nat) : Cursor :=
  { wordIndex := blockIdx * maxbits / Config.wordBits
    startBit := blockIdx * maxbits % Config.wordBits
    currentBit := 0 }

/-- `pos`, the bit offset of the next bit relative to `word[word_index]` (R167). -/
def Cursor.pos (c : Cursor) : Nat := c.startBit + c.currentBit

/-- The cursor after `n` bits (R167, R176). -/
def Cursor.forward (c : Cursor) (n : Nat) : Cursor := { c with currentBit := c.currentBit + n }

/-- The events of `write_bits(bits, n)`: none for `n = 0`; the masked low part; and, where the window straddles a word boundary, the
high part into the next word, after it (R167, R169, R170, R171). -/
def writeBitsEvents (c : Cursor) (bits : Word) (n : Nat) : List Event :=
  let a := c.wordIndex + c.pos / Config.wordBits
  let sh := c.pos % Config.wordBits
  let b := lowBits n bits
  if n = 0 then []
  else if Config.wordBits < sh + n then
    [{ addr := a, value := b <<< sh }, { addr := a + 1, value := b >>> (Config.wordBits - sh) }]
  else [{ addr := a, value := b <<< sh }]

/-- What `write_bits(bits, n)` returns: `bits >> n`, 0 from the full width on (R167, R171). -/
def writeBitsRest (bits : Word) (n : Nat) : Word := if Config.wordBits ≤ n then 0 else bits >>> n

/-- The event of `write_bit(b)` (R172). It returns the bit written. -/
def writeBitEvents (c : Cursor) (b : Bool) : List Event :=
  [{ addr := c.wordIndex + c.pos / Config.wordBits, value := (BitVec.ofBool b).setWidth 64 <<< (c.pos % Config.wordBits) }]

/-- A call of the writer by the driver or by the bit-plane encoder. -/
inductive Call where
  /-- `write_bits(bits, n)` (R167). -/
  | bits (v : Word) (n : Nat)
  /-- `write_bit(b)` (R172). -/
  | bit (b : Bool)
deriving DecidableEq, Repr

/-- How many bits a call asks to write (R176). -/
def Call.length : Call → Nat
  | .bits _ n => n
  | .bit _ => 1

/-- The bits a call asks to write, first-written first: bit 0 of a value first (R91, R168). -/
def Call.written : Call → List Bool
  | .bits v n => (List.range n).map v.getLsbD
  | .bit b => [b]

/-- The events of one call (R167, R172). -/
def Call.events (c : Cursor) : Call → List Event
  | .bits v n => writeBitsEvents c v n
  | .bit b => writeBitEvents c b

/-- The cursor after a sequence of calls. -/
def cursorAfter (c : Cursor) (calls : List Call) : Cursor := calls.foldl (fun c call => c.forward call.length) c

/-- The events of a sequence of calls, in call order (R60). -/
def callEvents : Cursor → List Call → List Event
  | _, [] => []
  | c, call :: calls => call.events c ++ callEvents (c.forward call.length) calls

end Sys2Proof.Machine
end

