-- ==== Sys2Proof/Machine/Planes.lean ====
section
/-! DEFINITION. The bit-plane encoder, unit C7 (45_bitplane_encoder.md). It answers its registers and the writer calls it makes. -/

namespace Sys2Proof.Machine

/-- The registers the steps inside a plane work on: the prefix length `n`, the budget `bits`, the tail `x` (R29). -/
structure Coder where
  n : Nat
  bits : Nat
  x : Word
deriving DecidableEq, Repr

/-- The sum `Σ_i ((u[i] >> k) AND 1) << i` over a list of cells, as a number (R187). -/
def planeNumber (k : Nat) : List Word → Nat
  | [] => 0
  | u :: us => (u.getLsbD k).toNat + 2 * planeNumber k us

/-- Plane extraction: coefficient `i` supplies bit `i` of `x` (R187). Cells at or above `BlockSize` are not read. -/
def planeWord (size k : Nat) (ublk : List Word) : Word := BitVec.ofNat 64 (planeNumber k (blockCells size ublk))

/-- `m`, the number of raw bits: `min(n, bits)` (R188). -/
def Coder.rawCount (c : Coder) : Nat := min c.n c.bits

/-- The registers after the raw-bits step (R188). -/
def Coder.afterRaw (c : Coder) : Coder :=
  { c with bits := c.bits - c.rawCount, x := writeBitsRest c.x c.rawCount }

/-- One bit of the budget is spent. -/
def Coder.spend (c : Coder) : Coder := { c with bits := c.bits - 1 }

/-- `x <- x >> 1; n <- n + 1`: step over one coefficient (R189, R191). -/
def Coder.stepOver (c : Coder) : Coder := { c with n := c.n + 1, x := c.x >>> 1 }

/-- The unary loop (R189, R191). The first argument bounds its passes; `BlockSize` is enough, since each pass that goes on
advances `n`. -/
def unaryLoop (size : Nat) : Nat → Coder → Coder × List Call
  | 0, c => (c, [])
  | fuel + 1, c =>
    if c.n < size - 1 ∧ 0 < c.bits then
      if c.x.getLsbD 0 then (c.spend, [.bit true])
      else
        let r := unaryLoop size fuel c.spend.stepOver
        (r.1, .bit false :: r.2)
    else (c, [])

/-- The group-test loop (R189, R190). The first argument bounds its passes; `BlockSize` is enough, since each pass that goes on
advances `n`. -/
def groupLoop (size : Nat) : Nat → Coder → Coder × List Call
  | 0, c => (c, [])
  | fuel + 1, c =>
    if c.n < size ∧ 0 < c.bits then
      if c.x = 0 then (c.spend, [.bit false])
      else
        let u := unaryLoop size size c.spend
        let r := groupLoop size fuel u.1.stepOver
        (r.1, .bit true :: (u.2 ++ r.2))
    else (c, [])

/-- The plane loop's condition: `bits > 0 and k > kmin` (R189). -/
def PlaneRegs.more (p : PlaneRegs) : Bool := decide (0 < p.bits) && decide (p.kmin < p.k)

/-- The registers at the encoder's entry, before the first plane (R189). `x` is first written here (R37's table) and its bits at or
above `BlockSize` are always 0 (R29): DEDUCED, it is cleared (log 25). -/
def PlaneRegs.start (n budget maxprec : Nat) : PlaneRegs :=
  { k := n, kmin := n - maxprec, n := 0, bits := budget, x := 0 }

/-- The coder at the start of the next plane: `k <- k - 1`, `x` the plane's word (R189). -/
def PlaneRegs.coder (p : PlaneRegs) (size : Nat) (ublk : List Word) : Coder :=
  { n := p.n, bits := p.bits, x := planeWord size (p.k - 1) ublk }

/-- One pass of the plane loop: its registers afterwards and its writer calls, in call order (R189). -/
def codePlane (size : Nat) (ublk : List Word) (p : PlaneRegs) : PlaneRegs × List Call :=
  let c := p.coder size ublk
  let g := groupLoop size size c.afterRaw
  ({ k := p.k - 1, kmin := p.kmin, n := g.1.n, bits := g.1.bits, x := g.1.x }, .bits c.x c.rawCount :: g.2)

/-- The plane loop. The first argument bounds its passes; `N` is enough, since each pass lowers `k`. -/
def planeLoop (size : Nat) (ublk : List Word) : Nat → PlaneRegs → PlaneRegs × List Call
  | 0, p => (p, [])
  | fuel + 1, p =>
    if p.more then
      let r := codePlane size ublk p
      let t := planeLoop size ublk fuel r.1
      (t.1, r.2 ++ t.2)
    else (p, [])

/-- `encode_ints(u, budget, maxprec)`: the writer calls it makes (R189). -/
def encodeInts (n size : Nat) (ublk : List Word) (budget maxprec : Nat) : List Call :=
  (planeLoop size ublk n (PlaneRegs.start n budget maxprec)).2

end Sys2Proof.Machine
end

