-- ==== Sys2Proof/Machine/Quantizer.lean ====
section
/-! DEFINITION. The floating-point quantizer, unit C3 (41_quantizer.md). -/

namespace Sys2Proof.Machine

/-- `exponent` of a magnitude, from its fields (R122). -/
def exponentOf (kind : Kind) (mag : Word) : Int :=
  if exponentField kind mag = 0 then
    if fractionField kind mag = 0 then -ebias kind else 1 - ebias kind
  else (exponentField kind mag : Int) - ebias kind + Config.eoff

/-- The largest magnitude pattern of a block: the floats' magnitudes order as their low `N - 1` bits do (R125, log 15). -/
def maxMagnitude (kind : Kind) (block : List Word) : Nat := block.foldl (fun m p => max m (magnitudeField kind p)) 0

/-- `max_exponent(block)`: `exponent(max |x_i|)` (R124). -/
def maxExponent (kind : Kind) (block : List Word) : Int := exponentOf kind (BitVec.ofNat 64 (maxMagnitude kind block))

/-- `quantize_factor(emax)`: the factor is `2^sexp` with `sexp = N - 2 - emax`; it is never formed as a float (R126, R127). -/
def factorExponent (kind : Kind) (emax : Int) : Int := (width kind : Int) - 2 - emax

/-- `sig_i` (R131): the significand, with the hidden bit of a normal scalar. -/
def significand (kind : Kind) (p : Word) : Nat :=
  if exponentField kind p = 0 then fractionField kind p else 2 ^ fbits kind + fractionField kind p

/-- `Ee_i` (R131): the exponent field, 1 for a zero or a denormal. -/
def effectiveExponent (kind : Kind) (p : Word) : Nat := if exponentField kind p = 0 then 1 else exponentField kind p

/-- `sh_i = Ee_i - EBIAS - FBITS + N - 2 - emax` (R131). -/
def castShift (kind : Kind) (emax : Int) (p : Word) : Int :=
  (effectiveExponent kind p : Int) - ebias kind - (fbits kind : Int) + factorExponent kind emax

/-- `mag_i` (R131): the significand shifted left, or right with the bits shifted out dropped. -/
def castMagnitude (kind : Kind) (emax : Int) (p : Word) : Nat :=
  if 0 ≤ castShift kind emax p then significand kind p * 2 ^ (castShift kind emax p).toNat
  else significand kind p / 2 ^ (-castShift kind emax p).toNat

/-- `fwd_cast` of one scalar: `trunc(val_i × 2^(N-2-emax))`, as the sign-magnitude shifter of R131 (R130). -/
def castScalar (kind : Kind) (emax : Int) (p : Word) : Int :=
  if signField kind p then -(castMagnitude kind emax p : Int) else (castMagnitude kind emax p : Int)

/-- `maxprec <- min(N, max(0, emax - MIN_EXP + PREC_BIAS))` (R205 step 3). -/
def maxPrecision (p : Config.Params) (kind : Kind) (emax : Int) : Nat :=
  min (width kind) (emax - minExp p kind + Config.precBias).toNat

/-- `e <- (maxprec > 0) ? emax + EBIAS : 0` (R205 step 4). -/
def biasedExponent (kind : Kind) (emax : Int) (maxprec : Nat) : Nat :=
  if 0 < maxprec then (emax + ebias kind).toNat else 0

end Sys2Proof.Machine
end

