-- ==== Sys2Proof/Machine/Negabinary.lean ====
section
/-! DEFINITION. The negabinary map, unit C2 (40_negabinary.md). -/

namespace Sys2Proof.Machine

/-- `M`, the alternating constant of width `N` (R8, R110). -/
def negabinaryMask (n : Nat) : Nat := if n = 32 then 0xAAAAAAAA else 0xAAAAAAAAAAAAAAAA

/-- `int_to_uint(x) = ((bits_N(x) + M) mod 2^N) XOR M` (R110). -/
def intToUint (n : Nat) (x : Int) : Nat := ((bitsN n x + negabinaryMask n) % 2 ^ n) ^^^ negabinaryMask n

end Sys2Proof.Machine
end

