-- ==== Sys2Proof/Machine/Reorder.lean ====
section
/-! DEFINITION. The zig-zag reorder unit, unit C5, and its tables (43_reorder.md). The entries of the tables are the spec's, which
marks them as from general knowledge (PRESUMED by the spec, log 14). -/

namespace Sys2Proof.Machine

/-- `PERM[1]` (R158). -/
def permutation1 : List Nat := [3, 2, 1, 0]

/-- `PERM[2]` (R159). -/
def permutation2 : List Nat := [15, 14, 11, 10, 13, 7, 9, 6, 12, 3, 5, 8, 2, 4, 1, 0]

/-- `PERM[3]` (R160), in four rows of sixteen. -/
def permutation3 : List Nat :=
  [63, 62, 59, 47, 43, 46, 58, 61, 55, 31, 42, 57, 45, 39, 54, 30] ++
  [27, 60, 51, 15, 41, 38, 26, 23, 29, 53, 56, 44, 35, 50, 14, 11] ++
  [22, 25, 37, 40, 34, 10, 52, 28, 19, 49, 13, 7, 21, 36, 24, 18] ++
  [33, 9, 6, 3, 12, 48, 20, 17, 5, 2, 8, 32, 1, 4, 16, 0]

/-- `PERM[d]`, selected by `dims` (R155). There is no table for `dims = 0`, which no command has (R89). -/
def permutation (d : Nat) : List Nat :=
  if d = 1 then permutation1 else if d = 2 then permutation2 else if d = 3 then permutation3 else []

/-- `fwd_order`: `ublk[i] <- int_to_uint(iblk[PERM[d][i]])`, a gather (R156). -/
def fwdOrder (n d : Nat) (iblk : List Int) : List Word :=
  (permutation d).map (fun p => BitVec.ofNat 64 (intToUint n (iblk.getD p 0)))

end Sys2Proof.Machine
end

