-- ==== Sys2Proof/Machine/Driver.lean ====
section
/-! DEFINITION. The block driver, unit C8: what a worker does in each phase (46_block_driver.md R205 to R207, 10_state.md R34), and
the issue of a command (30_encoding.md R82). -/

namespace Sys2Proof.Machine

/-- `h`, the number of header bits: `min(EBITS + 1, maxbits)` for a float kind (R206), none for an integer kind (R93). -/
def headerBits (kind : Kind) (maxbits : Nat) : Nat := if isFloat kind then min (ebits kind + 1) maxbits else 0

/-- The header call `write_bits((2·e + 1) mod 2^h, h)` (R205 step 6). -/
def headerCall (kind : Kind) (maxbits e : Nat) : Call :=
  .bits (BitVec.ofNat 64 ((2 * e + 1) % 2 ^ headerBits kind maxbits)) (headerBits kind maxbits)

/-- Make writer calls: their events become pending, the cursor moves on (R167, R172). -/
def Worker.callWriter (w : Worker) (calls : List Call) : Worker :=
  { w with pending := w.pending ++ callEvents w.cursor calls, cursor := cursorAfter w.cursor calls }

/-- The phase that follows. -/
def Worker.enter (w : Worker) (ph : Phase) : Worker := { w with phase := ph }

/-- Phase `SETUP`: construct the writer (R165). An integer command also takes `iblk <- signed_N(fblk)` and `maxprec <- N` here (R207,
R27); a float command goes on to `EXPONENT` (R34). -/
def setupPhase (w : Worker) : Worker :=
  let cursor := Cursor.construct w.blockIdx.toNat w.maxbits.toNat
  if isFloat w.kind then { w with cursor := cursor, phase := .exponent }
  else
    { w with
      cursor := cursor
      iblk := rewriteFile ((blockCells (blockSize w.dims) w.fblk).map (fun c => cellOfInt (intOfCell w.kind c))) w.iblk
      maxprec := width w.kind
      phase := .xform }

/-- Phase `EXPONENT`: `emax`, `maxprec`, `e` (R205 steps 2 to 4); complete where `e = 0` (step 5), else call the writer for the
header and enter `HEADER` (step 6). -/
def exponentPhase (p : Config.Params) (w : Worker) : Worker :=
  let emax := maxExponent w.kind (blockCells (blockSize w.dims) w.fblk)
  let maxprec := maxPrecision p w.kind emax
  let e := biasedExponent w.kind emax maxprec
  let w := { w with emax := emax, maxprec := maxprec, e := e }
  if e = 0 then w.enter .done else (w.callWriter [headerCall w.kind w.maxbits.toNat e]).enter .header

/-- Phase `CAST`: `fwd_cast` (R205 step 7, R130). -/
def castPhase (w : Worker) : Worker :=
  { w with
    iblk := rewriteFile ((blockCells (blockSize w.dims) w.fblk).map (fun c => cellOfInt (castScalar w.kind w.emax c))) w.iblk
    phase := .xform }

/-- Phase `XFORM`: `fwd_xform` in place (R149). -/
def xformPhase (w : Worker) : Worker :=
  let block := (blockCells (blockSize w.dims) w.iblk).map (intOfCell w.kind)
  { w with
    iblk := rewriteFile ((fwdXform (width w.kind) w.dims.toNat block).map cellOfInt) w.iblk
    phase := .order }

/-- Phase `ORDER`: `fwd_order` into `ublk` (R156); then the bit-plane encoder's registers are set and `PLANES` is entered with the
budget `maxbits - h` (R185, R189, R205 step 6, R207). -/
def orderPhase (w : Worker) : Worker :=
  let block := (blockCells (blockSize w.dims) w.iblk).map (intOfCell w.kind)
  { w with
    ublk := rewriteFile (fwdOrder (width w.kind) w.dims.toNat block) w.ublk
    planes := PlaneRegs.start (width w.kind) (w.maxbits.toNat - headerBits w.kind w.maxbits.toNat) w.maxprec
    phase := .planes }

/-- Phase `PLANES`: one pass of the plane loop, or the end of it (R189, R194). -/
def planesPhase (w : Worker) : Worker :=
  if w.planes.more then
    let r := codePlane (blockSize w.dims) w.ublk w.planes
    { w with planes := r.1 }.callWriter r.2
  else w.enter .done

/-- The next action of the sequencer, taken when no event is pending (R34). -/
def Worker.advance (p : Config.Params) (w : Worker) : Worker :=
  match w.phase with
  | .idle => w
  | .setup => setupPhase w
  | .exponent => exponentPhase p w
  | .header => w.enter .cast
  | .cast => castPhase w
  | .xform => xformPhase w
  | .order => orderPhase w
  | .planes => planesPhase w
  | .done => w.signalDone

/-- One small step of a worker: the next pending event is performed, or, with none pending, the sequencer acts. None where the worker
has no step: it is `IDLE` (R20), or its next event is one the stream memory does not admit and it is stuck (R54, R243, log 7). -/
def Worker.smallStep (p : Config.Params) (w : Worker) (m : Memory) : Option (Worker × Memory) :=
  if w.busy then
    match w.pending with
    | [] => some (w.advance p, m)
    | ev :: evs => if ev.addr < p.streamWords then some ({ w with pending := evs }, m.atomicOr ev) else none
  else none

/-- A worker's steps up to its completion, or up to where it is stuck, no other agent moving in between. The first argument bounds
the sequencer's actions. -/
def Worker.run (p : Config.Params) : Nat → Worker → Memory → Worker × Memory
  | 0, w, m => (w, m)
  | fuel + 1, w, m =>
    if w.busy then
      let r := performEvents p.streamWords w.pending m
      if r.2 = [] then Worker.run p fuel ({ w with pending := [] }.advance p) r.1
      else ({ w with pending := r.2 }, r.1)
    else (w, m)

/-- A bound on the sequencer's actions in one command: at most 8 phase changes and 64 planes (R34, R189), with room to spare
(log 24). -/
def sequencerBound : Nat := 80

/-- Issue (R82): the descriptor registers and `fblk[0..BlockSize)` are loaded, the completion signal of the command before falls,
and `phase <- SETUP`. -/
def Worker.load (w : Worker) (kind : Kind) (dims : BitVec 2) (maxbits : BitVec 16) (blockIdx : BitVec 32) (space : List Word) :
    Worker :=
  { w with
    phase := .setup, done := false, kind := kind, dims := dims, maxbits := maxbits, blockIdx := blockIdx
    fblk := rewriteFile (operandBlock kind (blockSize dims) space) w.fblk
    pending := [] }

/-- The issue of a command to the port's worker, with R242's checks that are left after decoding, in its order: the worker's state,
then the operand block. -/
def issueCommand (kind : Kind) (dims : BitVec 2) (maxbits : BitVec 16) (blockIdx : BitVec 32) (s : State) :
    Host.Outcome State Fault Refusal :=
  match s.workers[s.port.worker]? with
  | none => .refused (.noSuchWorker s.port.worker)
  | some w =>
    if w.busy then .refused (.workerBusy s.port.worker)
    else if isFloat kind && !isFiniteBlock kind (operandBlock kind (blockSize dims) s.port.block) then .refused .notFinite
    else .next (s.setWorker s.port.worker (w.load kind dims maxbits blockIdx s.port.block))

/-- Let worker `i` take its steps up to its completion, or up to where it is stuck (R54). -/
def runToCompletion (i : Nat) (s : State) : State :=
  match s.workers[i]? with
  | none => s
  | some w =>
    let r := w.run s.params sequencerBound s.stream
    (s.setWorker i r.1).setStream r.2

/-- A whole command: issued to the port's worker, which then takes all its steps. -/
def runCommand (kind : Kind) (dims : BitVec 2) (maxbits : BitVec 16) (blockIdx : BitVec 32) (s : State) :
    Host.Outcome State Fault Refusal :=
  match issueCommand kind dims maxbits blockIdx s with
  | .next t => .next (runToCompletion s.port.worker t)
  | .fault r => .fault r
  | .refused r => .refused r

end Sys2Proof.Machine
end

