-- ==== Sys2Proof/Machine/EncodeFloat.lean ====
section
/-! DEFINITION. The six float commands (46_block_driver.md R210 to R215): each binds the constants of its kind and dimension. -/

namespace Sys2Proof.Machine

/-- `ENC.F32.1D` (R210): `encode_float_block(F32, 1)` of R205, `N = 32`, `BlockSize = 4`, `EBITS = 8`, `EBIAS = 127`, header 9 bits, one pass (stride 1), `PERM[1]`. -/
def execEncF32D1 (maxbits : BitVec 16) (blockIdx : BitVec 32) (s : State) : Host.Outcome State Fault Refusal :=
  runCommand .f32 1 maxbits blockIdx s

/-- `ENC.F32.2D` (R211): `encode_float_block(F32, 2)` of R205, `N = 32`, `BlockSize = 16`, `EBITS = 8`, `EBIAS = 127`, header 9 bits, passes along x then y, `PERM[2]`. -/
def execEncF32D2 (maxbits : BitVec 16) (blockIdx : BitVec 32) (s : State) : Host.Outcome State Fault Refusal :=
  runCommand .f32 2 maxbits blockIdx s

/-- `ENC.F32.3D` (R212): `encode_float_block(F32, 3)` of R205, `N = 32`, `BlockSize = 64`, `EBITS = 8`, `EBIAS = 127`, header 9 bits, passes along x, y, z, `PERM[3]`. -/
def execEncF32D3 (maxbits : BitVec 16) (blockIdx : BitVec 32) (s : State) : Host.Outcome State Fault Refusal :=
  runCommand .f32 3 maxbits blockIdx s

/-- `ENC.F64.1D` (R213): `encode_float_block(F64, 1)` of R205, `N = 64`, `BlockSize = 4`, `EBITS = 11`, `EBIAS = 1023`, header 12 bits, one pass (stride 1), `PERM[1]`. -/
def execEncF64D1 (maxbits : BitVec 16) (blockIdx : BitVec 32) (s : State) : Host.Outcome State Fault Refusal :=
  runCommand .f64 1 maxbits blockIdx s

/-- `ENC.F64.2D` (R214): `encode_float_block(F64, 2)` of R205, `N = 64`, `BlockSize = 16`, `EBITS = 11`, `EBIAS = 1023`, header 12 bits, passes along x then y, `PERM[2]`. -/
def execEncF64D2 (maxbits : BitVec 16) (blockIdx : BitVec 32) (s : State) : Host.Outcome State Fault Refusal :=
  runCommand .f64 2 maxbits blockIdx s

/-- `ENC.F64.3D` (R215): `encode_float_block(F64, 3)` of R205, `N = 64`, `BlockSize = 64`, `EBITS = 11`, `EBIAS = 1023`, header 12 bits, passes along x, y, z, `PERM[3]`. -/
def execEncF64D3 (maxbits : BitVec 16) (blockIdx : BitVec 32) (s : State) : Host.Outcome State Fault Refusal :=
  runCommand .f64 3 maxbits blockIdx s

end Sys2Proof.Machine
end

