-- ==== Sys2Proof/Machine/EncodeInteger.lean ====
section
/-! DEFINITION. The six integer commands (46_block_driver.md R216 to R221): each binds the constants of its kind and dimension. -/

namespace Sys2Proof.Machine

/-- `ENC.I32.1D` (R216): `encode_int_block(I32, 1)` of R207, `N = 32`, `BlockSize = 4`, no header, `maxprec = 32`, budget `maxbits`, one pass (stride 1), `PERM[1]`. -/
def execEncI32D1 (maxbits : BitVec 16) (blockIdx : BitVec 32) (s : State) : Host.Outcome State Fault Refusal :=
  runCommand .i32 1 maxbits blockIdx s

/-- `ENC.I32.2D` (R217): `encode_int_block(I32, 2)` of R207, `N = 32`, `BlockSize = 16`, no header, `maxprec = 32`, budget `maxbits`, passes along x then y, `PERM[2]`. -/
def execEncI32D2 (maxbits : BitVec 16) (blockIdx : BitVec 32) (s : State) : Host.Outcome State Fault Refusal :=
  runCommand .i32 2 maxbits blockIdx s

/-- `ENC.I32.3D` (R218): `encode_int_block(I32, 3)` of R207, `N = 32`, `BlockSize = 64`, no header, `maxprec = 32`, budget `maxbits`, passes along x, y, z, `PERM[3]`. -/
def execEncI32D3 (maxbits : BitVec 16) (blockIdx : BitVec 32) (s : State) : Host.Outcome State Fault Refusal :=
  runCommand .i32 3 maxbits blockIdx s

/-- `ENC.I64.1D` (R219): `encode_int_block(I64, 1)` of R207, `N = 64`, `BlockSize = 4`, no header, `maxprec = 64`, budget `maxbits`, one pass (stride 1), `PERM[1]`. -/
def execEncI64D1 (maxbits : BitVec 16) (blockIdx : BitVec 32) (s : State) : Host.Outcome State Fault Refusal :=
  runCommand .i64 1 maxbits blockIdx s

/-- `ENC.I64.2D` (R220): `encode_int_block(I64, 2)` of R207, `N = 64`, `BlockSize = 16`, no header, `maxprec = 64`, budget `maxbits`, passes along x then y, `PERM[2]`. -/
def execEncI64D2 (maxbits : BitVec 16) (blockIdx : BitVec 32) (s : State) : Host.Outcome State Fault Refusal :=
  runCommand .i64 2 maxbits blockIdx s

/-- `ENC.I64.3D` (R221): `encode_int_block(I64, 3)` of R207, `N = 64`, `BlockSize = 64`, no header, `maxprec = 64`, budget `maxbits`, passes along x, y, z, `PERM[3]`. -/
def execEncI64D3 (maxbits : BitVec 16) (blockIdx : BitVec 32) (s : State) : Host.Outcome State Fault Refusal :=
  runCommand .i64 3 maxbits blockIdx s

end Sys2Proof.Machine
end

