-- ==== Sys2Proof/Machine/Dispatch.lean ====
section
/-! DEFINITION. One arm per command (30_encoding.md R88). -/

namespace Sys2Proof.Machine

def exec (i : Instr) (s : State) : Host.Outcome State Fault Refusal :=
  match i with
  | .encF32D1 maxbits blockIdx => Sys2Proof.Machine.execEncF32D1 maxbits blockIdx s
  | .encF32D2 maxbits blockIdx => Sys2Proof.Machine.execEncF32D2 maxbits blockIdx s
  | .encF32D3 maxbits blockIdx => Sys2Proof.Machine.execEncF32D3 maxbits blockIdx s
  | .encF64D1 maxbits blockIdx => Sys2Proof.Machine.execEncF64D1 maxbits blockIdx s
  | .encF64D2 maxbits blockIdx => Sys2Proof.Machine.execEncF64D2 maxbits blockIdx s
  | .encF64D3 maxbits blockIdx => Sys2Proof.Machine.execEncF64D3 maxbits blockIdx s
  | .encI32D1 maxbits blockIdx => Sys2Proof.Machine.execEncI32D1 maxbits blockIdx s
  | .encI32D2 maxbits blockIdx => Sys2Proof.Machine.execEncI32D2 maxbits blockIdx s
  | .encI32D3 maxbits blockIdx => Sys2Proof.Machine.execEncI32D3 maxbits blockIdx s
  | .encI64D1 maxbits blockIdx => Sys2Proof.Machine.execEncI64D1 maxbits blockIdx s
  | .encI64D2 maxbits blockIdx => Sys2Proof.Machine.execEncI64D2 maxbits blockIdx s
  | .encI64D3 maxbits blockIdx => Sys2Proof.Machine.execEncI64D3 maxbits blockIdx s

end Sys2Proof.Machine
end

