-- ==== Sys2Proof/Decode.lean ====
section
/-! DEFINITION. Reading a command from its 64-bit descriptor, and writing it back (30_encoding.md R81, R88, R89). -/

namespace Sys2Proof

/-- What the decoder answers for any 64-bit word: a command, or a rejection by name (R89). -/
inductive Decoded where
  | command (i : Instr)
  | reserved (r : Reject)
deriving DecidableEq, Repr

/-- The kind of a `kind` field (R81). -/
def kindOfField (f : BitVec 2) : Kind :=
  if f = 0 then .f32 else if f = 1 then .f64 else if f = 2 then .i32 else .i64

/-- The `kind` field of a kind (R81). -/
def fieldOfKind : Kind → BitVec 2
  | .f32 => 0
  | .f64 => 1
  | .i32 => 2
  | .i64 => 3

/-- The fields of a descriptor word (R81). -/
def Descriptor.ofWord (w : Word) : Descriptor :=
  { kind := kindOfField (w.extractLsb' 0 2)
    dims := w.extractLsb' 2 2
    rsv0 := w.extractLsb' 4 4
    maxbits := w.extractLsb' 8 16
    rsv1 := w.extractLsb' 24 8
    blockIdx := w.extractLsb' 32 32 }

/-- The command of a kind and a dimension (R88); none for `dims = 0`. -/
def commandOf (kind : Kind) (dims : BitVec 2) (maxbits : BitVec 16) (blockIdx : BitVec 32) : Option Instr :=
  match kind, dims.toNat with
  | .f32, 1 => some (.encF32D1 maxbits blockIdx)
  | .f32, 2 => some (.encF32D2 maxbits blockIdx)
  | .f32, 3 => some (.encF32D3 maxbits blockIdx)
  | .f64, 1 => some (.encF64D1 maxbits blockIdx)
  | .f64, 2 => some (.encF64D2 maxbits blockIdx)
  | .f64, 3 => some (.encF64D3 maxbits blockIdx)
  | .i32, 1 => some (.encI32D1 maxbits blockIdx)
  | .i32, 2 => some (.encI32D2 maxbits blockIdx)
  | .i32, 3 => some (.encI32D3 maxbits blockIdx)
  | .i64, 1 => some (.encI64D1 maxbits blockIdx)
  | .i64, 2 => some (.encI64D2 maxbits blockIdx)
  | .i64, 3 => some (.encI64D3 maxbits blockIdx)
  | _, _ => none

/-- The decoder: total on every 64-bit word (R88, R89). A descriptor is handed over whole (R80), so there is no byte order in it. -/
def decodeWord (w : Word) : Decoded :=
  let d := Descriptor.ofWord w
  match d.reject with
  | some r => .reserved r
  | none =>
    match commandOf d.kind d.dims d.maxbits d.blockIdx with
    | some i => .command i
    | none => .reserved .dimsZero

/-- The command of a descriptor word, where it is one. -/
def decodeCommand (w : Word) : Option Instr :=
  match decodeWord w with
  | .command i => some i
  | .reserved _ => none

/-- The encoder: `(block_idx << 32) OR (maxbits << 8) OR (dims << 2) OR kind` (R88). -/
def encode (i : Instr) : Word :=
  (i.blockIdx.setWidth 64 <<< 32) ||| (i.maxbits.setWidth 64 <<< 8) ||| (i.dims.setWidth 64 <<< 2) |||
    (fieldOfKind i.kind).setWidth 64

/-- The 64-bit word whose low `nbits` bits are those of `w`, the bits above being 0 (log 17). -/
def tableWord (nbits w : Nat) : Word := BitVec.ofNat 64 (w % 2 ^ nbits)

/-- What the decoder reads from a word numbered as the opcode table numbers it: the descriptor is ONE 64-bit word, bit 0 its least
significant (R81). A word with a bit at or above 64 is no descriptor. -/
def decodeTableWord (nbits w : Nat) : Option Instr :=
  if w % 2 ^ nbits < 2 ^ 64 then decodeCommand (tableWord nbits w) else none

end Sys2Proof
end

