-- ==== Sys2Proof/Machine/HostMoves.lean ====
section
/-! DEFINITION. The moves of the agents other than a whole command: a worker's small step, the host's directives
(30_encoding.md R82, R90), reset (10_state.md R37, R38), and what happens when the agenda names no agent. -/

namespace Sys2Proof.Machine

/-- Worker `i` takes one small step; none where it has none (R54) or does not exist. -/
def State.workerStep (s : State) (i : Nat) : Option State :=
  match s.workers[i]? with
  | none => none
  | some w =>
    match w.smallStep s.params s.stream with
    | none => none
    | some (w', m) => some ((s.setWorker i w').setStream m)

/-- The move `worker i`. A worker that has no step stays as it is (R20, R243, log 7). -/
def moveWorker (i : Nat) (s : State) : Host.Outcome State Fault Refusal :=
  if i < s.workers.length then
    match s.workerStep i with
    | some t => .next t
    | none => .next s
  else .refused (.noSuchWorker i)

/-- The first worker, by number from `i` on, that has a step takes it. -/
def firstStepFrom (s : State) : Nat → Nat → Option State
  | 0, _ => none
  | fuel + 1, i =>
    match s.workerStep i with
    | some t => some t
    | none => firstStepFrom s fuel (i + 1)

/-- No agent is named: the lowest-numbered worker that has a step takes it, and where none has, nothing happens
(R67, R267; DESIGN CHOICE of one legal order, log 4). -/
def someWorkerSteps (s : State) : State :=
  match firstStepFrom s s.workers.length 0 with
  | some t => t
  | none => s

/-- The command a descriptor selects is issued (R82), or the descriptor refused (R89). -/
def issueDescriptor (descriptor : Word) (s : State) : Host.Outcome State Fault Refusal :=
  match decodeWord descriptor with
  | .command i => issueCommand i.kind i.dims i.maxbits i.blockIdx s
  | .reserved r => .refused (.reservedDescriptor r)

/-- `HOST.ZERO words=n` (R90). Refused while a command is in flight (R66, R276). -/
def hostZero (words : Nat) (s : State) : Host.Outcome State Fault Refusal :=
  if s.params.streamWords < words then .fault (.zeroOutsideStream words)
  else if allIdle s.workers then .next (s.setStream (s.stream.zeroWords words))
  else .refused .hostWriteInFlight

/-- `HOST.READ a` (R90). It may be made while commands are in flight, and then sees what has been performed so far (R65, log 21).
DESIGN CHOICE (log 26): so of two reads during one command the later sees at least the events the earlier saw, where R65 and U23 let
each see any subset closed under the order of R60. -/
def hostRead (addr : Nat) (s : State) : Host.Outcome State Fault Refusal :=
  if addr < s.params.streamWords then .next (s.addRead addr (s.stream.readWord addr)) else .fault (.readOutsideStream addr)

/-- The host presents a worker number and an operand block; elements beyond the block keep what they held (R85, log 12). -/
def hostPresent (worker : Nat) (block : List Word) (s : State) : State :=
  s.setPort { worker := worker, block := rewriteFile (block.take Config.fileCells) s.port.block }

/-- Reset of the core (R38, R265, R266): every worker back to its reset state, its command abandoned and no completion signalled;
the stream is not touched. DESIGN CHOICE (log 11): nor is what stands at the outside, and the registers take the values of log 2. -/
def resetCore (s : State) : State := s.setWorkers (s.workers.map (fun _ => Worker.reset))

end Sys2Proof.Machine
end

