-- ==== Sys2Proof/Machine/Step.lean ====
section
/-! DEFINITION. One step of the machine: the agent the agenda names moves (10_state.md R20, 20_memory.md R61, log 4). -/

namespace Sys2Proof.Machine

/-- The move `mv` made in state `s`, from which it has already been taken. -/
def moveStep (mv : Move) (s : State) : Host.Outcome State Fault Refusal :=
  match mv with
  | .encode descriptor =>
    match decodeWord descriptor with
    | .command i => exec i s
    | .reserved r => .refused (.reservedDescriptor r)
  | .issue descriptor => issueDescriptor descriptor s
  | .present worker block => .next (hostPresent worker block s)
  | .worker i => moveWorker i s
  | .zero words => hostZero words s
  | .wait => .next s
  | .read addr => hostRead addr s
  | .reset => .next (resetCore s)

/-- One step: the next move of the agenda is made. A `wait` stays at the head, and the workers go on, until no command is in
flight (R90, log 10); with no move to come the workers go on. -/
def step (s : State) : Host.Outcome State Fault Refusal :=
  match s.agenda with
  | [] => .next (someWorkerSteps s)
  | .wait :: rest => if allIdle s.workers then moveStep .wait (s.setAgenda rest) else .next (someWorkerSteps s)
  | mv :: rest => moveStep mv (s.setAgenda rest)

/-- `s` with the command of a table word as the next move: the host issues it, with the operand block that stands at the port, to the
worker the port names (R80, log 16). -/
def State.withFetchWord (s : State) (nbits w : Nat) : State := s.setAgenda (.encode (tableWord nbits w) :: s.agenda)

end Sys2Proof.Machine
end

