-- ==== Sys2Proof/Safety.lean ====
section
/-! DEFINITION. The terms claims are stated in: the value of a scalar, the code of a command as one listing, the region of a block,
the host's duties, the invariant of a state. -/

namespace Sys2Proof.Machine

/-! ### Values -/

/-- `val`, the exact value of a finite float scalar (30_encoding.md R86). -/
def scalarValue (kind : Kind) (p : Word) : ℚ :=
  let sign : ℚ := if signField kind p then -1 else 1
  let fraction : ℚ := fractionField kind p
  let field : Int := exponentField kind p
  let frac : Int := fbits kind
  if exponentField kind p = 0 then sign * fraction * 2 ^ (1 - ebias kind - frac)
  else sign * (2 ^ fbits kind + fraction) * 2 ^ (field - ebias kind - frac)

/-- `trunc(q)`, rounding toward zero (R14). -/
def truncate (q : ℚ) : Int := if 0 ≤ q then ⌊q⌋ else -⌊-q⌋

/-- `v` is an `Int_N` (R11). -/
def IsInt (n : Nat) (v : Int) : Prop := -2 ^ (n - 1) ≤ v ∧ v < 2 ^ (n - 1)

/-- `uint_to_int(u) = signed_N(((u XOR M) - M) mod 2^N)`: a law for statements, not part of the hardware (R112). -/
def uintToInt (n u : Nat) : Int := signedN n (bitsN n (((u ^^^ negabinaryMask n : Nat) : Int) - negabinaryMask n))

/-- `inv_lift` on the four variables: a law for statements, not part of the hardware (R144). -/
def unliftSteps (n : Nat) (q : Quad) : Quad :=
  let y := wrap n (q.y + asr q.w 1)
  let w := wrap n (q.w - asr y 1)
  let y := wrap n (y + w)
  let w := wrap n (wrap n (2 * w) - y)
  let z := wrap n (q.z + q.x)
  let x := wrap n (wrap n (2 * q.x) - z)
  let y := wrap n (y + z)
  let z := wrap n (wrap n (2 * z) - y)
  let w := wrap n (w + x)
  let x := wrap n (wrap n (2 * x) - w)
  { x := x, y := y, z := z, w := w }

/-- The four sums that `fwd_lift` halves in its first four lines, in order (R140). -/
def liftHalvedSums (n : Nat) (q : Quad) : List Int :=
  let sx := wrap n (q.x + q.w)
  let sz := wrap n (q.z + q.y)
  let sxz := wrap n (asr sx 1 + asr sz 1)
  let w := wrap n (q.w - asr sx 1)
  let y := wrap n (q.y - asr sz 1)
  [sx, sz, sxz, wrap n (w + y)]

/-- The total sequency of the cell at index `p` of a block of dimension `d`: the sum of `3 - q_a` over its coordinates (R151). -/
def totalSequency (d p : Nat) : Nat := ((List.range d).map (fun a => 3 - p / 4 ^ a % 4)).sum

/-! ### The code of a command as one listing -/

/-- `ublk` of a block of `Int_N`: transformed, then reordered (R149, R156). -/
def reorderedBlock (kind : Kind) (dims : BitVec 2) (ints : List Int) : List Word :=
  fwdOrder (width kind) dims.toNat (fwdXform (width kind) dims.toNat ints)

/-- The `Int_N` block the transform starts from: the cast of a float block (R130), the values of an integer block (R207). -/
def integerBlock (kind : Kind) (block : List Word) : List Int :=
  if isFloat kind then block.map (castScalar kind (maxExponent kind block)) else block.map (intOfCell kind)

/-- `maxprec` of a command (R205 step 3, R207). -/
def commandPrecision (p : Config.Params) (kind : Kind) (block : List Word) : Nat :=
  if isFloat kind then maxPrecision p kind (maxExponent kind block) else width kind

/-- `e` of a float command (R205 step 4). -/
def commandExponent (p : Config.Params) (kind : Kind) (block : List Word) : Nat :=
  biasedExponent kind (maxExponent kind block) (maxPrecision p kind (maxExponent kind block))

/-- A float command with `e = 0` writes nothing (R205 step 5). -/
def isDropped (p : Config.Params) (kind : Kind) (block : List Word) : Bool := isFloat kind && commandExponent p kind block == 0

/-- The budget left for the bit-plane code: `maxbits - h` (R205 step 6), all of `maxbits` for an integer kind (R207). -/
def commandBudget (kind : Kind) (maxbits : Nat) : Nat := maxbits - headerBits kind maxbits

/-- The writer calls of a command, as the listings of R205 (float kinds) and R207 (integer kinds) make them. -/
def commandCalls (p : Config.Params) (kind : Kind) (dims : BitVec 2) (maxbits : Nat) (block : List Word) : List Call :=
  if isDropped p kind block then []
  else
    (if isFloat kind then [headerCall kind maxbits (commandExponent p kind block)] else []) ++
      encodeInts (width kind) (blockSize dims) (reorderedBlock kind dims (integerBlock kind block)) (commandBudget kind maxbits)
        (commandPrecision p kind block)

/-- The bits a command writes, first-written first (R91). -/
def commandBits (p : Config.Params) (kind : Kind) (dims : BitVec 2) (maxbits : Nat) (block : List Word) : List Bool :=
  (commandCalls p kind dims maxbits block).flatMap Call.written

/-- The code of the groups of one plane, given the indices, from `n` on and rising, of the coefficients with a 1 in it: for each, a
group bit 1, the zeros up to it and its own 1, which is left out for the last coefficient; then a group bit 0, unless no coefficient
is left (R197 d, R94). -/
def groupCode (size : Nat) : Nat → List Nat → List Bool
  | n, [] => if n < size then [false] else []
  | n, j :: js =>
    true :: (List.replicate (j - n) false ++ ((if j + 1 = size then [] else [true]) ++ groupCode size (j + 1) js))

/-- The whole code of plane `k` where `n` coefficients are significant: their raw bits, then the groups (R94). -/
def planeCode (size k n : Nat) (ublk : List Word) : List Bool :=
  (List.range n).map (fun i => (cell ublk i).getLsbD k) ++
    groupCode size n ((List.range size).filter (fun j => decide (n ≤ j) && (cell ublk j).getLsbD k))

/-- The header of a coded float block: a 1, then the biased exponent, least significant bit first (R92). -/
def headerCode (kind : Kind) (e : Nat) : List Bool := true :: (List.range (ebits kind)).map (fun j => e.testBit j)

/-- The events of a command: a function of its descriptor and its operand block alone (R62, R222). -/
def commandEvents (p : Config.Params) (kind : Kind) (dims : BitVec 2) (maxbits : BitVec 16) (blockIdx : BitVec 32)
    (block : List Word) : List Event :=
  callEvents (Cursor.construct blockIdx.toNat maxbits.toNat) (commandCalls p kind dims maxbits.toNat block)

/-- The registers of a worker that held `w` when a command was issued to it and has completed that command. -/
def completedWorker (p : Config.Params) (kind : Kind) (dims : BitVec 2) (maxbits : BitVec 16) (blockIdx : BitVec 32)
    (space : List Word) (w : Worker) : Worker :=
  let block := operandBlock kind (blockSize dims) space
  let ints := integerBlock kind block
  let ublk := reorderedBlock kind dims ints
  let maxprec := commandPrecision p kind block
  let base : Worker :=
    { w.load kind dims maxbits blockIdx space with
      phase := .idle
      done := true
      cursor := cursorAfter (Cursor.construct blockIdx.toNat maxbits.toNat) (commandCalls p kind dims maxbits.toNat block)
      maxprec := maxprec
      emax := if isFloat kind then maxExponent kind block else w.emax
      e := if isFloat kind then commandExponent p kind block else w.e }
  if isDropped p kind block then base
  else
    { base with
      iblk := rewriteFile ((fwdXform (width kind) dims.toNat ints).map cellOfInt) w.iblk
      ublk := rewriteFile ublk w.ublk
      planes := (planeLoop (blockSize dims) ublk (width kind)
        (PlaneRegs.start (width kind) (commandBudget kind maxbits.toNat) maxprec)).1 }

/-- Perform events on a memory that admits all of them. -/
def orEvents (m : Memory) (evs : List Event) : Memory := evs.foldl Memory.atomicOr m

/-- The state after a command of which every event is in range: its events ORed into the stream, the port's worker with the
command's registers, everything else as before. -/
def completedState (kind : Kind) (dims : BitVec 2) (maxbits : BitVec 16) (blockIdx : BitVec 32) (w : Worker) (s : State) : State :=
  (s.setWorker s.port.worker (completedWorker s.params kind dims maxbits blockIdx s.port.block w)).setStream
    (orEvents s.stream
      (commandEvents s.params kind dims maxbits blockIdx (operandBlock kind (blockSize dims) s.port.block)))

/-- The OR of the values of the events at word `a` (R62). -/
def orAt (a : Nat) (evs : List Event) : Word := evs.foldl (fun v ev => if ev.addr = a then v ||| ev.value else v) 0

/-- An event sets global bit `p` (R18). -/
def Event.sets (ev : Event) (p : Nat) : Bool :=
  decide (ev.addr = p / Config.wordBits) && ev.value.getLsbD (p % Config.wordBits)

/-! ### Regions and host duties -/

/-- Global bit `p` lies in the region of block `blockIdx` under `maxbits`: `[i × maxbits, (i+1) × maxbits)` (R52). -/
def InRegion (maxbits blockIdx p : Nat) : Prop := blockIdx * maxbits ≤ p ∧ p < (blockIdx + 1) * maxbits

/-- A byte of the stream that holds no bit of a region. -/
def ByteOutside (maxbits blockIdx addr : Nat) : Prop := 8 * addr + 8 ≤ blockIdx * maxbits ∨ (blockIdx + 1) * maxbits ≤ 8 * addr

/-- The stream is large enough for a block's region: the words that contain a bit of it exist (R53, R273). -/
def RegionFits (p : Config.Params) (maxbits blockIdx : Nat) : Prop := (blockIdx + 1) * maxbits ≤ Config.wordBits * p.streamWords

/-- The port's worker is `w` and can take a command (R82, R278). -/
def Accepts (s : State) (w : Worker) : Prop := s.workers[s.port.worker]? = some w ∧ w.busy = false

/-- The operand block at the port is acceptable to a command of this kind and dimension (R135, R277). -/
def OperandFinite (s : State) (kind : Kind) (dims : BitVec 2) : Prop :=
  isFiniteBlock kind (operandBlock kind (blockSize dims) s.port.block) = true

/-- A command completes as its listing says: whenever it is accepted and its region fits the stream, the next state is
`completedState`, the one R205 and R207 give. -/
def CompletesAsListed (i : Instr) : Prop :=
  ∀ (s : State) (w : Worker), Accepts s w → (isFloat i.kind = true → OperandFinite s i.kind i.dims) →
    RegionFits s.params i.maxbits.toNat i.blockIdx.toNat →
    exec i s = .next (completedState i.kind i.dims i.maxbits i.blockIdx w s)

/-- Worker `i` of a state holds no command and signals completion (R35; the bit is log 18). -/
def WorkerDone (s : State) (i : Nat) : Prop := ∃ w, s.workers[i]? = some w ∧ w.phase = .idle ∧ w.done = true ∧ w.pending = []

/-! ### What a worker still has to do -/

/-- The events a worker will still produce, whatever the stream holds: the pending ones, then those of the sequencer's actions to
come (R32, R62). The first argument bounds those actions. -/
def Worker.futureEvents (p : Config.Params) : Nat → Worker → List Event
  | 0, w => if w.busy then w.pending else []
  | fuel + 1, w => if w.busy then w.pending ++ Worker.futureEvents p fuel ({ w with pending := [] }.advance p) else []

/-- All the events a worker will still produce. -/
def Worker.remaining (p : Config.Params) (w : Worker) : List Event := w.futureEvents p sequencerBound

/-- Every event the workers will still produce is in range (R53). -/
def RemainingInRange (s : State) : Prop := ∀ w ∈ s.workers, ∀ ev ∈ w.remaining s.params, ev.addr < s.params.streamWords

/-- The worker's next event is one the stream memory does not admit: it is stuck (R54, R243). -/
def Worker.IsStuck (p : Config.Params) (w : Worker) : Prop :=
  w.busy = true ∧ ∃ ev ∈ w.pending.head?, p.streamWords ≤ ev.addr

/-- A schedule: moves of existing workers only (R61). -/
def IsSchedule (s : State) (moves : List Move) : Prop := ∀ mv ∈ moves, ∃ i < s.workers.length, mv = .worker i

/-! ### The invariant -/

/-- Every register of a worker fits the width 10_state.md gives it (R20, R24 to R29). -/
structure Worker.Fits (w : Worker) : Prop where
  fblk : w.fblk.length = Config.fileCells
  iblk : w.iblk.length = Config.fileCells
  ublk : w.ublk.length = Config.fileCells
  emax : -1023 ≤ w.emax ∧ w.emax ≤ 1024
  maxprec : w.maxprec ≤ 64
  e : w.e ≤ 2047
  wordIndex : w.cursor.wordIndex < 2 ^ 42
  startBit : w.cursor.startBit < 64
  currentBit : w.cursor.currentBit < 2 ^ 17
  k : w.planes.k ≤ 64
  kmin : w.planes.kmin ≤ 64
  n : w.planes.n ≤ 64
  bits : w.planes.bits < 2 ^ 16

/-- How many bits a worker may have written, phase by phase: `current_bit ≤ maxbits` with the budget accounted for (R175, R192,
R206). -/
def Worker.Accounted (w : Worker) : Prop :=
  match w.phase with
  | .idle => True
  | .setup => True
  | .exponent => w.cursor.currentBit = 0
  | .header => w.cursor.currentBit = headerBits w.kind w.maxbits.toNat
  | .cast => w.cursor.currentBit = headerBits w.kind w.maxbits.toNat
  | .xform => w.cursor.currentBit = headerBits w.kind w.maxbits.toNat
  | .order => w.cursor.currentBit = headerBits w.kind w.maxbits.toNat
  | .planes => w.cursor.currentBit + w.planes.bits ≤ w.maxbits.toNat
  | .done => w.cursor.currentBit ≤ w.maxbits.toNat

/-- What holds of a worker in every state a run reaches. -/
structure Worker.Inv (w : Worker) : Prop where
  fits : w.Fits
  /-- A busy worker holds one of the twelve commands (R89). -/
  command : w.busy = true → w.dims ≠ 0
  /-- A busy worker signals no completion (R35, log 18). -/
  unsignalled : w.busy = true → w.done = false
  /-- A float command in flight has a finite block (R135, R242). -/
  finite : w.busy = true → isFloat w.kind = true → isFiniteBlock w.kind (blockCells (blockSize w.dims) w.fblk) = true
  /-- Only a float command goes through `EXPONENT`, `HEADER` and `CAST` (R34). -/
  floatPhase : w.phase = .exponent ∨ w.phase = .header ∨ w.phase = .cast → isFloat w.kind = true
  /-- After `SETUP` the cursor stands at the block's first bit (R165). -/
  placed : w.busy = true → w.phase ≠ .setup →
    Config.wordBits * w.cursor.wordIndex + w.cursor.startBit = w.blockIdx.toNat * w.maxbits.toNat
  accounted : w.Accounted
  /-- Bits of `x` at or above `BlockSize` are 0 while planes are coded (R29). -/
  tail : w.phase = .planes → w.planes.x.toNat < 2 ^ blockSize w.dims
  /-- Only `HEADER` and `PLANES` produce events (R34). -/
  quiet : w.phase ≠ .header → w.phase ≠ .planes → w.pending = []
  /-- Every bit a pending event sets lies in the block's region (R175). -/
  contained : ∀ ev ∈ w.pending, ∀ p, ev.sets p = true → InRegion w.maxbits.toNat w.blockIdx.toNat p

/-- What holds of the machine in every state a run reaches. -/
structure State.Inv (s : State) : Prop where
  /-- The memory is in its canonical form. -/
  canonical : s.stream.wf = true
  /-- No byte outside the stream is listed (R36). -/
  bounded : ∀ c ∈ s.stream, c.1 < 8 * s.params.streamWords
  /-- The operand space has its 64 elements. -/
  port : s.port.block.length = Config.fileCells
  workers : ∀ w ∈ s.workers, w.Inv

/-! ### Runs -/

/-- `k` moves of worker `i`, one after the other. -/
def workerMoves (i k : Nat) : List Move := List.replicate k (.worker i)

/-- Run all the moves a state's agenda holds. -/
def runAgenda (s : State) : Host.Outcome State Fault Refusal := Sys2Proof.core.run s.agenda.length s

/-- A move that neither writes the stream for the host nor resets the core (R38, R66). -/
def Move.leavesStreamToWorkers : Move → Bool
  | .encode _ => true
  | .issue _ => true
  | .present _ _ => true
  | .worker _ => true
  | .zero _ => false
  | .wait => true
  | .read _ => true
  | .reset => false

/-- The events of the command a state's next move issues: a function of the descriptor and of the operand block at the port alone;
none where the next move issues none (R62). -/
def issuedEvents (s : State) : List Event :=
  match s.agenda with
  | .encode d :: _ => descriptorEvents d
  | .issue d :: _ => descriptorEvents d
  | _ => []
where
  descriptorEvents (d : Word) : List Event :=
    match decodeCommand d with
    | some i => commandEvents s.params i.kind i.dims i.maxbits i.blockIdx (operandBlock i.kind (blockSize i.dims) s.port.block)
    | none => []

/-- The events of all the commands issued in the first `n` steps of a run: the multiset `E` of R62. -/
def eventsOfRun : Nat → State → List Event
  | 0, _ => []
  | n + 1, s =>
    issuedEvents s ++
      match step s with
      | .next t => eventsOfRun n t
      | .fault _ => []
      | .refused _ => []

end Sys2Proof.Machine
end

