-- ==== Sys2Proof/Certificates/Slice0/Obligations.lean ====
section
/-! DEFINITION. The statements for the provers. Each docstring names the rules of spec/ it is about; a clause that rests on a choice
of the model names the log entry. The witnesses of their hypotheses are the theorems `witness_...` of Tests/Slice0.lean. -/

open Sys2Proof Sys2Proof.Machine

/-! ### Descriptors -/

/-- R88, R81: reading back the descriptor of a command gives the command, for every value of its two fields. -/
def Obligations.DecodeOfEncodeIsTheCommand : Prop :=
  ∀ i : Instr, i.wellFormed = true → decodeWord (encode i) = .command i

/-- R81, R88: a descriptor that is read as a command is that command's descriptor, in every bit. -/
def Obligations.EncodeOfDecodeIsTheDescriptor : Prop :=
  ∀ (w : Word) (i : Instr), decodeWord w = .command i → encode i = w

/-- R279: the valid descriptors are exactly those with `dims` in {1, 2, 3} and every reserved bit zero; any other is refused when it is
issued, by either move of the host. -/
def Obligations.DescriptorIsACommandIffNotReserved : Prop :=
  ∀ w : Word,
    ((∃ i, decodeWord w = .command i) ↔
      (w.extractLsb' 2 2 = 1 ∨ w.extractLsb' 2 2 = 2 ∨ w.extractLsb' 2 2 = 3) ∧ w.extractLsb' 4 4 = 0 ∧ w.extractLsb' 24 8 = 0) ∧
    ∀ (s : State) (rest : List Move), (¬ ∃ i, decodeWord w = .command i) →
      s.agenda = .encode w :: rest ∨ s.agenda = .issue w :: rest → ∃ r, step s = .refused (.reservedDescriptor r)

/-- R210 to R221: the descriptor each rule prints for its example is read as the command it prints. -/
def Obligations.WrittenOutDescriptorsDecode : Prop :=
  decodeWord 0x0000000000004004 = .command (.encF32D1 64 0) ∧ decodeWord 0x0000000100006008 = .command (.encF32D2 96 1) ∧
  decodeWord 0x000000000000800C = .command (.encF32D3 128 0) ∧ decodeWord 0x0000000000002005 = .command (.encF64D1 32 0) ∧
  decodeWord 0x0000000200003009 = .command (.encF64D2 48 2) ∧ decodeWord 0x000000050000250D = .command (.encF64D3 37 5) ∧
  decodeWord 0x0000000300010006 = .command (.encI32D1 256 3) ∧ decodeWord 0x000000000000800A = .command (.encI32D2 128 0) ∧
  decodeWord 0x000000010000400E = .command (.encI32D3 64 1) ∧ decodeWord 0x0000000100005007 = .command (.encI64D1 80 1) ∧
  decodeWord 0x000000000000640B = .command (.encI64D2 100 0) ∧ decodeWord 0x000000010000800F = .command (.encI64D3 128 1)

/-! ### Steps and commands -/

/-- A step runs the decoded command: where the next move issues a descriptor that is read as a well-formed command, the step is the
command's meaning on the state without that move; the word the host places is such a move (log 5, 16: the model's convention). -/
def Obligations.StepRunsTheDecodedCommand : Prop :=
  (∀ (s : State) (d : Word) (rest : List Move) (i : Instr), s.agenda = .encode d :: rest → decodeWord d = .command i →
    i.wellFormed = true → step s = exec i (s.setAgenda rest)) ∧
  ∀ (s : State) (nbits w : Nat) (i : Instr), decodeTableWord nbits w = some i → step (s.withFetchWord nbits w) = exec i s

/-- R205, R210 to R212: every F32 command that is accepted, of a finite block, whose region fits the stream, completes; the next state
is the one its listing gives, field for field: its events ORed into the stream, the registers of its worker, and everything else as
before. The upper half of an `iblk` cell (log 13), the completion bit (log 18), the cells of the block files at or above `BlockSize`
(log 23) and, where the budget lets no plane be coded, `x = 0` (log 25) are the model's choices. -/
def Obligations.EncF32CommandsCompleteAsListed : Prop :=
  ∀ (m : BitVec 16) (b : BitVec 32),
    CompletesAsListed (.encF32D1 m b) ∧ CompletesAsListed (.encF32D2 m b) ∧ CompletesAsListed (.encF32D3 m b)

/-- R205, R213 to R215: the same of every F64 command, with the same choices of the model in the next state
(log 13, 18, 23, 25). -/
def Obligations.EncF64CommandsCompleteAsListed : Prop :=
  ∀ (m : BitVec 16) (b : BitVec 32),
    CompletesAsListed (.encF64D1 m b) ∧ CompletesAsListed (.encF64D2 m b) ∧ CompletesAsListed (.encF64D3 m b)

/-- R207, R216 to R218: the same of every I32 command, with no condition on the block and the same choices of the model in the next
state (log 13, 18, 23, 25). -/
def Obligations.EncI32CommandsCompleteAsListed : Prop :=
  ∀ (m : BitVec 16) (b : BitVec 32),
    CompletesAsListed (.encI32D1 m b) ∧ CompletesAsListed (.encI32D2 m b) ∧ CompletesAsListed (.encI32D3 m b)

/-- R207, R219 to R221: the same of every I64 command, with no condition on the block and the same choices of the model in the next
state (log 13, 18, 23, 25). -/
def Obligations.EncI64CommandsCompleteAsListed : Prop :=
  ∀ (m : BitVec 16) (b : BitVec 32),
    CompletesAsListed (.encI64D1 m b) ∧ CompletesAsListed (.encI64D2 m b) ∧ CompletesAsListed (.encI64D3 m b)

/-- R135, R242: a float command accepted by an idle worker is refused exactly where a scalar of its block has an exponent field of all
ones; an integer command never is for its block (R87). -/
def Obligations.CommandIsRefusedForItsBlockIffNotFinite : Prop :=
  ∀ (i : Instr) (s : State) (w : Worker), Accepts s w →
    (exec i s = .refused .notFinite ↔
      isFloat i.kind = true ∧ ∃ j < blockSize i.dims, exponentField i.kind (cell s.port.block j) = 2 ^ ebits i.kind - 1)

/-- R242, R278: a command issued to a worker that is not `IDLE` is refused, by either move, whatever its block. -/
def Obligations.BusyWorkerRefusesEveryCommand : Prop :=
  ∀ (i : Instr) (s : State) (w : Worker), s.workers[s.port.worker]? = some w → w.busy = true →
    exec i s = .refused (.workerBusy s.port.worker) ∧
    ∀ rest, step (s.setAgenda (.issue (encode i) :: rest)) = .refused (.workerBusy s.port.worker)

/-- R240: no command ends in a fault: it has a next state or is refused for its worker or its block. That a worker number at or above
`NW` is refused is the model's choice (log 8). -/
def Obligations.CommandsNeverFault : Prop :=
  ∀ (i : Instr) (s : State),
    (∃ t, exec i s = .next t) ∨ exec i s = .refused .notFinite ∨ exec i s = .refused (.workerBusy s.port.worker) ∨
      exec i s = .refused (.noSuchWorker s.port.worker)

/-- R54, R243: where the stream is too small for an accepted command, the events before the first one out of range are in the stream,
and the worker is stuck at that one, busy and without a completion signal; if no event is out of range the worker is done. The other
workers and the rest of the machine are as before. That such a command has a next state is the model's inference (log 7); the completion
bit is log 18. -/
def Obligations.StuckCommandKeepsItsEarlierEvents : Prop :=
  ∀ (i : Instr) (s : State) (w : Worker), Accepts s w → (isFloat i.kind = true → OperandFinite s i.kind i.dims) →
    ∃ t made left,
      exec i s = .next t ∧
      commandEvents s.params i.kind i.dims i.maxbits i.blockIdx (operandBlock i.kind (blockSize i.dims) s.port.block) = made ++ left ∧
      (∀ ev ∈ made, ev.addr < s.params.streamWords) ∧ t.stream = orEvents s.stream made ∧
      (left = [] → WorkerDone t s.port.worker) ∧
      t.params = s.params ∧ t.port = s.port ∧ t.agenda = s.agenda ∧ t.reads = s.reads ∧
      (∀ l, l ≠ s.port.worker → t.workers[l]? = s.workers[l]?) ∧
      ∀ ev ∈ left.head?, s.params.streamWords ≤ ev.addr ∧
        ∃ w', t.workers[s.port.worker]? = some w' ∧ w'.IsStuck s.params ∧ w'.done = false ∧ w'.pending.head? = some ev

/-- R243: a stuck worker takes no further step and signals no completion, whatever move but a reset is made, the events of the stream
stay in it, and a reset frees the worker. -/
def Obligations.StuckWorkerNeverMovesUntilReset : Prop :=
  ∀ (s : State) (j : Nat) (w : Worker), s.Inv → s.workers[j]? = some w → w.IsStuck s.params →
    s.workerStep j = none ∧ w.done = false ∧
    (∀ agenda t, (∀ rest, agenda ≠ .reset :: rest) → step (s.setAgenda agenda) = .next t →
      t.workers[j]? = some w ∧ ∀ p, s.stream.globalBit p = true → t.stream.globalBit p = true) ∧
    ∃ t w', step (s.setAgenda [.reset]) = .next t ∧ t.workers[j]? = some w' ∧ w'.phase = .idle ∧ t.stream = s.stream

/-- R222 (I1, I2, P5), R168: whatever the state, a command changes a global bit only inside its block's region and only from 0 to 1;
every byte that holds no bit of the region reads as before. -/
def Obligations.CommandSetsOnlyBitsOfItsRegion : Prop :=
  ∀ (i : Instr) (s t : State), s.stream.wf = true → exec i s = .next t →
    (∀ p, t.stream.globalBit p ≠ s.stream.globalBit p →
      InRegion i.maxbits.toNat i.blockIdx.toNat p ∧ s.stream.globalBit p = false) ∧
    ∀ a, ByteOutside i.maxbits.toNat i.blockIdx.toNat a → t.stream.readByte a = s.stream.readByte a

/-- R222 (I1), R63: every bit an event of a command sets lies in the region of its block; so two commands with disjoint regions set no
common bit. -/
def Obligations.EventsOfACommandStayInItsRegion : Prop :=
  ∀ (pr : Config.Params) (kind : Kind) (dims : BitVec 2) (maxbits : BitVec 16) (blockIdx : BitVec 32) (block : List Word),
    (∀ ev ∈ commandEvents pr kind dims maxbits blockIdx block, ∀ p, ev.sets p = true →
      InRegion maxbits.toNat blockIdx.toNat p) ∧
    ∀ (kind' : Kind) (dims' : BitVec 2) (maxbits' : BitVec 16) (blockIdx' : BitVec 32) (block' : List Word),
      (∀ p, ¬ (InRegion maxbits.toNat blockIdx.toNat p ∧ InRegion maxbits'.toNat blockIdx'.toNat p)) →
      ∀ ev ∈ commandEvents pr kind dims maxbits blockIdx block,
        ∀ ev' ∈ commandEvents pr kind' dims' maxbits' blockIdx' block', ∀ p, ¬ (ev.sets p = true ∧ ev'.sets p = true)

/-- R91: a command of which every event is in range writes at most `maxbits` bits, and ORs the `j`-th bit it writes into global bit
`block_idx × maxbits + j`; no other bit of the stream changes. -/
def Obligations.CommandPlacesItsBitsInOrder : Prop :=
  ∀ (i : Instr) (s : State) (w : Worker), Accepts s w → (isFloat i.kind = true → OperandFinite s i.kind i.dims) →
    RegionFits s.params i.maxbits.toNat i.blockIdx.toNat → s.stream.wf = true →
    let written := commandBits s.params i.kind i.dims i.maxbits.toNat (operandBlock i.kind (blockSize i.dims) s.port.block)
    let first := i.blockIdx.toNat * i.maxbits.toNat
    written.length ≤ i.maxbits.toNat ∧
    ∃ t, exec i s = .next t ∧
      ∀ p, t.stream.globalBit p = (s.stream.globalBit p || (decide (first ≤ p) && written.getD (p - first) false))

/-- R208 (a): with `maxbits = 0` an accepted command completes, writes no bit and leaves the stream as it was, whatever its size. -/
def Obligations.ZeroBudgetCommandWritesNothing : Prop :=
  ∀ (i : Instr) (s : State) (w : Worker), i.maxbits = 0 → Accepts s w → (isFloat i.kind = true → OperandFinite s i.kind i.dims) →
    ∃ t, exec i s = .next t ∧ t.stream = s.stream ∧ WorkerDone t s.port.worker ∧
      ∀ w', t.workers[s.port.worker]? = some w' → w'.cursor.currentBit = 0

/-- R208 (b) (P6): a float command of a block of zeros, of either sign, completes, writes no bit and leaves the stream as it was, for
every `maxbits` and every value of the parameters. -/
def Obligations.ZeroFloatBlockWritesNothing : Prop :=
  ∀ (i : Instr) (s : State) (w : Worker), isFloat i.kind = true → Accepts s w →
    (∀ j < blockSize i.dims, magnitudeField i.kind (cell s.port.block j) = 0) →
    ∃ t, exec i s = .next t ∧ t.stream = s.stream ∧ WorkerDone t s.port.worker ∧
      ∀ w', t.workers[s.port.worker]? = some w' → w'.cursor.currentBit = 0 ∧ w'.e = 0 ∧ w'.emax = -ebias i.kind

/-- R207: there is no zero-block shortcut for the integer kinds: an all-zero block writes `min(maxbits, N)` zero bits, and the stream
stays as it was. -/
def Obligations.ZeroIntegerBlockWritesZeroBits : Prop :=
  ∀ (i : Instr) (s : State) (w : Worker), isFloat i.kind = false → Accepts s w → s.stream.wf = true →
    RegionFits s.params i.maxbits.toNat i.blockIdx.toNat →
    (∀ j < blockSize i.dims, lowBits (width i.kind) (cell s.port.block j) = 0) →
    commandBits s.params i.kind i.dims i.maxbits.toNat (operandBlock i.kind (blockSize i.dims) s.port.block) =
      List.replicate (min i.maxbits.toNat (width i.kind)) false ∧
    ∃ t w', exec i s = .next t ∧ t.stream = s.stream ∧ WorkerDone t s.port.worker ∧ t.workers[s.port.worker]? = some w' ∧
      w'.cursor.currentBit = min i.maxbits.toNat (width i.kind)

/-- R274 (last part), R58: issuing a command again, with the operand block unchanged, changes no bit of the stream. -/
def Obligations.RepeatingACommandChangesNothing : Prop :=
  ∀ (i : Instr) (s t u : State), s.stream.wf = true → exec i s = .next t → exec i t = .next u → u.stream = t.stream

/-! ### Workers, schedules, completion -/

/-- R37, R265: right after reset every worker is `IDLE` and holds no command, and the state meets the invariant; the values of the
other registers are the model's (log 2). -/
def Obligations.ResetStateIsIdleAndMeetsTheInvariant : Prop :=
  (∀ w ∈ State.reset.workers, w.phase = .idle ∧ w.pending = []) ∧ State.reset.Inv

/-- R20 (no value named by a rule overflows its register), R29, R34, R165, R175: every step from a state that meets the invariant ends
in a state that meets it: the stream canonical and inside `STREAM_WORDS`, every register within its width, `current_bit ≤ maxbits`
with the budget accounted for, every pending bit inside its block's region. -/
def Obligations.EveryStepKeepsTheInvariant : Prop :=
  ∀ s t : State, s.Inv → step s = .next t → t.Inv

/-- R7, R21: no step changes a parameter or the number of workers. -/
def Obligations.ParametersAndWorkerCountNeverChange : Prop :=
  ∀ s t : State, step s = .next t → t.params = s.params ∧ t.workers.length = s.workers.length

/-- R34: the phases follow one another in the order of the rule, and only `HEADER` and `PLANES` have events. -/
def Obligations.PhasesFollowTheSequence : Prop :=
  ∀ (p : Config.Params) (w : Worker), w.pending = [] →
    (match w.phase with
      | .idle => w.advance p = w
      | .setup => (w.advance p).phase = if isFloat w.kind then .exponent else .xform
      | .exponent => (w.advance p).phase = if (w.advance p).e = 0 then .done else .header
      | .header => (w.advance p).phase = .cast
      | .cast => (w.advance p).phase = .xform
      | .xform => (w.advance p).phase = .order
      | .order => (w.advance p).phase = .planes
      | .planes => (w.advance p).phase = if 0 < w.planes.bits ∧ w.planes.kmin < w.planes.k then .planes else .done
      | .done => (w.advance p).phase = .idle) ∧
    ((w.advance p).pending ≠ [] → (w.advance p).phase = .header ∨ (w.advance p).phase = .planes)

/-- R82, R85: the issue of a command to an idle worker loads its four descriptor registers and `fblk[0..BlockSize)`, sets
`phase <- SETUP`, and changes nothing else but the completion signal (log 18) and the agenda. That the cells of `fblk` at or above
`BlockSize` keep what they held is the model's inference (log 23). -/
def Obligations.IssueLoadsTheWorker : Prop :=
  ∀ (i : Instr) (s : State) (w : Worker) (rest : List Move), Accepts s w →
    (isFloat i.kind = true → OperandFinite s i.kind i.dims) →
    ∃ t w', step (s.setAgenda (.issue (encode i) :: rest)) = .next t ∧ t = (s.setWorker s.port.worker w').setAgenda rest ∧
      w' = { w with
        phase := .setup, done := false, kind := i.kind, dims := i.dims, maxbits := i.maxbits, blockIdx := i.blockIdx,
        fblk := w'.fblk, pending := [] } ∧
      (∀ j < blockSize i.dims, cell w'.fblk j = lowBits (width i.kind) (cell s.port.block j)) ∧
      ∀ j ≥ blockSize i.dims, cell w'.fblk j = cell w.fblk j

/-- R62 (first half): the events a worker owes right after the issue of a command are those of the command's listing, a function of its
descriptor and operand block alone. -/
def Obligations.IssuedWorkerOwesTheCommandsEvents : Prop :=
  ∀ (i : Instr) (s t : State) (w : Worker), issueCommand i.kind i.dims i.maxbits i.blockIdx s = .next t →
    t.workers[s.port.worker]? = some w →
    w.remaining s.params =
      commandEvents s.params i.kind i.dims i.maxbits i.blockIdx (operandBlock i.kind (blockSize i.dims) s.port.block)

/-- R62: from a state with no command in flight, after any run in which the host only issues, presents, waits and reads, in whatever
order, on whatever workers and with whatever interleaving of their steps, once no command is in flight each word of the stream is what
it was ORed with the values of all events of all the commands issued. -/
def Obligations.FinalStreamIsTheOrOfAllEvents : Prop :=
  ∀ (s t : State) (n : Nat), s.Inv → allIdle s.workers = true → (∀ mv ∈ s.agenda, mv.leavesStreamToWorkers = true) →
    (∀ ev ∈ eventsOfRun n s, ev.addr < s.params.streamWords) → Sys2Proof.core.run n s = .next t → allIdle t.workers = true →
    ∀ a, t.stream.readWord a = s.stream.readWord a ||| orAt a (eventsOfRun n s)

/-- R61, R62 (P8): two schedules of the workers that both bring every command in flight to its end leave the same stream, as data. -/
def Obligations.AnyTwoSchedulesLeaveTheSameStream : Prop :=
  ∀ (s t₁ t₂ : State) (moves₁ moves₂ : List Move), s.Inv → RemainingInRange s → IsSchedule s moves₁ → IsSchedule s moves₂ →
    runAgenda (s.setAgenda moves₁) = .next t₁ → runAgenda (s.setAgenda moves₂) = .next t₂ →
    allIdle t₁.workers = true → allIdle t₂.workers = true → t₁.stream = t₂.stream

/-- R82, R34, R60: the step that makes a whole command is the issue of its descriptor followed by so many moves of its worker, and
refused where the issue is (log 5: why it is one legal interleaving). -/
def Obligations.WholeCommandIsIssueThenWorkerMoves : Prop :=
  ∀ (i : Instr) (s : State), ∃ k,
    runAgenda (s.setAgenda (.issue (encode i) :: workerMoves s.port.worker k)) = exec i (s.setAgenda [])

/-- R286, R67: a command in flight whose events are all in range completes after finitely many moves of its worker alone, at most one
for each event and one for each action of the sequencer. What one move does is the model's choice (log 6), and so is the number 80
(log 24) and the completion bit (log 18). -/
def Obligations.CommandInFlightCompletes : Prop :=
  ∀ (s : State) (j : Nat) (w : Worker), s.Inv → s.workers[j]? = some w → w.busy = true →
    (∀ ev ∈ w.remaining s.params, ev.addr < s.params.streamWords) →
    ∃ k t, k ≤ sequencerBound + (w.remaining s.params).length ∧ runAgenda (s.setAgenda (workerMoves j k)) = .next t ∧
      WorkerDone t j ∧ t.stream = orEvents s.stream (w.remaining s.params)

/-- R35: in `DONE` every event of the command has been performed; the worker's next step signals completion and returns it to `IDLE`
with the stream as it is; and no other step raises the signal. -/
def Obligations.CompletionIsSignalledAfterTheLastEvent : Prop :=
  ∀ (s : State) (j : Nat) (w : Worker), s.Inv → s.workers[j]? = some w →
    (w.phase = .done → w.remaining s.params = [] ∧ ∃ t, s.workerStep j = some t ∧ WorkerDone t j ∧ t.stream = s.stream) ∧
    ∀ t w', s.workerStep j = some t → t.workers[j]? = some w' → w.done = false → w'.done = true → w.phase = .done

/-! ### The host's moves -/

/-- R38, R265: a reset abandons the commands in flight: every worker is `IDLE` with nothing pending and no completion signalled, the
stream is untouched, and no schedule of the workers changes it afterwards. That the port, the agenda and the reads stay (log 11) and
that a standing completion signal falls (log 18) are the model's choices. -/
def Obligations.ResetAbandonsCommandsInFlight : Prop :=
  ∀ (s : State) (rest : List Move), s.agenda = .reset :: rest →
    ∃ t, step s = .next t ∧ t.stream = s.stream ∧ t.workers.length = s.workers.length ∧
      (∀ w ∈ t.workers, w.phase = .idle ∧ w.pending = [] ∧ w.done = false) ∧
      t.params = s.params ∧ t.port = s.port ∧ t.reads = s.reads ∧ t.agenda = rest ∧
      ∀ moves u, IsSchedule t moves → runAgenda (t.setAgenda moves) = .next u → u.stream = s.stream

/-- R82, R85: what the host presents is the worker number and the leading elements of the operand space; the rest of the space, and of
the machine, is as before (log 12: the model's convention). -/
def Obligations.HostPresentLoadsThePort : Prop :=
  ∀ (s : State) (j : Nat) (block : List Word) (rest : List Move), s.agenda = .present j block :: rest → s.port.block.length = 64 →
    ∃ port, step s = .next ((s.setAgenda rest).setPort port) ∧ port.worker = j ∧ port.block.length = 64 ∧
      ∀ i < 64, cell port.block i = if i < block.length then cell block i else cell s.port.block i

/-- R90 (`HOST.ZERO`), R272: with no command in flight the first `n` words become zero and no other word changes. That it is refused
while a command is in flight (R66: no host move) and faults beyond the stream is the model's choice (log 9). -/
def Obligations.HostZeroClearsExactlyItsWords : Prop :=
  ∀ (s : State) (n : Nat) (rest : List Move), s.agenda = .zero n :: rest → s.stream.wf = true →
    (n ≤ s.params.streamWords → allIdle s.workers = true →
      ∃ t, step s = .next t ∧ t = (s.setAgenda rest).setStream t.stream ∧
        ∀ a, t.stream.readWord a = if a < n then 0 else s.stream.readWord a) ∧
    (n ≤ s.params.streamWords → allIdle s.workers = false → step s = .refused .hostWriteInFlight) ∧
    (s.params.streamWords < n → step s = .fault (.zeroOutsideStream n))

/-- R90 (`HOST.READ`): a read answers the word as it stands and changes nothing but the record of reads (log 20). That, made while
commands are in flight, it answers just what has been performed so far, one of the answers R65 allows, is the model's inference (log 21);
that a later read then sees at least what an earlier one saw is its choice (log 26), and so is that a read beyond the stream faults
(log 9). -/
def Obligations.HostReadAnswersTheWord : Prop :=
  ∀ (s : State) (a : Nat) (rest : List Move), s.agenda = .read a :: rest →
    (a < s.params.streamWords → step s = .next ((s.setAgenda rest).addRead a (s.stream.readWord a))) ∧
    (s.params.streamWords ≤ a → step s = .fault (.readOutsideStream a))

/-- R90 (`HOST.WAIT`), R35, R67: the host passes a wait exactly when no command is in flight; until then the wait stays the next move,
and a worker that has a step takes one. Which one, and what counts as waited for after a reset, is the model's choice (log 4, 10). -/
def Obligations.HostWaitHoldsUntilNoCommandIsInFlight : Prop :=
  ∀ (s : State) (rest : List Move), s.agenda = .wait :: rest →
    (allIdle s.workers = true → step s = .next (s.setAgenda rest)) ∧
    (allIdle s.workers = false → ∃ t, step s = .next t ∧ t.agenda = .wait :: rest ∧
      ((∃ j, s.workerStep j = some t) ∨ (t = s ∧ ∀ j, s.workerStep j = none)))

/-! ### The stream memory and the writer -/

/-- R56, R58: `AtomicOr` replaces one word by its OR with the value and changes no other; two of them commute as data, and one made
twice is made once. -/
def Obligations.AtomicOrIsAnIdempotentCommutingOr : Prop :=
  ∀ (m : Memory) (e₁ e₂ : Event), m.wf = true →
    (∀ a, (m.atomicOr e₁).readWord a = if a = e₁.addr then m.readWord a ||| e₁.value else m.readWord a) ∧
    (m.atomicOr e₁).atomicOr e₂ = (m.atomicOr e₂).atomicOr e₁ ∧ (m.atomicOr e₁).atomicOr e₁ = m.atomicOr e₁ ∧
    (e₁.value = 0 → m.atomicOr e₁ = m)

/-- R165: construction puts the cursor at global bit `block_idx × maxbits`, formed exactly, with `current_bit = 0`; its fields fit their
registers for every descriptor; `(0, 0, 0)` for `maxbits = 0` and for `block_idx = 0`; the example of the rule. -/
def Obligations.WriterConstructionPlacesTheBlock : Prop :=
  (∀ (b : BitVec 32) (m : BitVec 16),
    (Cursor.construct b.toNat m.toNat).wordIndex = b.toNat * m.toNat / 64 ∧
    (Cursor.construct b.toNat m.toNat).startBit = b.toNat * m.toNat % 64 ∧
    (Cursor.construct b.toNat m.toNat).currentBit = 0 ∧
    b.toNat * m.toNat < 2 ^ 48 ∧ (Cursor.construct b.toNat m.toNat).wordIndex < 2 ^ 42 ∧
    (b = 0 ∨ m = 0 → Cursor.construct b.toNat m.toNat = { wordIndex := 0, startBit := 0, currentBit := 0 })) ∧
  Cursor.construct 5 37 = { wordIndex := 2, startBit := 57, currentBit := 0 } ∧
  ∀ (p : Config.Params) (w : Worker) (m : Memory), w.phase = .setup → w.pending = [] →
    (∃ w', w.smallStep p m = some (w', m) ∧ w'.cursor = Cursor.construct w.blockIdx.toNat w.maxbits.toNat ∧ w'.pending = []) ∧
    ∀ kind dims b block, commandEvents p kind dims 0 b block = []

/-- R168: `write_bits(bits, n)` at `current_bit = c` of block `b` ORs bit `j < n` of its value into global bit `b × maxbits + c + j`, and
changes no other bit of any word. -/
def Obligations.WriteBitsPlacesItsBits : Prop :=
  ∀ (m : Memory) (b mb c n : Nat) (v : Word), m.wf = true → n ≤ 64 →
    (∀ p, (orEvents m (writeBitsEvents ((Cursor.construct b mb).forward c) v n)).globalBit p =
      (m.globalBit p || decide (b * mb + c ≤ p ∧ p < b * mb + c + n ∧ v.getLsbD (p - (b * mb + c)) = true))) ∧
    ∀ j, (b * mb + c + j) / 64 = (Cursor.construct b mb).wordIndex + ((Cursor.construct b mb).startBit + c + j) / 64 ∧
      (b * mb + c + j) % 64 = ((Cursor.construct b mb).startBit + c + j) % 64

/-- R169, R60: a window that straddles a word boundary is two events, the lower word first; any other nonempty window is one, and an
empty one none. -/
def Obligations.StraddlingWindowIsSplitInTwo : Prop :=
  ∀ (c : Cursor) (v : Word) (n : Nat), n ≤ 64 →
    (n = 0 → writeBitsEvents c v n = []) ∧
    (0 < n → c.pos % 64 + n ≤ 64 → ∃ e, writeBitsEvents c v n = [e] ∧ e.addr = c.wordIndex + c.pos / 64) ∧
    (64 < c.pos % 64 + n → ∃ e₁ e₂, writeBitsEvents c v n = [e₁, e₂] ∧ e₁.addr = c.wordIndex + c.pos / 64 ∧
      e₂.addr = e₁.addr + 1 ∧
      (∀ j < 64, e₁.value.getLsbD j = (decide (c.pos % 64 ≤ j) && v.getLsbD (j - c.pos % 64))) ∧
      ∀ j < 64, e₂.value.getLsbD j =
        (decide (j < n - (64 - c.pos % 64)) && v.getLsbD (j + (64 - c.pos % 64))))

/-! ### Negabinary, quantizer, lifting, reorder -/

/-- R112: the negabinary map is a bijection from `Int_N` onto `UInt_N` with inverse `uint_to_int`; applying the map twice to -1 gives 3
and then 7, so it is not its own inverse. -/
def Obligations.NegabinaryMapIsABijection : Prop :=
  ∀ n : Nat, n = 32 ∨ n = 64 →
    (∀ x, IsInt n x → intToUint n x < 2 ^ n ∧ uintToInt n (intToUint n x) = x) ∧
    (∀ u < 2 ^ n, IsInt n (uintToInt n u) ∧ intToUint n (uintToInt n u) = u) ∧
    intToUint n (-1) = 3 ∧ intToUint n 3 = 7

/-- R111: the image of `x` is `x` written in base -2, exactly for `x ≤ M/2` and modulo `2^N` for every `Int_N`. -/
def Obligations.NegabinaryMapIsBaseMinusTwo : Prop :=
  ∀ (n : Nat) (x : Int), n = 32 ∨ n = 64 → IsInt n x →
    let sum : Int := ((List.range n).map (fun j => if (intToUint n x).testBit j then (-2 : Int) ^ j else 0)).sum
    (sum - x) % 2 ^ n = 0 ∧ (2 * x ≤ negabinaryMask n → sum = x)

/-- R121: `exponent` of a magnitude is `floor(log2 x) + EOFF` with `EOFF = 1`, clamped below at `1 - EBIAS`, and `-EBIAS` for 0; the
corner cases and the example of the rule. -/
def Obligations.ExponentIsClampedFloorLogPlusOne : Prop :=
  ∀ (kind : Kind) (p : Word), isFloat kind = true → isFiniteScalar kind p = true →
    exponentOf kind p =
      (if 0 < |scalarValue kind p| then max (Int.log 2 |scalarValue kind p| + 1) (1 - ebias kind) else -ebias kind) ∧
    (scalarValue kind p ≠ 0 → exponentField kind p = 0 → exponentOf kind p = 1 - ebias kind) ∧
    exponentOf .f32 0x00800000 = 2 - 127 ∧ exponentOf .f64 0x0010000000000000 = 2 - 1023 ∧
    exponentOf .f32 0x7F7FFFFF = 128 ∧ exponentOf .f64 0x7FEFFFFFFFFFFFFF = 1024 ∧ exponentOf .f64 0x3FF0000000000000 = 1

/-- R124: `max_exponent` is `exponent` of the largest magnitude of the block, whatever the signs; `-EBIAS` for a block of zeros; it is
what phase `EXPONENT` of a float command leaves in `emax`; the example of the rule. -/
def Obligations.EmaxIsExponentOfTheLargestMagnitude : Prop :=
  ∀ (kind : Kind) (block : List Word), isFloat kind = true → isFiniteBlock kind block = true → block ≠ [] →
    (∃ p ∈ block, (∀ q ∈ block, |scalarValue kind q| ≤ |scalarValue kind p|) ∧ maxExponent kind block = exponentOf kind p) ∧
    ((∀ p ∈ block, scalarValue kind p = 0) → maxExponent kind block = -ebias kind) ∧
    (∀ (pr : Config.Params) (w : Worker), w.phase = .exponent →
      (w.advance pr).emax = maxExponent w.kind (blockCells (blockSize w.dims) w.fblk)) ∧
    maxExponent .f32 [0x3F800000, 0x3F000000, 0xBE800000, 0x00000000] = 1

/-- R123: the ranges of `exponent`, of `emax + EBIAS` for zero, denormal and normal maxima, and of the header value. -/
def Obligations.BiasedExponentAndHeaderFitTheirFields : Prop :=
  ∀ (kind : Kind) (block : List Word), isFloat kind = true → isFiniteBlock kind block = true → block ≠ [] →
    (∀ p ∈ block, exponentOf kind p = -ebias kind ∨ (1 - ebias kind ≤ exponentOf kind p ∧ exponentOf kind p ≤ ebias kind + 1)) ∧
    ((∀ p ∈ block, magnitudeField kind p = 0) → maxExponent kind block + ebias kind = 0) ∧
    ((∃ p ∈ block, magnitudeField kind p ≠ 0) → (∀ p ∈ block, exponentField kind p = 0) →
      maxExponent kind block + ebias kind = 1) ∧
    (∀ p ∈ block, exponentField kind p ≠ 0 → (∀ q ∈ block, exponentField kind q ≤ exponentField kind p) →
      maxExponent kind block + ebias kind = exponentField kind p + 1 ∧
      2 ≤ maxExponent kind block + ebias kind ∧ maxExponent kind block + ebias kind ≤ 2 ^ ebits kind - 1) ∧
    2 * (maxExponent kind block + ebias kind) + 1 ≤ 2 ^ (ebits kind + 1) - 1

/-- R209: under the default parameters `maxprec` is 32 for every F32 block; for F64 it is 64 from `emax = -1018` on, and `emax + 1082`,
59 to 63, below that. -/
def Obligations.MaxprecUnderTheDefaultParameters : Prop :=
  ∀ (kind : Kind) (block : List Word), isFloat kind = true → isFiniteBlock kind block = true →
    let maxprec := commandPrecision Config.Params.atReset kind block
    let emax := maxExponent kind block
    (kind = .f32 → maxprec = 32) ∧
    (kind = .f64 → -1018 ≤ emax → maxprec = 64) ∧
    (kind = .f64 → emax < -1018 → (maxprec : Int) = emax + 1082 ∧ 59 ≤ maxprec ∧ maxprec ≤ 63)

/-- R130: the cast of a scalar is `trunc(val × 2^(N-2-emax))`, computed exactly, for every `emax`; phase `CAST` leaves it in `iblk`, cell
by cell, for the block's `emax`; the example of the rule. -/
def Obligations.CastIsTheExactProductTruncated : Prop :=
  ∀ (kind : Kind) (emax : Int) (p : Word), isFloat kind = true → isFiniteScalar kind p = true →
    castScalar kind emax p = truncate (scalarValue kind p * 2 ^ ((width kind : Int) - 2 - emax)) ∧
    (∀ (pr : Config.Params) (w : Worker), isFloat w.kind = true → w.phase = .cast →
      isFiniteBlock w.kind (blockCells (blockSize w.dims) w.fblk) = true →
      w.emax = maxExponent w.kind (blockCells (blockSize w.dims) w.fblk) →
      ∀ j < blockSize w.dims, intOfCell w.kind (cell (w.advance pr).iblk j) =
        truncate (scalarValue w.kind (cell w.fblk j) * 2 ^ ((width w.kind : Int) - 2 - w.emax))) ∧
    ([0x3F800000, 0x3F000000, 0xBE800000, 0x00000000] : List Word).map (castScalar .f32 1) =
      [536870912, 268435456, -134217728, 0]

/-- R132: for every finite block and every scalar of it the cast lies strictly between `-2^(N-2)` and `2^(N-2)`. -/
def Obligations.CastLeavesTwoHeadroomBits : Prop :=
  ∀ (kind : Kind) (block : List Word), isFloat kind = true → isFiniteBlock kind block = true →
    ∀ p ∈ block, -2 ^ (width kind - 2) < castScalar kind (maxExponent kind block) p ∧
      castScalar kind (maxExponent kind block) p < 2 ^ (width kind - 2)

/-- R140, R147: a lift stores `(w, z, y, x)` along its stride and touches no other cell. -/
def Obligations.LiftStoresReversedAndTouchesFourCells : Prop :=
  ∀ (n p s : Nat) (l : List Int), 0 < s → p + 3 * s < l.length →
    let q := liftSteps n { x := l.getD p 0, y := l.getD (p + s) 0, z := l.getD (p + 2 * s) 0, w := l.getD (p + 3 * s) 0 }
    (fwdLift n l p s).getD p 0 = q.w ∧ (fwdLift n l p s).getD (p + s) 0 = q.z ∧ (fwdLift n l p s).getD (p + 2 * s) 0 = q.y ∧
    (fwdLift n l p s).getD (p + 3 * s) 0 = q.x ∧ (fwdLift n l p s).length = l.length ∧
    ∀ j, j ≠ p → j ≠ p + s → j ≠ p + 2 * s → j ≠ p + 3 * s → (fwdLift n l p s).getD j 0 = l.getD j 0

/-- R144: `inv_lift` undoes `fwd_lift` whenever the four sums it halves are all even, for all `Int_N`. -/
def Obligations.LiftIsUndoneWhenItsSumsAreEven : Prop :=
  ∀ (n : Nat) (q : Quad), n = 32 ∨ n = 64 → IsInt n q.x → IsInt n q.y → IsInt n q.z → IsInt n q.w →
    (∀ v ∈ liftHalvedSums n q, v % 2 = 0) → unliftSteps n (liftSteps n q) = q

/-- R149, R142: the transform of a constant block of small magnitude is that constant at index `BlockSize - 1`, the DC corner, and 0
elsewhere. -/
def Obligations.TransformOfAConstantBlockIsDCOnly : Prop :=
  ∀ (n d : Nat) (a : Int), n = 32 ∨ n = 64 → d = 1 ∨ d = 2 ∨ d = 3 → -2 ^ (n - 2) < a → a < 2 ^ (n - 2) →
    fwdXform n d (List.replicate (4 ^ d) a) = List.replicate (4 ^ d - 1) 0 ++ [a]

/-- R157: each table is a permutation of `0..BlockSize-1`, begins at the DC corner, and never descends in total sequency. -/
def Obligations.TablesArePermutationsInSequencyOrder : Prop :=
  ∀ d : Nat, d = 1 ∨ d = 2 ∨ d = 3 →
    (permutation d).Perm (List.range (4 ^ d)) ∧ (permutation d).head? = some (4 ^ d - 1) ∧
    ((permutation d).map (totalSequency d)).Pairwise (· ≤ ·)

/-! ### The bit-plane code -/

/-- R92: a float block with `e = 0` has no bits; any other begins with the header, a 1 and then the `EBITS` bits of
`e = emax + EBIAS`, least significant first, cut at `maxbits`; the bit-plane code follows at bit `EBITS + 1` with what is left of the
budget. -/
def Obligations.FloatCodeIsHeaderThenPlanes : Prop :=
  ∀ (p : Config.Params) (kind : Kind) (dims : BitVec 2) (maxbits : Nat) (block : List Word),
    isFloat kind = true → isFiniteBlock kind block = true →
    let e := commandExponent p kind block
    (e = 0 → commandBits p kind dims maxbits block = []) ∧
    (e ≠ 0 → (e : Int) = maxExponent kind block + ebias kind ∧ e < 2 ^ ebits kind ∧ (headerCode kind e).length = ebits kind + 1 ∧
      commandBits p kind dims maxbits block = (headerCode kind e).take maxbits ++
        (encodeInts (width kind) (blockSize dims) (reorderedBlock kind dims (integerBlock kind block)) (maxbits - (ebits kind + 1))
          (commandPrecision p kind block)).flatMap Call.written)

/-- R94, R197 (b), (c), (d): one plane is coded as the raw bits of the significant prefix followed by its groups, cut at the budget. -/
def Obligations.PlaneCodeIsRawBitsThenGroups : Prop :=
  ∀ (size : Nat) (ublk : List Word) (r : PlaneRegs), size ≤ 64 → r.n ≤ size →
    (codePlane size ublk r).2.flatMap Call.written = (planeCode size (r.k - 1) r.n ublk).take r.bits

/-- R193: for one block and one `maxprec` there is one bit sequence of which the code under any budget is the first `budget` bits. -/
def Obligations.CodeUnderABudgetIsAPrefix : Prop :=
  ∀ (n size maxprec : Nat) (ublk : List Word), size ≤ 64 →
    ∃ full : List Bool, ∀ budget, (encodeInts n size ublk budget maxprec).flatMap Call.written = full.take budget

/-- R96 (P7): the bits a command writes with budget `maxbits` are the first `maxbits` bits of one sequence, header included. -/
def Obligations.CommandBitsAreAPrefix : Prop :=
  ∀ (p : Config.Params) (kind : Kind) (dims : BitVec 2) (block : List Word),
    ∃ full : List Bool, ∀ maxbits, commandBits p kind dims maxbits block = full.take maxbits

/-- R192, R195: the plane loop spends its budget bit for bit and never below zero, writes nothing with no budget or no precision, and a
command writes at most `maxbits` bits. -/
def Obligations.CodeSpendsItsBudgetExactly : Prop :=
  (∀ (size fuel : Nat) (ublk : List Word) (r : PlaneRegs),
    (planeLoop size ublk fuel r).1.bits + ((planeLoop size ublk fuel r).2.flatMap Call.written).length = r.bits) ∧
  (∀ (n size budget maxprec : Nat) (ublk : List Word), budget = 0 ∨ maxprec = 0 → encodeInts n size ublk budget maxprec = []) ∧
  ∀ (p : Config.Params) (kind : Kind) (dims : BitVec 2) (maxbits : Nat) (block : List Word),
    (commandBits p kind dims maxbits block).length ≤ maxbits

/-- R187: bit `i` of the plane register is bit `k` of coefficient `i`, and bits at or above `BlockSize` are 0. -/
def Obligations.PlaneWordHoldsTheKthBits : Prop :=
  ∀ (size k i : Nat) (ublk : List Word), size ≤ 64 →
    (planeWord size k ublk).getLsbD i = (decide (i < size) && (cell ublk i).getLsbD k)
end

