-- ==== Sys2Proof/Laws/State.lean ====
section
/-! SUPPORT. One lemma per field per named update of the state and of a worker, so that no later proof unfolds a record update. -/

namespace Sys2Proof.Machine

@[simp] theorem State.setWorkers_params (s : State) (ws : List Worker) : (s.setWorkers ws).params = s.params := rfl
@[simp] theorem State.setWorkers_stream (s : State) (ws : List Worker) : (s.setWorkers ws).stream = s.stream := rfl
@[simp] theorem State.setWorkers_workers (s : State) (ws : List Worker) : (s.setWorkers ws).workers = ws := rfl
@[simp] theorem State.setWorkers_port (s : State) (ws : List Worker) : (s.setWorkers ws).port = s.port := rfl
@[simp] theorem State.setWorkers_agenda (s : State) (ws : List Worker) : (s.setWorkers ws).agenda = s.agenda := rfl
@[simp] theorem State.setWorkers_reads (s : State) (ws : List Worker) : (s.setWorkers ws).reads = s.reads := rfl

@[simp] theorem State.setStream_params (s : State) (m : Memory) : (s.setStream m).params = s.params := rfl
@[simp] theorem State.setStream_stream (s : State) (m : Memory) : (s.setStream m).stream = m := rfl
@[simp] theorem State.setStream_workers (s : State) (m : Memory) : (s.setStream m).workers = s.workers := rfl
@[simp] theorem State.setStream_port (s : State) (m : Memory) : (s.setStream m).port = s.port := rfl
@[simp] theorem State.setStream_agenda (s : State) (m : Memory) : (s.setStream m).agenda = s.agenda := rfl
@[simp] theorem State.setStream_reads (s : State) (m : Memory) : (s.setStream m).reads = s.reads := rfl

@[simp] theorem State.setPort_params (s : State) (p : Port) : (s.setPort p).params = s.params := rfl
@[simp] theorem State.setPort_stream (s : State) (p : Port) : (s.setPort p).stream = s.stream := rfl
@[simp] theorem State.setPort_workers (s : State) (p : Port) : (s.setPort p).workers = s.workers := rfl
@[simp] theorem State.setPort_port (s : State) (p : Port) : (s.setPort p).port = p := rfl
@[simp] theorem State.setPort_agenda (s : State) (p : Port) : (s.setPort p).agenda = s.agenda := rfl
@[simp] theorem State.setPort_reads (s : State) (p : Port) : (s.setPort p).reads = s.reads := rfl

@[simp] theorem State.setAgenda_params (s : State) (a : List Move) : (s.setAgenda a).params = s.params := rfl
@[simp] theorem State.setAgenda_stream (s : State) (a : List Move) : (s.setAgenda a).stream = s.stream := rfl
@[simp] theorem State.setAgenda_workers (s : State) (a : List Move) : (s.setAgenda a).workers = s.workers := rfl
@[simp] theorem State.setAgenda_port (s : State) (a : List Move) : (s.setAgenda a).port = s.port := rfl
@[simp] theorem State.setAgenda_agenda (s : State) (a : List Move) : (s.setAgenda a).agenda = a := rfl
@[simp] theorem State.setAgenda_reads (s : State) (a : List Move) : (s.setAgenda a).reads = s.reads := rfl

@[simp] theorem State.setWorker_params (s : State) (i : Nat) (w : Worker) : (s.setWorker i w).params = s.params := rfl
@[simp] theorem State.setWorker_stream (s : State) (i : Nat) (w : Worker) : (s.setWorker i w).stream = s.stream := rfl
@[simp] theorem State.setWorker_workers (s : State) (i : Nat) (w : Worker) : (s.setWorker i w).workers = s.workers.set i w := rfl
@[simp] theorem State.setWorker_port (s : State) (i : Nat) (w : Worker) : (s.setWorker i w).port = s.port := rfl
@[simp] theorem State.setWorker_agenda (s : State) (i : Nat) (w : Worker) : (s.setWorker i w).agenda = s.agenda := rfl
@[simp] theorem State.setWorker_reads (s : State) (i : Nat) (w : Worker) : (s.setWorker i w).reads = s.reads := rfl

@[simp] theorem State.addRead_params (s : State) (addr : Nat) (w : Word) : (s.addRead addr w).params = s.params := rfl
@[simp] theorem State.addRead_stream (s : State) (addr : Nat) (w : Word) : (s.addRead addr w).stream = s.stream := rfl
@[simp] theorem State.addRead_workers (s : State) (addr : Nat) (w : Word) : (s.addRead addr w).workers = s.workers := rfl
@[simp] theorem State.addRead_port (s : State) (addr : Nat) (w : Word) : (s.addRead addr w).port = s.port := rfl
@[simp] theorem State.addRead_agenda (s : State) (addr : Nat) (w : Word) : (s.addRead addr w).agenda = s.agenda := rfl
@[simp] theorem State.addRead_reads (s : State) (addr : Nat) (w : Word) : (s.addRead addr w).reads = s.reads ++ [(addr, w)] := rfl

@[simp] theorem Worker.enter_phase (w : Worker) (ph : Phase) :
    (w.enter ph).phase = ph := rfl
@[simp] theorem Worker.enter_done (w : Worker) (ph : Phase) :
    (w.enter ph).done = w.done := rfl
@[simp] theorem Worker.enter_kind (w : Worker) (ph : Phase) :
    (w.enter ph).kind = w.kind := rfl
@[simp] theorem Worker.enter_dims (w : Worker) (ph : Phase) :
    (w.enter ph).dims = w.dims := rfl
@[simp] theorem Worker.enter_maxbits (w : Worker) (ph : Phase) :
    (w.enter ph).maxbits = w.maxbits := rfl
@[simp] theorem Worker.enter_blockIdx (w : Worker) (ph : Phase) :
    (w.enter ph).blockIdx = w.blockIdx := rfl
@[simp] theorem Worker.enter_fblk (w : Worker) (ph : Phase) :
    (w.enter ph).fblk = w.fblk := rfl
@[simp] theorem Worker.enter_iblk (w : Worker) (ph : Phase) :
    (w.enter ph).iblk = w.iblk := rfl
@[simp] theorem Worker.enter_ublk (w : Worker) (ph : Phase) :
    (w.enter ph).ublk = w.ublk := rfl
@[simp] theorem Worker.enter_emax (w : Worker) (ph : Phase) :
    (w.enter ph).emax = w.emax := rfl
@[simp] theorem Worker.enter_maxprec (w : Worker) (ph : Phase) :
    (w.enter ph).maxprec = w.maxprec := rfl
@[simp] theorem Worker.enter_e (w : Worker) (ph : Phase) :
    (w.enter ph).e = w.e := rfl
@[simp] theorem Worker.enter_cursor (w : Worker) (ph : Phase) :
    (w.enter ph).cursor = w.cursor := rfl
@[simp] theorem Worker.enter_planes (w : Worker) (ph : Phase) :
    (w.enter ph).planes = w.planes := rfl
@[simp] theorem Worker.enter_pending (w : Worker) (ph : Phase) :
    (w.enter ph).pending = w.pending := rfl

@[simp] theorem Worker.signalDone_phase (w : Worker) :
    w.signalDone.phase = .idle := rfl
@[simp] theorem Worker.signalDone_done (w : Worker) :
    w.signalDone.done = true := rfl
@[simp] theorem Worker.signalDone_kind (w : Worker) :
    w.signalDone.kind = w.kind := rfl
@[simp] theorem Worker.signalDone_dims (w : Worker) :
    w.signalDone.dims = w.dims := rfl
@[simp] theorem Worker.signalDone_maxbits (w : Worker) :
    w.signalDone.maxbits = w.maxbits := rfl
@[simp] theorem Worker.signalDone_blockIdx (w : Worker) :
    w.signalDone.blockIdx = w.blockIdx := rfl
@[simp] theorem Worker.signalDone_fblk (w : Worker) :
    w.signalDone.fblk = w.fblk := rfl
@[simp] theorem Worker.signalDone_iblk (w : Worker) :
    w.signalDone.iblk = w.iblk := rfl
@[simp] theorem Worker.signalDone_ublk (w : Worker) :
    w.signalDone.ublk = w.ublk := rfl
@[simp] theorem Worker.signalDone_emax (w : Worker) :
    w.signalDone.emax = w.emax := rfl
@[simp] theorem Worker.signalDone_maxprec (w : Worker) :
    w.signalDone.maxprec = w.maxprec := rfl
@[simp] theorem Worker.signalDone_e (w : Worker) :
    w.signalDone.e = w.e := rfl
@[simp] theorem Worker.signalDone_cursor (w : Worker) :
    w.signalDone.cursor = w.cursor := rfl
@[simp] theorem Worker.signalDone_planes (w : Worker) :
    w.signalDone.planes = w.planes := rfl
@[simp] theorem Worker.signalDone_pending (w : Worker) :
    w.signalDone.pending = w.pending := rfl

@[simp] theorem Worker.callWriter_phase (w : Worker) (calls : List Call) :
    (w.callWriter calls).phase = w.phase := rfl
@[simp] theorem Worker.callWriter_done (w : Worker) (calls : List Call) :
    (w.callWriter calls).done = w.done := rfl
@[simp] theorem Worker.callWriter_kind (w : Worker) (calls : List Call) :
    (w.callWriter calls).kind = w.kind := rfl
@[simp] theorem Worker.callWriter_dims (w : Worker) (calls : List Call) :
    (w.callWriter calls).dims = w.dims := rfl
@[simp] theorem Worker.callWriter_maxbits (w : Worker) (calls : List Call) :
    (w.callWriter calls).maxbits = w.maxbits := rfl
@[simp] theorem Worker.callWriter_blockIdx (w : Worker) (calls : List Call) :
    (w.callWriter calls).blockIdx = w.blockIdx := rfl
@[simp] theorem Worker.callWriter_fblk (w : Worker) (calls : List Call) :
    (w.callWriter calls).fblk = w.fblk := rfl
@[simp] theorem Worker.callWriter_iblk (w : Worker) (calls : List Call) :
    (w.callWriter calls).iblk = w.iblk := rfl
@[simp] theorem Worker.callWriter_ublk (w : Worker) (calls : List Call) :
    (w.callWriter calls).ublk = w.ublk := rfl
@[simp] theorem Worker.callWriter_emax (w : Worker) (calls : List Call) :
    (w.callWriter calls).emax = w.emax := rfl
@[simp] theorem Worker.callWriter_maxprec (w : Worker) (calls : List Call) :
    (w.callWriter calls).maxprec = w.maxprec := rfl
@[simp] theorem Worker.callWriter_e (w : Worker) (calls : List Call) :
    (w.callWriter calls).e = w.e := rfl
@[simp] theorem Worker.callWriter_cursor (w : Worker) (calls : List Call) :
    (w.callWriter calls).cursor = cursorAfter w.cursor calls := rfl
@[simp] theorem Worker.callWriter_planes (w : Worker) (calls : List Call) :
    (w.callWriter calls).planes = w.planes := rfl
@[simp] theorem Worker.callWriter_pending (w : Worker) (calls : List Call) :
    (w.callWriter calls).pending = w.pending ++ callEvents w.cursor calls := rfl

@[simp] theorem Worker.load_phase (w : Worker) (kind : Kind) (dims : BitVec 2) (maxbits : BitVec 16) (blockIdx : BitVec 32) (space : List Word) :
    (w.load kind dims maxbits blockIdx space).phase = .setup := rfl
@[simp] theorem Worker.load_done (w : Worker) (kind : Kind) (dims : BitVec 2) (maxbits : BitVec 16) (blockIdx : BitVec 32) (space : List Word) :
    (w.load kind dims maxbits blockIdx space).done = false := rfl
@[simp] theorem Worker.load_kind (w : Worker) (kind : Kind) (dims : BitVec 2) (maxbits : BitVec 16) (blockIdx : BitVec 32) (space : List Word) :
    (w.load kind dims maxbits blockIdx space).kind = kind := rfl
@[simp] theorem Worker.load_dims (w : Worker) (kind : Kind) (dims : BitVec 2) (maxbits : BitVec 16) (blockIdx : BitVec 32) (space : List Word) :
    (w.load kind dims maxbits blockIdx space).dims = dims := rfl
@[simp] theorem Worker.load_maxbits (w : Worker) (kind : Kind) (dims : BitVec 2) (maxbits : BitVec 16) (blockIdx : BitVec 32) (space : List Word) :
    (w.load kind dims maxbits blockIdx space).maxbits = maxbits := rfl
@[simp] theorem Worker.load_blockIdx (w : Worker) (kind : Kind) (dims : BitVec 2) (maxbits : BitVec 16) (blockIdx : BitVec 32) (space : List Word) :
    (w.load kind dims maxbits blockIdx space).blockIdx = blockIdx := rfl
@[simp] theorem Worker.load_fblk (w : Worker) (kind : Kind) (dims : BitVec 2) (maxbits : BitVec 16) (blockIdx : BitVec 32) (space : List Word) :
    (w.load kind dims maxbits blockIdx space).fblk = rewriteFile (operandBlock kind (blockSize dims) space) w.fblk := rfl
@[simp] theorem Worker.load_iblk (w : Worker) (kind : Kind) (dims : BitVec 2) (maxbits : BitVec 16) (blockIdx : BitVec 32) (space : List Word) :
    (w.load kind dims maxbits blockIdx space).iblk = w.iblk := rfl
@[simp] theorem Worker.load_ublk (w : Worker) (kind : Kind) (dims : BitVec 2) (maxbits : BitVec 16) (blockIdx : BitVec 32) (space : List Word) :
    (w.load kind dims maxbits blockIdx space).ublk = w.ublk := rfl
@[simp] theorem Worker.load_emax (w : Worker) (kind : Kind) (dims : BitVec 2) (maxbits : BitVec 16) (blockIdx : BitVec 32) (space : List Word) :
    (w.load kind dims maxbits blockIdx space).emax = w.emax := rfl
@[simp] theorem Worker.load_maxprec (w : Worker) (kind : Kind) (dims : BitVec 2) (maxbits : BitVec 16) (blockIdx : BitVec 32) (space : List Word) :
    (w.load kind dims maxbits blockIdx space).maxprec = w.maxprec := rfl
@[simp] theorem Worker.load_e (w : Worker) (kind : Kind) (dims : BitVec 2) (maxbits : BitVec 16) (blockIdx : BitVec 32) (space : List Word) :
    (w.load kind dims maxbits blockIdx space).e = w.e := rfl
@[simp] theorem Worker.load_cursor (w : Worker) (kind : Kind) (dims : BitVec 2) (maxbits : BitVec 16) (blockIdx : BitVec 32) (space : List Word) :
    (w.load kind dims maxbits blockIdx space).cursor = w.cursor := rfl
@[simp] theorem Worker.load_planes (w : Worker) (kind : Kind) (dims : BitVec 2) (maxbits : BitVec 16) (blockIdx : BitVec 32) (space : List Word) :
    (w.load kind dims maxbits blockIdx space).planes = w.planes := rfl
@[simp] theorem Worker.load_pending (w : Worker) (kind : Kind) (dims : BitVec 2) (maxbits : BitVec 16) (blockIdx : BitVec 32) (space : List Word) :
    (w.load kind dims maxbits blockIdx space).pending = [] := rfl

@[simp] theorem Cursor.forward_wordIndex (c : Cursor) (n : Nat) : (c.forward n).wordIndex = c.wordIndex := rfl
@[simp] theorem Cursor.forward_startBit (c : Cursor) (n : Nat) : (c.forward n).startBit = c.startBit := rfl
@[simp] theorem Cursor.forward_currentBit (c : Cursor) (n : Nat) : (c.forward n).currentBit = c.currentBit + n := rfl

@[simp] theorem Coder.spend_n (c : Coder) : c.spend.n = c.n := rfl
@[simp] theorem Coder.spend_bits (c : Coder) : c.spend.bits = c.bits - 1 := rfl
@[simp] theorem Coder.spend_x (c : Coder) : c.spend.x = c.x := rfl
@[simp] theorem Coder.stepOver_n (c : Coder) : c.stepOver.n = c.n + 1 := rfl
@[simp] theorem Coder.stepOver_bits (c : Coder) : c.stepOver.bits = c.bits := rfl
@[simp] theorem Coder.stepOver_x (c : Coder) : c.stepOver.x = c.x >>> 1 := rfl
@[simp] theorem Coder.afterRaw_n (c : Coder) : c.afterRaw.n = c.n := rfl
@[simp] theorem Coder.afterRaw_bits (c : Coder) : c.afterRaw.bits = c.bits - c.rawCount := rfl
@[simp] theorem Coder.afterRaw_x (c : Coder) : c.afterRaw.x = writeBitsRest c.x c.rawCount := rfl

end Sys2Proof.Machine
end

