-- ==== Sys2Proof/Laws/Driver.lean ====
section
/-! SUPPORT. What the shared operations of the driver can do, said once: a worker's small step, the issue of a command, a whole
command, the coding loops. -/

namespace Sys2Proof.Machine

@[simp] theorem Worker.busy_iff (w : Worker) : w.busy = true ↔ w.phase ≠ .idle := by simp [Worker.busy]

@[simp] theorem Worker.not_busy_iff (w : Worker) : w.busy = false ↔ w.phase = .idle := by simp [Worker.busy]

/-! ### The writer -/

theorem cursorAfter_cons (c : Cursor) (call : Call) (calls : List Call) :
    cursorAfter c (call :: calls) = cursorAfter (c.forward call.length) calls := rfl

theorem cursorAfter_append (c : Cursor) (a b : List Call) : cursorAfter c (a ++ b) = cursorAfter (cursorAfter c a) b := by
  simp [cursorAfter]

/-- The cursor after calls: only `current_bit` moves, by the number of bits asked for (R176). -/
theorem cursorAfter_eq (c : Cursor) (calls : List Call) :
    cursorAfter c calls = { c with currentBit := c.currentBit + (calls.map Call.length).sum } := by
  induction calls generalizing c with
  | nil => simp [cursorAfter]
  | cons call calls ih => rw [cursorAfter_cons, ih]; simp [Cursor.forward, Nat.add_assoc]

theorem callEvents_append (c : Cursor) (a b : List Call) :
    callEvents c (a ++ b) = callEvents c a ++ callEvents (cursorAfter c a) b := by
  induction a generalizing c with
  | nil => rfl
  | cons call a ih => simp [callEvents, cursorAfter_cons, ih]

theorem Call.length_written (call : Call) : call.written.length = call.length := by
  cases call <;> simp [Call.written, Call.length]

/-! ### The loops of the bit-plane encoder -/

/-- What the unary loop can do to the counters: the prefix grows, never past `BlockSize - 1` if it was not past it, and each bit
written is paid for (R191, R192). -/
theorem unaryLoop_counts (size fuel : Nat) (c : Coder) :
    c.n ≤ (unaryLoop size fuel c).1.n ∧ (unaryLoop size fuel c).1.n ≤ max c.n (size - 1) ∧
      (unaryLoop size fuel c).1.bits + ((unaryLoop size fuel c).2.map Call.length).sum = c.bits := by
  induction fuel generalizing c with
  | zero => simp [unaryLoop]
  | succ fuel ih =>
    rw [unaryLoop]
    split_ifs with h h1
    · simp [Call.length]; omega
    · obtain ⟨h2, h3, h4⟩ := ih c.spend.stepOver
      simp only [Coder.stepOver_n, Coder.stepOver_bits, Coder.spend_n, Coder.spend_bits] at h2 h3 h4
      simp only [List.map_cons, List.sum_cons, Call.length]
      omega
    · simp

/-- What the group-test loop can do to the counters (R186, R190, R192). -/
theorem groupLoop_counts (size fuel : Nat) (c : Coder) :
    c.n ≤ (groupLoop size fuel c).1.n ∧ (groupLoop size fuel c).1.n ≤ max c.n size ∧
      (groupLoop size fuel c).1.bits + ((groupLoop size fuel c).2.map Call.length).sum = c.bits := by
  induction fuel generalizing c with
  | zero => simp [groupLoop]
  | succ fuel ih =>
    rw [groupLoop]
    split_ifs with h h1
    · simp [Call.length]; omega
    · obtain ⟨h2, h3, h4⟩ := ih (unaryLoop size size c.spend).1.stepOver
      obtain ⟨h5, h6, h7⟩ := unaryLoop_counts size size c.spend
      simp only [Coder.stepOver_n, Coder.stepOver_bits, Coder.spend_n, Coder.spend_bits] at h2 h3 h4 h5 h6 h7
      simp only [List.map_cons, List.sum_cons, List.map_append, List.sum_append, Call.length]
      omega
    · simp

/-- What one plane can do to the counters (R186, R192). -/
theorem codePlane_counts (size : Nat) (ublk : List Word) (p : PlaneRegs) :
    (codePlane size ublk p).1.k = p.k - 1 ∧ (codePlane size ublk p).1.kmin = p.kmin ∧ p.n ≤ (codePlane size ublk p).1.n ∧
      (codePlane size ublk p).1.n ≤ max p.n size ∧
      (codePlane size ublk p).1.bits + ((codePlane size ublk p).2.map Call.length).sum = p.bits := by
  obtain ⟨h1, h2, h3⟩ := groupLoop_counts size size (p.coder size ublk).afterRaw
  have h4 : (p.coder size ublk).rawCount ≤ p.bits := Nat.min_le_right _ _
  simp only [Coder.afterRaw_n, Coder.afterRaw_bits, PlaneRegs.coder] at h1 h2 h3 h4
  refine ⟨rfl, rfl, h1, h2, ?_⟩
  simp only [codePlane, List.map_cons, List.sum_cons, Call.length, PlaneRegs.coder]
  omega

/-! ### Sequencing -/

theorem Worker.advance_setup {p : Config.Params} {w : Worker} (h : w.phase = .setup) : w.advance p = setupPhase w := by
  simp [Worker.advance, h]

theorem Worker.advance_exponent {p : Config.Params} {w : Worker} (h : w.phase = .exponent) :
    w.advance p = exponentPhase p w := by simp [Worker.advance, h]

theorem Worker.advance_header {p : Config.Params} {w : Worker} (h : w.phase = .header) : w.advance p = w.enter .cast := by
  simp [Worker.advance, h]

theorem Worker.advance_cast {p : Config.Params} {w : Worker} (h : w.phase = .cast) : w.advance p = castPhase w := by
  simp [Worker.advance, h]

theorem Worker.advance_xform {p : Config.Params} {w : Worker} (h : w.phase = .xform) : w.advance p = xformPhase w := by
  simp [Worker.advance, h]

theorem Worker.advance_order {p : Config.Params} {w : Worker} (h : w.phase = .order) : w.advance p = orderPhase w := by
  simp [Worker.advance, h]

theorem Worker.advance_planes {p : Config.Params} {w : Worker} (h : w.phase = .planes) : w.advance p = planesPhase w := by
  simp [Worker.advance, h]

theorem Worker.advance_done {p : Config.Params} {w : Worker} (h : w.phase = .done) : w.advance p = w.signalDone := by
  simp [Worker.advance, h]

/-- All that a small step of a worker can do: the sequencer acts, with nothing pending and the stream untouched, or the first pending
event, one the stream memory admits, is performed (R34, R54). -/
theorem Worker.smallStep_cases {p : Config.Params} {w w' : Worker} {m m' : Memory} (h : w.smallStep p m = some (w', m')) :
    w.busy = true ∧
      ((w.pending = [] ∧ w' = w.advance p ∧ m' = m) ∨
        ∃ ev evs, w.pending = ev :: evs ∧ ev.addr < p.streamWords ∧ w' = { w with pending := evs } ∧ m' = m.atomicOr ev) := by
  rw [Worker.smallStep] at h
  split at h
  · rename_i hb
    refine ⟨hb, ?_⟩
    split at h
    · rename_i hp
      simp only [Option.some.injEq, Prod.mk.injEq] at h
      exact .inl ⟨hp, h.1.symm, h.2.symm⟩
    · rename_i ev evs hp
      split at h
      · rename_i ha
        simp only [Option.some.injEq, Prod.mk.injEq] at h
        exact .inr ⟨ev, evs, hp, ha, h.1.symm, h.2.symm⟩
      · cases h
  · cases h

/-- When a worker has no step: it is idle, or stuck at an event out of range (R20, R54, R243). -/
theorem Worker.smallStep_none {p : Config.Params} {w : Worker} {m : Memory} :
    w.smallStep p m = none ↔ w.busy = false ∨ ∃ ev ∈ w.pending.head?, p.streamWords ≤ ev.addr := by
  rw [Worker.smallStep]
  cases hb : w.busy <;> cases hp : w.pending <;> simp

/-- One unfolding of a worker's run while it is busy and all its pending events are in range. -/
theorem Worker.run_succ_of_inRange {p : Config.Params} {w : Worker} {m : Memory} {fuel : Nat} (hb : w.busy = true)
    (hp : (performEvents p.streamWords w.pending m).2 = []) :
    w.run p (fuel + 1) m = Worker.run p fuel ({ w with pending := [] }.advance p) (performEvents p.streamWords w.pending m).1 := by
  rw [Worker.run, if_pos hb, if_pos hp]

theorem Worker.run_idle {p : Config.Params} {w : Worker} {m : Memory} {fuel : Nat} (hb : w.busy = false) :
    w.run p fuel m = (w, m) := by
  cases fuel <;> simp [Worker.run, hb]

/-- All that the issue of a command can do (R82, R242). -/
theorem issueCommand_next {kind : Kind} {dims : BitVec 2} {maxbits : BitVec 16} {blockIdx : BitVec 32} {s t : State}
    (h : issueCommand kind dims maxbits blockIdx s = .next t) :
    ∃ w, Accepts s w ∧ (isFloat kind = true → OperandFinite s kind dims) ∧
      t = s.setWorker s.port.worker (w.load kind dims maxbits blockIdx s.port.block) := by
  rw [issueCommand] at h
  split at h
  · cases h
  · rename_i w hw
    split at h
    · cases h
    · rename_i hb
      split at h
      · cases h
      · rename_i hf
        simp only [Host.Outcome.next.injEq] at h
        refine ⟨w, ⟨hw, by simpa using hb⟩, fun hk => ?_, h.symm⟩
        simpa [hk, OperandFinite] using hf

/-- When the issue of a command succeeds. -/
theorem issueCommand_of_accepts {kind : Kind} {dims : BitVec 2} {maxbits : BitVec 16} {blockIdx : BitVec 32} {s : State} {w : Worker}
    (hw : Accepts s w) (hf : isFloat kind = true → OperandFinite s kind dims) :
    issueCommand kind dims maxbits blockIdx s =
      .next (s.setWorker s.port.worker (w.load kind dims maxbits blockIdx s.port.block)) := by
  rw [issueCommand, hw.1]
  simp only [hw.2, Bool.false_eq_true, if_false]
  rw [if_neg]
  simp only [Bool.and_eq_true, Bool.not_eq_true', not_and, Bool.not_eq_false]
  exact hf

/-- All that a whole command can do: it is issued, and the port's worker runs. -/
theorem runCommand_next {kind : Kind} {dims : BitVec 2} {maxbits : BitVec 16} {blockIdx : BitVec 32} {s t : State}
    (h : runCommand kind dims maxbits blockIdx s = .next t) :
    ∃ u, issueCommand kind dims maxbits blockIdx s = .next u ∧ t = runToCompletion s.port.worker u := by
  rw [runCommand] at h
  split at h <;> simp_all

/-- Every command is a whole command of its kind, dimension and fields. -/
theorem exec_eq_runCommand (i : Instr) (s : State) : exec i s = runCommand i.kind i.dims i.maxbits i.blockIdx s := by
  cases i <;> rfl

/-- What a run of a worker leaves alone: everything but that worker and the stream. -/
theorem runToCompletion_frame (i : Nat) (s : State) :
    (runToCompletion i s).params = s.params ∧ (runToCompletion i s).port = s.port ∧ (runToCompletion i s).agenda = s.agenda ∧
      (runToCompletion i s).reads = s.reads ∧ ∀ j, j ≠ i → (runToCompletion i s).workers[j]? = s.workers[j]? := by
  rw [runToCompletion]
  split
  · exact ⟨rfl, rfl, rfl, rfl, fun _ _ => rfl⟩
  · refine ⟨rfl, rfl, rfl, rfl, fun j hj => ?_⟩
    simp [List.getElem?_set_ne (Ne.symm hj)]

end Sys2Proof.Machine
end

