-- ==== Sys2Proof/Laws/Memory.lean ====
section
/-! SUPPORT. What the stream memory's operations do: reading after writing, and the canonical form kept. -/

namespace Sys2Proof.Machine

@[simp] theorem Memory.readByte_nil (addr : Nat) : Memory.readByte [] addr = Memory.unlisted := rfl

/-- Every address listed in a canonical memory lies above its first one. -/
theorem Memory.wf_tail {c : Host.Cell} {m : Memory} (h : Memory.wf (c :: m) = true) : m.wf = true := by
  obtain ⟨a, b⟩ := c
  cases m with
  | nil => rfl
  | cons c' m => obtain ⟨a', b'⟩ := c'; simp [Memory.wf] at h; exact h.2

theorem Memory.wf_head_ne {a : Nat} {b : Byte} {m : Memory} (h : Memory.wf ((a, b) :: m) = true) : b ≠ Memory.unlisted := by
  cases m with
  | nil => simpa [Memory.wf] using h
  | cons c' m => obtain ⟨a', b'⟩ := c'; simp [Memory.wf] at h; exact h.1.1

theorem Memory.wf_head_lt {a : Nat} {b : Byte} {m : Memory} (h : Memory.wf ((a, b) :: m) = true) : ∀ c ∈ m, a < c.1 := by
  induction m generalizing a b with
  | nil => simp
  | cons c' m ih =>
    obtain ⟨a', b'⟩ := c'
    simp only [Memory.wf, Bool.and_eq_true, decide_eq_true_eq] at h
    intro c hc
    rcases List.mem_cons.mp hc with rfl | hc
    · exact h.1.2
    · exact lt_trans h.1.2 (ih h.2 c hc)

theorem Memory.wf_cons {a : Nat} {b : Byte} {m : Memory} (hb : b ≠ Memory.unlisted) (hm : m.wf = true)
    (ha : ∀ c ∈ m, a < c.1) : Memory.wf ((a, b) :: m) = true := by
  cases m with
  | nil => simpa [Memory.wf] using hb
  | cons c' m =>
    obtain ⟨a', b'⟩ := c'
    have := ha (a', b') (by simp)
    simp [Memory.wf, hb, hm, this]

/-- An address below every listed one reads as unlisted. -/
theorem Memory.readByte_of_lt {m : Memory} {addr : Nat} (h : ∀ c ∈ m, addr < c.1) : m.readByte addr = Memory.unlisted := by
  induction m with
  | nil => rfl
  | cons c m ih =>
    obtain ⟨a, b⟩ := c
    have : addr < a := h (a, b) (by simp)
    rw [Memory.readByte, if_neg (by omega)]
    exact ih fun c hc => h c (by simp [hc])

theorem Memory.mem_writeByte {m : Memory} {addr : Nat} {v : Byte} {c : Host.Cell} (h : c ∈ m.writeByte addr v) :
    c = (addr, v) ∨ c ∈ m := by
  induction m with
  | nil => simp only [Memory.writeByte, Memory.putFront] at h; split at h <;> simp_all
  | cons c' m ih =>
    obtain ⟨a, b⟩ := c'
    simp only [Memory.writeByte, Memory.putFront] at h
    split_ifs at h <;> simp only [List.mem_cons] at h ⊢ <;> grind

theorem Memory.writeByte_wf {m : Memory} (addr : Nat) (v : Byte) (h : m.wf = true) : (m.writeByte addr v).wf = true := by
  induction m with
  | nil => by_cases hv : v = Memory.unlisted <;> simp [Memory.writeByte, Memory.putFront, Memory.wf, hv]
  | cons c m ih =>
    obtain ⟨a, b⟩ := c
    have hlt := Memory.wf_head_lt h
    have htail := Memory.wf_tail h
    have hne := Memory.wf_head_ne h
    simp only [Memory.writeByte, Memory.putFront]
    split_ifs with h1 h2 h3 h4
    · exact h
    · refine Memory.wf_cons h2 h ?_
      intro c hc
      rcases List.mem_cons.mp hc with rfl | hc
      · exact h1
      · exact lt_trans h1 (hlt c hc)
    · exact htail
    · subst h3; exact Memory.wf_cons h4 htail hlt
    · refine Memory.wf_cons hne (ih htail) ?_
      intro c hc
      rcases Memory.mem_writeByte hc with rfl | hc
      · show a < addr; omega
      · exact hlt c hc

/-- Reading after a write: the byte written at its address, every other byte as before. -/
theorem Memory.readByte_writeByte {m : Memory} (h : m.wf = true) (addr : Nat) (v : Byte) (a : Nat) :
    (m.writeByte addr v).readByte a = if a = addr then v else m.readByte a := by
  induction m with
  | nil =>
    by_cases hv : v = Memory.unlisted <;>
      simp [Memory.writeByte, Memory.putFront, Memory.readByte, hv, eq_comm]
  | cons c m ih =>
    obtain ⟨a', b⟩ := c
    have hlt := Memory.wf_head_lt h
    have htail := Memory.wf_tail h
    simp only [Memory.writeByte, Memory.putFront]
    split_ifs with h1 h2 h3 h4 h4 h5 h6 h7 h8
    · subst h3 h2
      rw [Memory.readByte, if_neg (by omega)]
      exact Memory.readByte_of_lt fun c hc => lt_trans h1 (hlt c hc)
    · rfl
    · subst h4; simp [Memory.readByte]
    · simp [Memory.readByte, Ne.symm h4]
    · subst h4 h5 h6; exact Memory.readByte_of_lt hlt
    · subst h4; simp [Memory.readByte, Ne.symm h6]
    · subst h4 h7; simp [Memory.readByte]
    · subst h4; simp [Memory.readByte, Ne.symm h7]
    · subst h8
      rw [Memory.readByte, if_neg (by omega), ih htail, if_pos rfl]
    · simp only [Memory.readByte]; rw [ih htail, if_neg h8]

/-- Two canonical memories that read alike are the same list. -/
theorem Memory.ext_of_readByte {m m' : Memory} (h : m.wf = true) (h' : m'.wf = true)
    (heq : ∀ a, m.readByte a = m'.readByte a) : m = m' := by
  induction m generalizing m' with
  | nil =>
    cases m' with
    | nil => rfl
    | cons c' m' =>
      obtain ⟨a', b'⟩ := c'
      exact absurd (by simpa [Memory.readByte] using (heq a').symm) (Memory.wf_head_ne h')
  | cons c m ih =>
    obtain ⟨a, b⟩ := c
    cases m' with
    | nil => exact absurd (by simpa [Memory.readByte] using heq a) (Memory.wf_head_ne h)
    | cons c' m' =>
      obtain ⟨a', b'⟩ := c'
      have hl := Memory.wf_head_lt h
      have hl' := Memory.wf_head_lt h'
      have haa : a = a' := by
        rcases lt_trichotomy a a' with hlt | he | hgt
        · have := heq a
          rw [Memory.readByte, if_pos rfl, Memory.readByte_of_lt (m := (a', b') :: m')] at this
          · exact absurd this (Memory.wf_head_ne h)
          · intro c hc
            rcases List.mem_cons.mp hc with rfl | hc
            · exact hlt
            · exact lt_trans hlt (hl' c hc)
        · exact he
        · have := heq a'
          rw [Memory.readByte_of_lt (m := (a, b) :: m), Memory.readByte, if_pos rfl] at this
          · exact absurd this.symm (Memory.wf_head_ne h')
          · intro c hc
            rcases List.mem_cons.mp hc with rfl | hc
            · exact hgt
            · exact lt_trans hgt (hl c hc)
      subst haa
      have hb : b = b' := by simpa [Memory.readByte] using heq a
      subst hb
      congr 1
      refine ih (Memory.wf_tail h) (Memory.wf_tail h') fun x => ?_
      by_cases hx : a = x
      · subst hx; rw [Memory.readByte_of_lt hl, Memory.readByte_of_lt hl']
      · simpa [Memory.readByte, hx] using heq x

theorem Memory.orBytes_wf {m : Memory} (h : m.wf = true) (a : Nat) (v : Word) (n : Nat) : (m.orBytes a v n).wf = true := by
  induction n with
  | zero => exact h
  | succ n ih => exact Memory.writeByte_wf _ _ ih

/-- ORing the low bytes of a word changes those bytes of word `a` and no other. -/
theorem Memory.readByte_orBytes {m : Memory} (h : m.wf = true) (a : Nat) (v : Word) (n x : Nat) :
    (m.orBytes a v n).readByte x =
      if 8 * a ≤ x ∧ x < 8 * a + n then m.readByte x ||| byteOf v (x - 8 * a) else m.readByte x := by
  induction n with
  | zero => rw [if_neg (by omega)]; rfl
  | succ n ih =>
    simp only [Memory.orBytes]
    rw [Memory.readByte_writeByte (Memory.orBytes_wf h a v n), ih]
    by_cases hx : x = 8 * a + n
    · subst hx
      rw [if_pos rfl, if_pos (by omega), ih, if_neg (by omega)]
      simp
    · rw [if_neg hx]
      by_cases hc : 8 * a ≤ x ∧ x < 8 * a + n
      · rw [if_pos hc, if_pos (by omega)]
      · rw [if_neg hc, if_neg (by omega)]

/-- An `AtomicOr` keeps the canonical form. -/
theorem Memory.atomicOr_wf {m : Memory} (h : m.wf = true) (ev : Event) : (m.atomicOr ev).wf = true := Memory.orBytes_wf h _ _ _

/-- What an `AtomicOr` does to a byte: ORed with the byte of the value in the event's word, unchanged elsewhere (R56). -/
theorem Memory.readByte_atomicOr {m : Memory} (h : m.wf = true) (ev : Event) (x : Nat) :
    (m.atomicOr ev).readByte x =
      if 8 * ev.addr ≤ x ∧ x < 8 * ev.addr + 8 then m.readByte x ||| byteOf ev.value (x - 8 * ev.addr) else m.readByte x :=
  Memory.readByte_orBytes h _ _ _ _

/-- Bit `p` of a word is bit `p mod 8` of its byte `p div 8` (R55). -/
theorem Memory.getLsbD_readWord (m : Memory) (a p : Nat) (hp : p < 64) :
    (m.readWord a).getLsbD p = (m.readByte (8 * a + p / 8)).getLsbD (p % 8) := by
  have key : ∀ j < 8, ∀ r < 8, (m.readWord a).getLsbD (8 * j + r) = (m.readByte (8 * a + j)).getLsbD r := by
    intro j hj r hr
    simp only [Memory.readWord, BitVec.getLsbD_append]
    interval_cases j <;> simp <;> split_ifs <;> first | omega | (congr 1; omega)
  have := key (p / 8) (by omega) (p % 8) (by omega)
  rwa [show 8 * (p / 8) + p % 8 = p by omega] at this

theorem getLsbD_byteOf (v : Word) (j r : Nat) (hr : r < 8) : (byteOf v j).getLsbD r = v.getLsbD (8 * j + r) := by
  simp [byteOf, hr]

/-- `AtomicOr(a, v)` replaces word `a` by `word OR v` and leaves every other word (R56). -/
theorem Memory.readWord_atomicOr {m : Memory} (h : m.wf = true) (ev : Event) (a : Nat) :
    (m.atomicOr ev).readWord a = if a = ev.addr then m.readWord a ||| ev.value else m.readWord a := by
  apply BitVec.eq_of_getLsbD_eq
  intro p hp
  rw [Memory.getLsbD_readWord _ _ _ hp, Memory.readByte_atomicOr h]
  by_cases ha : a = ev.addr
  · subst ha
    rw [if_pos (by omega), if_pos rfl, BitVec.getLsbD_or, BitVec.getLsbD_or, Memory.getLsbD_readWord _ _ _ hp,
      getLsbD_byteOf _ _ _ (by omega)]
    congr 2; omega
  · rw [if_neg (by omega), if_neg ha, Memory.getLsbD_readWord _ _ _ hp]

/-- A global bit after an `AtomicOr`: set before, or set by the event. -/
theorem Memory.globalBit_atomicOr {m : Memory} (h : m.wf = true) (ev : Event) (p : Nat) :
    (m.atomicOr ev).globalBit p = (m.globalBit p || ev.sets p) := by
  simp only [Memory.globalBit, Memory.readWord_atomicOr h, Event.sets]
  by_cases ha : p / Config.wordBits = ev.addr
  · simp [ha]
  · simp [ha, Ne.symm ha]

theorem orEvents_wf {m : Memory} (h : m.wf = true) (evs : List Event) : (orEvents m evs).wf = true := by
  induction evs generalizing m with
  | nil => exact h
  | cons ev evs ih => exact ih (Memory.atomicOr_wf h ev)

/-- A global bit after events: set before, or set by one of them (R62). -/
theorem globalBit_orEvents {m : Memory} (h : m.wf = true) (evs : List Event) (p : Nat) :
    (orEvents m evs).globalBit p = (m.globalBit p || evs.any (fun ev => ev.sets p)) := by
  induction evs generalizing m with
  | nil => simp [orEvents]
  | cons ev evs ih =>
    have := ih (Memory.atomicOr_wf h ev)
    rw [orEvents] at this ⊢
    rw [List.foldl_cons, this, Memory.globalBit_atomicOr h, List.any_cons, Bool.or_assoc]

theorem Memory.mem_zeroWords {m : Memory} {n : Nat} {c : Host.Cell} : c ∈ m.zeroWords n ↔ c ∈ m ∧ 8 * n ≤ c.1 := by
  simp [Memory.zeroWords]

theorem Memory.zeroWords_wf {m : Memory} (h : m.wf = true) (n : Nat) : (m.zeroWords n).wf = true := by
  induction m with
  | nil => rfl
  | cons c m ih =>
    obtain ⟨a, b⟩ := c
    have ht := ih (Memory.wf_tail h)
    rw [Memory.zeroWords, List.filter_cons]
    split
    · exact Memory.wf_cons (Memory.wf_head_ne h) ht fun c hc => Memory.wf_head_lt h c (Memory.mem_zeroWords.mp hc).1
    · exact ht

/-- After `HOST.ZERO words=n` the bytes of words below `n` read as zero, the others as before (R90). -/
theorem Memory.readByte_zeroWords {m : Memory} (h : m.wf = true) (n x : Nat) :
    (m.zeroWords n).readByte x = if x < 8 * n then 0 else m.readByte x := by
  induction m with
  | nil => simp [Memory.zeroWords, Memory.readByte, Memory.unlisted]
  | cons c m ih =>
    obtain ⟨a, b⟩ := c
    have ht := ih (Memory.wf_tail h)
    rw [Memory.zeroWords, List.filter_cons]
    split_ifs with h1 h2 h2
    · rw [Memory.readByte, if_neg (by simp at h1; omega)]
      rw [if_pos h2] at ht; exact ht
    · simp only [Memory.readByte]; rw [if_neg h2] at ht; rw [← ht]; rfl
    · rw [if_pos h2] at ht; exact ht
    · simp at h1
      rw [Memory.readByte, if_neg (by omega)]
      rw [if_neg h2] at ht; exact ht

/-- All that performing events can do: a prefix of them is ORed in, every event of it in range, and the first one left over, if any,
is out of range (R54). -/
theorem performEvents_spec (size : Nat) (evs : List Event) (m : Memory) :
    ∃ done, evs = done ++ (performEvents size evs m).2 ∧ (performEvents size evs m).1 = orEvents m done ∧
      (∀ ev ∈ done, ev.addr < size) ∧ ∀ ev ∈ (performEvents size evs m).2.head?, size ≤ ev.addr := by
  induction evs generalizing m with
  | nil => exact ⟨[], by simp [performEvents, orEvents]⟩
  | cons ev evs ih =>
    by_cases h : ev.addr < size
    · obtain ⟨done, h1, h2, h3, h4⟩ := ih (m.atomicOr ev)
      rw [performEvents, if_pos h]
      exact ⟨ev :: done, by rw [List.cons_append, ← h1], by rw [h2]; rfl, by simpa [h] using h3, h4⟩
    · exact ⟨[], by simp [performEvents, h, orEvents]; omega⟩

/-- Events that are all in range are all performed. -/
theorem performEvents_inRange {size : Nat} {evs : List Event} (h : ∀ ev ∈ evs, ev.addr < size) (m : Memory) :
    performEvents size evs m = (orEvents m evs, []) := by
  induction evs generalizing m with
  | nil => rfl
  | cons ev evs ih => rw [performEvents, if_pos (h ev (by simp)), ih fun e he => h e (by simp [he])]; rfl

end Sys2Proof.Machine
end

