-- ==== Sys2Proof/Laws/PerInstr.lean ====
section
/-! SUPPORT. Statements made of each command in turn: the fixed bits of its descriptor are those of its row of the opcode table. -/

namespace Sys2Proof.Laws

/-- The fixed bits a command's row gives: `match` of R88. -/
def matchWord : Instr → Word
  | .encF32D1 _ _ => 0x04
  | .encF32D2 _ _ => 0x08
  | .encF32D3 _ _ => 0x0C
  | .encF64D1 _ _ => 0x05
  | .encF64D2 _ _ => 0x09
  | .encF64D3 _ _ => 0x0D
  | .encI32D1 _ _ => 0x06
  | .encI32D2 _ _ => 0x0A
  | .encI32D3 _ _ => 0x0E
  | .encI64D1 _ _ => 0x07
  | .encI64D2 _ _ => 0x0B
  | .encI64D3 _ _ => 0x0F

/-- The mask of R88: `descriptor AND 0x00000000FF0000FF`. -/
def maskWord : Word := 0x00000000FF0000FF

/-- The descriptor of a command matches its row of the opcode table under the mask (R88). -/
def EncodingMatchesRow.Statement (i : Instr) : Prop := encode i &&& maskWord = matchWord i

/-- Under the mask only `dims` and `kind` are left of a descriptor (R88). -/
theorem encode_mask (i : Instr) :
    encode i &&& maskWord = (i.dims.setWidth 64 <<< 2) ||| (fieldOfKind i.kind).setWidth 64 := by
  have h1 : i.blockIdx.setWidth 64 <<< 32 &&& maskWord = 0 := by
    apply BitVec.eq_of_getLsbD_eq; intro j hj
    simp only [maskWord]
    interval_cases j <;> simp
  have h2 : i.maxbits.setWidth 64 <<< 8 &&& maskWord = 0 := by
    apply BitVec.eq_of_getLsbD_eq; intro j hj
    simp only [maskWord]
    interval_cases j <;> simp
  have h3 : ∀ d : BitVec 2, ∀ k : BitVec 2, (d.setWidth 64 <<< 2 ||| k.setWidth 64) &&& maskWord = d.setWidth 64 <<< 2 ||| k.setWidth 64 := by decide
  rw [encode, BitVec.or_assoc, BitVec.and_comm, BitVec.and_or_distrib_left, BitVec.and_or_distrib_left,
    BitVec.and_comm maskWord, BitVec.and_comm maskWord, BitVec.and_comm maskWord, h1, h2, h3]
  simp

theorem EncodingMatchesRow.encF32D1 (m : BitVec 16) (b : BitVec 32) :
    EncodingMatchesRow.Statement (.encF32D1 m b) :=
    (encode_mask (.encF32D1 m b)).trans (by simp [Instr.dims, Instr.kind, fieldOfKind, matchWord])

theorem EncodingMatchesRow.encF32D2 (m : BitVec 16) (b : BitVec 32) :
    EncodingMatchesRow.Statement (.encF32D2 m b) :=
    (encode_mask (.encF32D2 m b)).trans (by simp [Instr.dims, Instr.kind, fieldOfKind, matchWord])

theorem EncodingMatchesRow.encF32D3 (m : BitVec 16) (b : BitVec 32) :
    EncodingMatchesRow.Statement (.encF32D3 m b) :=
    (encode_mask (.encF32D3 m b)).trans (by simp [Instr.dims, Instr.kind, fieldOfKind, matchWord])

theorem EncodingMatchesRow.encF64D1 (m : BitVec 16) (b : BitVec 32) :
    EncodingMatchesRow.Statement (.encF64D1 m b) :=
    (encode_mask (.encF64D1 m b)).trans (by simp [Instr.dims, Instr.kind, fieldOfKind, matchWord])

theorem EncodingMatchesRow.encF64D2 (m : BitVec 16) (b : BitVec 32) :
    EncodingMatchesRow.Statement (.encF64D2 m b) :=
    (encode_mask (.encF64D2 m b)).trans (by simp [Instr.dims, Instr.kind, fieldOfKind, matchWord])

theorem EncodingMatchesRow.encF64D3 (m : BitVec 16) (b : BitVec 32) :
    EncodingMatchesRow.Statement (.encF64D3 m b) :=
    (encode_mask (.encF64D3 m b)).trans (by simp [Instr.dims, Instr.kind, fieldOfKind, matchWord])

theorem EncodingMatchesRow.encI32D1 (m : BitVec 16) (b : BitVec 32) :
    EncodingMatchesRow.Statement (.encI32D1 m b) :=
    (encode_mask (.encI32D1 m b)).trans (by simp [Instr.dims, Instr.kind, fieldOfKind, matchWord])

theorem EncodingMatchesRow.encI32D2 (m : BitVec 16) (b : BitVec 32) :
    EncodingMatchesRow.Statement (.encI32D2 m b) :=
    (encode_mask (.encI32D2 m b)).trans (by simp [Instr.dims, Instr.kind, fieldOfKind, matchWord])

theorem EncodingMatchesRow.encI32D3 (m : BitVec 16) (b : BitVec 32) :
    EncodingMatchesRow.Statement (.encI32D3 m b) :=
    (encode_mask (.encI32D3 m b)).trans (by simp [Instr.dims, Instr.kind, fieldOfKind, matchWord])

theorem EncodingMatchesRow.encI64D1 (m : BitVec 16) (b : BitVec 32) :
    EncodingMatchesRow.Statement (.encI64D1 m b) :=
    (encode_mask (.encI64D1 m b)).trans (by simp [Instr.dims, Instr.kind, fieldOfKind, matchWord])

theorem EncodingMatchesRow.encI64D2 (m : BitVec 16) (b : BitVec 32) :
    EncodingMatchesRow.Statement (.encI64D2 m b) :=
    (encode_mask (.encI64D2 m b)).trans (by simp [Instr.dims, Instr.kind, fieldOfKind, matchWord])

theorem EncodingMatchesRow.encI64D3 (m : BitVec 16) (b : BitVec 32) :
    EncodingMatchesRow.Statement (.encI64D3 m b) :=
    (encode_mask (.encI64D3 m b)).trans (by simp [Instr.dims, Instr.kind, fieldOfKind, matchWord])

end Sys2Proof.Laws
end

