-- ==== Sys2Proof/Laws/Step.lean ====
section
/-! SUPPORT. What one step of the machine and each move can do, said once. -/

namespace Sys2Proof.Machine

/-- All that a worker's small step can do to the state: that worker and the stream change (R20, R32). -/
theorem State.workerStep_some {s t : State} {i : Nat} (h : s.workerStep i = some t) :
    ∃ w w' m, s.workers[i]? = some w ∧ w.smallStep s.params s.stream = some (w', m) ∧ t = (s.setWorker i w').setStream m := by
  rw [State.workerStep] at h
  split at h
  · cases h
  · rename_i w hw
    split at h
    · cases h
    · rename_i w' m hs
      exact ⟨w, w', m, hw, hs, (Option.some.inj h).symm⟩

/-- All that the move of a worker can do: the worker steps, or, having no step, stays as it is (R243). -/
theorem moveWorker_next {s t : State} {i : Nat} (h : moveWorker i s = .next t) :
    i < s.workers.length ∧ (s.workerStep i = some t ∨ (s.workerStep i = none ∧ t = s)) := by
  rw [moveWorker] at h
  split at h
  · rename_i hi
    refine ⟨hi, ?_⟩
    split at h
    · rename_i u hu; simp only [Host.Outcome.next.injEq] at h; exact .inl (h ▸ hu)
    · rename_i hu; simp only [Host.Outcome.next.injEq] at h; exact .inr ⟨hu, h.symm⟩
  · cases h

theorem firstStepFrom_some {s t : State} {fuel i : Nat} (h : firstStepFrom s fuel i = some t) : ∃ j, s.workerStep j = some t := by
  induction fuel generalizing i with
  | zero => cases h
  | succ fuel ih =>
    rw [firstStepFrom] at h
    split at h
    · rename_i u hu; exact ⟨i, by rw [hu, ← h]⟩
    · exact ih h

/-- When no agent is named some worker steps, or nothing changes. -/
theorem someWorkerSteps_cases (s : State) : (∃ i, s.workerStep i = some (someWorkerSteps s)) ∨ someWorkerSteps s = s := by
  rw [someWorkerSteps]
  split
  · rename_i t h; exact .inl (firstStepFrom_some h)
  · exact .inr rfl

/-- The step at a state whose next move is not a `wait`: that move is made. -/
theorem step_move {s : State} {mv : Move} {rest : List Move} (h : s.agenda = mv :: rest) (hw : mv ≠ .wait) :
    step s = moveStep mv (s.setAgenda rest) := by
  rw [step, h]
  cases mv <;> simp_all

theorem step_wait {s : State} {rest : List Move} (h : s.agenda = .wait :: rest) :
    step s = if allIdle s.workers then .next (s.setAgenda rest) else .next (someWorkerSteps s) := by
  rw [step, h]
  rfl

theorem step_nil {s : State} (h : s.agenda = []) : step s = .next (someWorkerSteps s) := by rw [step, h]

/-- All that a step can do: a move of the agenda is made, or, at a `wait` with a command in flight or with no move to come, the
workers go on. -/
theorem step_cases (s : State) :
    (∃ mv rest, s.agenda = mv :: rest ∧ step s = moveStep mv (s.setAgenda rest)) ∨ step s = .next (someWorkerSteps s) := by
  cases h : s.agenda with
  | nil => exact .inr (step_nil h)
  | cons mv rest =>
    by_cases hw : mv = .wait
    · subst hw
      by_cases hi : allIdle s.workers
      · exact .inl ⟨.wait, rest, rfl, by rw [step_wait h, if_pos hi]; rfl⟩
      · exact .inr (by rw [step_wait h, if_neg hi])
    · exact .inl ⟨mv, rest, rfl, step_move h hw⟩

end Sys2Proof.Machine
end

