-- ==== Sys2Proof/Laws/Units.lean ====
section
/-! SUPPORT. What the operations of the units can do, said once: register files, the integer primitives, the writer's windows, the
transform and the reorder. -/

namespace Sys2Proof.Machine

/-! ### Register files -/

@[simp] theorem length_blockCells (size : Nat) (l : List Word) : (blockCells size l).length = size := by simp [blockCells]

@[simp] theorem length_operandBlock (kind : Kind) (size : Nat) (space : List Word) : (operandBlock kind size space).length = size := by
  simp [operandBlock]

/-- Cell `i` of a rewritten file: the new one where there is one, else the old one. -/
theorem cell_rewriteFile (new old : List Word) (i : Nat) :
    cell (rewriteFile new old) i = if i < new.length then cell new i else cell old i := by
  simp only [cell, rewriteFile, List.getD_eq_getElem?_getD]
  split_ifs with h
  · rw [List.getElem?_append_left h]
  · rw [List.getElem?_append_right (by omega), List.getElem?_drop, show new.length + (i - new.length) = i by omega]

/-- Rewriting a file twice over the same cells is rewriting it once. -/
theorem rewriteFile_rewriteFile {a b : List Word} (h : a.length = b.length) (old : List Word) :
    rewriteFile a (rewriteFile b old) = rewriteFile a old := by
  simp [rewriteFile, h]

theorem length_rewriteFile (new old : List Word) : (rewriteFile new old).length = max new.length old.length := by
  simp [rewriteFile]; omega

/-- The leading cells of a rewritten file are the new ones. -/
theorem blockCells_rewriteFile (new old : List Word) : blockCells new.length (rewriteFile new old) = new := by
  apply List.ext_getElem
  · simp
  · intro i h1 h2
    simp only [blockCells, List.getElem_map, List.getElem_range]
    rw [cell_rewriteFile, if_pos h2, cell, List.getD_eq_getElem _ _ h2]

/-! ### Integers -/

/-- A wrapped value is an `Int_N` (R12). -/
theorem wrap_isInt {n : Nat} (hn : 0 < n) (z : Int) : IsInt n (wrap n z) := by
  obtain ⟨k, rfl⟩ : ∃ k, n = k + 1 := ⟨n - 1, by omega⟩
  have h1 := Int.le_bmod (x := z) (m := 2 ^ (k + 1)) (by positivity)
  have h2 := Int.bmod_lt (x := z) (m := 2 ^ (k + 1)) (by positivity)
  have h3 : ((2 ^ (k + 1) : Nat) : Int) = 2 * 2 ^ k := by push_cast; ring
  rw [h3] at h1 h2
  simp only [IsInt, wrap, Nat.add_sub_cancel]
  generalize (2 : Int) ^ k = m at *
  constructor <;> omega

/-- An `Int_N` is its own wrapping (R12). -/
theorem wrap_of_isInt {n : Nat} (hn : 0 < n) {z : Int} (h : IsInt n z) : wrap n z = z := by
  obtain ⟨k, rfl⟩ : ∃ k, n = k + 1 := ⟨n - 1, by omega⟩
  have hp : (0 : Int) < 2 ^ k := by positivity
  simp only [IsInt, Nat.add_sub_cancel] at h
  rw [wrap]
  apply Int.bmod_eq_of_le
  · push_cast; rw [pow_succ]; omega
  · push_cast; rw [pow_succ]; omega

/-- The value an `iblk` cell was written with is read back (R25, log 13). -/
theorem intOfCell_cellOfInt {kind : Kind} {v : Int} (h : IsInt (width kind) v) : intOfCell kind (cellOfInt v) = v := by
  have hc : ∀ n : Nat, n = 32 ∨ n = 64 → IsInt n v → signedN n ((cellOfInt v).toNat % 2 ^ n) = v := by
    intro n hn hv
    have e : ((cellOfInt v).toNat : Int) = v % 2 ^ 64 := by
      rw [cellOfInt, BitVec.toNat_ofInt, Int.toNat_of_nonneg]
      · norm_num
      · exact Int.emod_nonneg _ (by norm_num)
    rcases hn with rfl | rfl <;> simp only [IsInt] at hv <;> rw [signedN] <;> norm_num at hv ⊢ <;> split_ifs <;> omega
  rw [intOfCell]
  exact hc _ (by cases kind <;> simp [width]) h

theorem width_pos (kind : Kind) : 0 < width kind := by cases kind <;> decide

/-! ### The transform and the reorder -/

@[simp] theorem length_fwdLift (n : Nat) (l : List Int) (p s : Nat) : (fwdLift n l p s).length = l.length := by simp [fwdLift]

@[simp] theorem length_fwdPass (n size a : Nat) (l : List Int) : (fwdPass n size a l).length = l.length := by
  rw [fwdPass]
  induction passBases size (4 ^ a) generalizing l with
  | nil => rfl
  | cons p ps ih => rw [List.foldl_cons, ih, length_fwdLift]

@[simp] theorem length_fwdXform (n d : Nat) (l : List Int) : (fwdXform n d l).length = l.length := by
  rw [fwdXform]
  induction List.range d generalizing l with
  | nil => rfl
  | cons a as ih => rw [List.foldl_cons, ih, length_fwdPass]

/-- What is left of a coefficient after the two kinds of last step of a lift is an `Int_N` (R12, R13). -/
theorem asr_isInt {n : Nat} {v : Int} (h : IsInt n v) : IsInt n (asr v 1) := by
  simp only [IsInt, asr] at *
  have : (0 : Int) < 2 ^ (n - 1) := by positivity
  generalize (2 : Int) ^ (n - 1) = m at *
  omega

/-- Each variable of a lift ends as an `Int_N`, whatever it began as (R141). -/
theorem liftSteps_isInt {n : Nat} (hn : 0 < n) (q : Quad) :
    IsInt n (liftSteps n q).x ∧ IsInt n (liftSteps n q).y ∧ IsInt n (liftSteps n q).z ∧ IsInt n (liftSteps n q).w :=
  ⟨asr_isInt (wrap_isInt hn _), wrap_isInt hn _, wrap_isInt hn _, wrap_isInt hn _⟩

@[simp] theorem length_permutation1 : permutation1.length = 4 := rfl
@[simp] theorem length_permutation2 : permutation2.length = 16 := rfl
@[simp] theorem length_permutation3 : permutation3.length = 64 := rfl

theorem length_permutation {d : Nat} (h : d = 1 ∨ d = 2 ∨ d = 3) : (permutation d).length = 4 ^ d := by
  rcases h with rfl | rfl | rfl <;> rfl

@[simp] theorem length_fwdOrder (n d : Nat) (l : List Int) : (fwdOrder n d l).length = (permutation d).length := by simp [fwdOrder]

/-! ### The writer -/

/-- A write of no bits has no event (R171). -/
@[simp] theorem writeBitsEvents_zero (c : Cursor) (v : Word) : writeBitsEvents c v 0 = [] := by simp [writeBitsEvents]

/-- The events of a window are on its word and, where it straddles, on the next (R167, R169). -/
theorem addr_writeBitsEvents {c : Cursor} {v : Word} {n : Nat} {ev : Event} (h : ev ∈ writeBitsEvents c v n) :
    0 < n ∧ (ev.addr = c.wordIndex + c.pos / 64 ∨ (64 < c.pos % 64 + n ∧ ev.addr = c.wordIndex + c.pos / 64 + 1)) := by
  rw [writeBitsEvents] at h
  by_cases h0 : n = 0
  · rw [if_pos h0] at h; cases h
  · rw [if_neg h0] at h
    by_cases h1 : Config.wordBits < c.pos % Config.wordBits + n
    · rw [if_pos h1] at h
      rcases List.mem_cons.mp h with rfl | h
      · exact ⟨by omega, .inl rfl⟩
      · obtain rfl := List.mem_singleton.mp h
        exact ⟨by omega, .inr ⟨h1, rfl⟩⟩
    · rw [if_neg h1] at h
      obtain rfl := List.mem_singleton.mp h
      exact ⟨by omega, .inl rfl⟩

end Sys2Proof.Machine
end

