-- ==== Sys2Proof/Tests/Slice0.lean ====
section
/-! SUPPORT. Tests of the model. Expected values come from spec/: the rule or the vector each is from stands in its comment. The last
part, the theorems `witness_...`, shows for each statement with hypotheses a concrete state and operands that meet them. -/



namespace Sys2Proof.Tests

set_option Elab.async false
set_option maxRecDepth 100000

open Sys2Proof.Machine

/-! ### Helpers -/

/-- The machine after reset with an operand block at the port. -/
def start (block : List Word) : State := State.reset.setPort { worker := 0, block := rewriteFile block clearedFile }

/-- The same with a command's descriptor as the next move. -/
def ready (block : List Word) (descriptor : Nat) : State := (start block).withFetchWord 64 descriptor

/-- A check of the next state of an outcome. -/
def holdsNext (o : Host.Outcome State Fault Refusal) (p : State → Bool) : Bool :=
  match o with
  | .next t => p t
  | .fault _ => false
  | .refused _ => false

theorem of_holdsNext {o : Host.Outcome State Fault Refusal} {p : State → Bool} (h : holdsNext o p = true) :
    ∃ t, o = .next t ∧ p t = true := by
  cases o with
  | next t => exact ⟨t, rfl, h⟩
  | fault r => cases h
  | refused r => cases h

/-- After one step the stream words listed hold the values listed. -/
def leaves (s : State) (words : List (Nat × Word)) : Bool :=
  holdsNext (step s) (fun t => words.all (fun p => t.stream.readWord p.1 == p.2))

/-- The first `n` bits written, as a number with the first-written bit lowest. -/
def bitsAsNat : List Bool → Nat
  | [] => 0
  | b :: bs => b.toNat + 2 * bitsAsNat bs

/-- The 64-bit float pattern of a number below 64. -/
def floatOf (i : Nat) : Word :=
  if i = 0 then 0 else BitVec.ofNat 64 ((1023 + i.log2) * 2 ^ 52 + i * 2 ^ (52 - i.log2) % 2 ^ 52)

/-- A refused step's reason, where it is one. -/
def refusal (o : Host.Outcome State Fault Refusal) : Option Refusal :=
  match o with
  | .next _ => none
  | .fault _ => none
  | .refused r => some r

/-! ### Well-formedness: an ill-formed descriptor for each check of R89 -/

theorem test_wellFormed_refuses_dims_zero :
    (Descriptor.wellFormed { kind := .f32, dims := 0, rsv0 := 0, maxbits := 64, rsv1 := 0, blockIdx := 0 }) = false := by decide
theorem test_wellFormed_refuses_rsv0 :
    (Descriptor.wellFormed { kind := .f32, dims := 1, rsv0 := 8, maxbits := 64, rsv1 := 0, blockIdx := 0 }) = false := by decide
theorem test_wellFormed_refuses_rsv1 :
    (Descriptor.wellFormed { kind := .f32, dims := 1, rsv0 := 0, maxbits := 64, rsv1 := 1, blockIdx := 0 }) = false := by decide
theorem test_wellFormed_accepts :
    (Descriptor.wellFormed { kind := .i64, dims := 3, rsv0 := 0, maxbits := 0xFFFF, rsv1 := 0, blockIdx := 0xFFFFFFFF }) = true := by
  decide

/-! ### Decoding: fields laid side by side as R81 draws them, bit 63 first; the numbers are those of R210 to R221 -/

theorem test_decode_f32_1d : decodeWord (0#32 ++ 0#8 ++ 64#16 ++ 0#4 ++ 0b01#2 ++ 0b00#2) = .command (.encF32D1 64 0) := by decide
theorem test_decode_f32_2d : decodeWord (1#32 ++ 0#8 ++ 96#16 ++ 0#4 ++ 0b10#2 ++ 0b00#2) = .command (.encF32D2 96 1) := by decide
theorem test_decode_f32_3d : decodeWord (0#32 ++ 0#8 ++ 128#16 ++ 0#4 ++ 0b11#2 ++ 0b00#2) = .command (.encF32D3 128 0) := by decide
theorem test_decode_f64_1d : decodeWord (0#32 ++ 0#8 ++ 32#16 ++ 0#4 ++ 0b01#2 ++ 0b01#2) = .command (.encF64D1 32 0) := by decide
theorem test_decode_f64_2d : decodeWord (2#32 ++ 0#8 ++ 48#16 ++ 0#4 ++ 0b10#2 ++ 0b01#2) = .command (.encF64D2 48 2) := by decide
theorem test_decode_f64_3d : decodeWord (5#32 ++ 0#8 ++ 37#16 ++ 0#4 ++ 0b11#2 ++ 0b01#2) = .command (.encF64D3 37 5) := by decide
theorem test_decode_i32_1d : decodeWord (3#32 ++ 0#8 ++ 256#16 ++ 0#4 ++ 0b01#2 ++ 0b10#2) = .command (.encI32D1 256 3) := by decide
theorem test_decode_i32_2d : decodeWord (0#32 ++ 0#8 ++ 128#16 ++ 0#4 ++ 0b10#2 ++ 0b10#2) = .command (.encI32D2 128 0) := by decide
theorem test_decode_i32_3d : decodeWord (1#32 ++ 0#8 ++ 64#16 ++ 0#4 ++ 0b11#2 ++ 0b10#2) = .command (.encI32D3 64 1) := by decide
theorem test_decode_i64_1d : decodeWord (1#32 ++ 0#8 ++ 80#16 ++ 0#4 ++ 0b01#2 ++ 0b11#2) = .command (.encI64D1 80 1) := by decide
theorem test_decode_i64_2d : decodeWord (0#32 ++ 0#8 ++ 100#16 ++ 0#4 ++ 0b10#2 ++ 0b11#2) = .command (.encI64D2 100 0) := by decide
theorem test_decode_i64_3d : decodeWord (1#32 ++ 0#8 ++ 128#16 ++ 0#4 ++ 0b11#2 ++ 0b11#2) = .command (.encI64D3 128 1) := by decide
/-- The largest fields, and a pattern string of R81 bit by bit. -/
theorem test_decode_widest :
    decodeWord 0b1111111111111111111111111111111100000000111111111111111100001111 = .command (.encI64D3 0xFFFF 0xFFFFFFFF) := by decide
/-- R89. -/
theorem test_decode_reserved :
    decodeWord 0x4000 = .reserved .dimsZero ∧ decodeWord 0x4014 = .reserved .rsv0NotZero ∧
    decodeWord 0x01004004 = .reserved .rsv1NotZero ∧ decodeWord 0x80004004 = .reserved .rsv1NotZero := by decide
/-- R88: the example of the rule. -/
theorem test_encode_example : encode (.encF64D3 37 5) = 0x000000050000250D := by decide
/-- A table word is one 64-bit word; bits beyond it are no descriptor. -/
theorem test_decodeTableWord :
    decodeTableWord 64 0x04 = some (.encF32D1 0 0) ∧ decodeTableWord 64 0x0F = some (.encI64D3 0 0) ∧
    decodeTableWord 64 0x10 = none ∧ decodeTableWord 64 0 = none ∧ decodeTableWord 72 (2 ^ 64 + 4) = none := by decide

/-! ### One command each, from 46_block_driver.md and 95_test_vectors.md; a budget below the vector's is cut by the law of R96 -/

/-- R210. -/
theorem test_step_f32_1d :
    leaves (ready [0x3F800000, 0x40000000, 0x40400000, 0x40800000] 0x4004) [(0, 0xB3105), (1, 0)] = true := by decide +kernel
/-- 95_test_vectors.md, scenario 4 at `maxbits = 16`. -/
theorem test_step_f32_2d :
    leaves (ready [0x3F800000, 0xC0200000, 0x40500000, 0x3F400000, 0x40900000, 0xBE000000, 0x40C00000, 0x40F00000, 0xC1040000,
      0x41100000, 0x3F000000, 0x41300000, 0x41480000, 0xC1500000, 0x416C0000, 0x41700000] 0x1008) [(0, 0x907)] = true := by
  decide +kernel
/-- R212, the first 16 bits. -/
theorem test_step_f32_3d : leaves (ready (List.replicate 64 0x3F800000) 0x100C) [(0, 0x2D01)] = true := by decide +kernel
/-- R213, scenario 2. -/
theorem test_step_f64_1d : leaves (ready (List.replicate 4 0x3FF0000000000000) 0x2005) [(0, 0x16801)] = true := by decide +kernel
/-- R214, the first 20 bits, in block 0. -/
theorem test_step_f64_2d : leaves (ready (List.replicate 16 0x3FE0000000000000) 0x1409) [(0, 0x167FF)] = true := by decide +kernel
/-- R215, scenario 5. -/
theorem test_step_f64_3d :
    leaves (ready ((List.range 64).map floatOf) 0x50000250D) [(1, 0), (2, 0x1600000000000000), (3, 0x084426D0), (4, 0)] = true := by
  decide +kernel
/-- R216, scenario 3. -/
theorem test_step_i32_1d : leaves (ready [0xFFFFFFFF, 0, 0, 0] 0x300010006) [(11, 0), (12, 0x16C0000000), (13, 0)] = true := by
  decide +kernel
/-- R217, the first 64 bits. -/
theorem test_step_i32_2d :
    leaves (ready ([-11, -1, 0, -8, -2, -5, 6, 8, 1, 8, 6, -5, -2, -8, 0, -1].map (BitVec.ofInt 64)) 0x400A)
      [(0, 0xE80E080010000000)] = true := by decide +kernel
/-- R218, the first 27 bits, in block 0. -/
theorem test_step_i32_3d : leaves (ready (List.replicate 64 100) 0x1B0E) [(0, 0x5800000)] = true := by decide +kernel
/-- R219. -/
theorem test_step_i64_1d : leaves (ready [1, 2, 3, 4] 0x100005007) [(1, 0), (2, 0x276000)] = true := by decide +kernel
/-- R220. -/
theorem test_step_i64_2d :
    leaves (ready ((List.range 16).map (fun i => BitVec.ofNat 64 (i * i))) 0x640B) [(0, 0xA900000000000000), (1, 0x402895694)] = true := by
  decide +kernel
/-- R149 (constant block), R114 (2^61), R189: 0, then 1 1 0, then 1 0, then zeros. -/
theorem test_step_i64_3d : leaves (ready (List.replicate 64 0x2000000000000000) 0x100F) [(0, 0x16)] = true := by decide +kernel

/-! ### The units, from the tables of their files -/

/-- R114. -/
theorem test_negabinary_table :
    ([0, 1, -1, 2, -2, 3, -3, 4, -4, 5, -5, 127, -128, 536870912, -536870912, 1431655765, 2147483647, -2147483648] : List Int).map
      (intToUint 32) = [0, 1, 3, 6, 2, 7, 0xD, 4, 0xC, 5, 0xF, 0x183, 0x80, 0x60000000, 0x20000000, 0x55555555, 0x80000003,
        0x80000000] ∧
    ([9223372036854775807, -9223372036854775808, 2305843009213693952, -2305843009213693952] : List Int).map (intToUint 64) =
      [0x8000000000000003, 0x8000000000000000, 0x6000000000000000, 0x2000000000000000] := by decide +kernel
/-- R137, first table. -/
theorem test_exponent_table :
    ([0x3F800000, 0x3F000000, 0x3FC00000, 0x40000000, 0xC0E80000, 0x3A83126F, 0x7F7FFFFF, 0x00800000, 0x007FFFFF, 0x00000001,
      0x00000000, 0x80000000] : List Word).map (exponentOf .f32) = [1, 0, 1, 2, 3, -9, 128, -125, -126, -126, -127, -127] ∧
    ([0x3FF0000000000000, 0x3FE0000000000000, 0x4008000000000000, 0xC01D000000000000, 0x7FEFFFFFFFFFFFFF, 0x0010000000000000,
      0x000FFFFFFFFFFFFF, 0x0000000000000001, 0, 0x8000000000000000] : List Word).map (exponentOf .f64) =
      [1, 0, 2, 3, 1024, -1021, -1022, -1022, -1023, -1023] := by decide +kernel
/-- R137, second table, rows 2, 3, 5 and 6. -/
theorem test_cast_table :
    ([0x3FC00000, 0xBFE00000, 0x3DCCCCCD, 0x407FFFFF] : List Word).map (castScalar .f32 2) =
      [402653184, -469762048, 26843546, 1073741760] ∧
    ([0x7F7FFFFF, 0xFF7FFFFF, 0x3F800000] : List Word).map (castScalar .f32 128) = [1073741760, -1073741760, 0] ∧
    ([0xC01D000000000000, 0x3F50624DD2F1A9FC, 0x3FD3333333333333, 1] : List Word).map (castScalar .f64 3) =
      [-4179340454199820288, 576460752303423, 172938225691027040, 0] ∧
    ([1, 0x8000000000000002, 0, 0x0010000000000000] : List Word).map (castScalar .f64 (-1021)) =
      [512, -1024, 0, 2305843009213693952] := by decide +kernel
/-- R145: rows with floors, with wraps, and the worked row. -/
theorem test_lift_table :
    fwdLift 32 [-1, 0, 0, 0] 0 1 = [0, 1, 0, -1] ∧ fwdLift 32 [-7, 5, -3, 2] 0 1 = [4, 2, -2, -1] ∧
    fwdLift 32 [4, -8, 12, -16] 0 1 = [-10, 4, 5, -2] ∧ fwdLift 32 [16, 0, 0, 0] 0 1 = [-2, -4, 5, 4] ∧
    fwdLift 32 [1073741824, 1073741824, 1073741824, 1073741824] 0 1 = [-1073741824, 0, -1610612736, -1073741824] ∧
    fwdLift 32 [2147483647, 0, 0, -2147483648] 0 1 = [-536870912, 1, 1342177280, -1] := by decide +kernel
/-- R150 and R149: the pass order is x then y. -/
theorem test_transform_order :
    fwdXform 32 2 [-2, -1, 1, 2, 1, -1, 1, 0, -1, 0, 0, -2, -2, 2, 2, 2] = [0, 0, 0, 1, 0, 0, 1, 0, 0, 0, 1, 0, -1, 0, -1, -1] ∧
    fwdXform 32 2 ((List.range 16).map (fun i => (i : Int))) = [0, 0, 0, 0, 0, 0, 0, 0, 0, 0, 0, -4, 0, 0, -1, 7] := by decide +kernel
/-- R163. -/
theorem test_order_table :
    fwdOrder 32 1 [0, 0, -1, 2] = [6, 3, 0, 0] ∧
    fwdOrder 32 2 [-1, -3, -2, 0, 0, 0, 0, 3, 1, 2, 0, -1, -2, 2, -1, -2] = [2, 3, 3, 0, 6, 7, 6, 0, 2, 0, 0, 1, 2, 0, 13, 3] := by
  decide +kernel
/-- R179, rows 1, 2, 3, 6, 8, 9. -/
theorem test_writer_table :
    writeBitsEvents { wordIndex := 2, startBit := 57, currentBit := 0 } 0x1ABC 13 =
      [{ addr := 2, value := 0x7800000000000000 }, { addr := 3, value := 0x35 }] ∧
    writeBitsEvents { wordIndex := 2, startBit := 57, currentBit := 13 } 0xFFFFFFFFFFFFFFFF 24 = [{ addr := 3, value := 0x3FFFFFC0 }] ∧
    writeBitsEvents { wordIndex := 3, startBit := 8, currentBit := 0 } 0x8000000000000001 64 =
      [{ addr := 3, value := 0x100 }, { addr := 4, value := 0x80 }] ∧
    writeBitsEvents { wordIndex := 0, startBit := 60, currentBit := 4 } 0x35 5 = [{ addr := 1, value := 0x15 }] ∧
    writeBitsEvents { wordIndex := 0, startBit := 0, currentBit := 3 } 0xABCD 0 = [] ∧
    writeBitEvents { wordIndex := 12, startBit := 0, currentBit := 30 } true = [{ addr := 12, value := 0x40000000 }] ∧
    writeBitsRest 0xFFFFFFFFFFFFFFFF 24 = 0xFFFFFFFFFF ∧ writeBitsRest 5 64 = 0 := by decide +kernel
/-- R199, traces D (whole and under budgets 30, 34, 37), F and G. -/
theorem test_plane_traces :
    (encodeInts 32 4 [6, 3, 0, 0] 64 32).flatMap Call.written =
      List.replicate 29 false ++ [true, true, false, true, true, true, false, false, true, false] ∧
    (encodeInts 32 4 [6, 3, 0, 0] 37 32).flatMap Call.written =
      List.replicate 29 false ++ [true, true, false, true, true, true, false, false] ∧
    bitsAsNat ((encodeInts 32 4 [0x80000000, 0, 0, 0x80000000] 20 32).flatMap Call.written) = 7 ∧
    (encodeInts 32 4 [5, 0, 0, 0] 64 3).flatMap Call.written = [false, false, false] := by decide +kernel
/-- R56, R55: the bytes of an OR. -/
theorem test_atomicOr_bytes :
    Memory.atomicOr [(9, 0xF0)] { addr := 1, value := 0x010F } = [(8, 0x0F), (9, 0xF1)] := by decide +kernel

/-! ### Refusals and the host's moves -/

/-- R135: an infinity in the last scalar of the block refuses the command; beyond the block it is not read. -/
theorem test_infinity_refused :
    refusal (step (ready [0, 0, 0, 0x7F800000] 0x4004)) = some .notFinite ∧
    refusal (step (ready [0, 0, 0, 0, 0x7F800000] 0x4004)) = none := by decide +kernel
/-- R208: `maxbits = 0`, and a float block of zeros of both signs, leave the stream empty. -/
theorem test_nothing_written :
    holdsNext (step (ready [1, 2, 3, 4] 0x7)) (fun t => t.stream == []) = true ∧
    holdsNext (step (ready [0, 0x80000000, 0, 0x80000000] 0x4004)) (fun t => t.stream == []) = true := by decide +kernel
/-- R206: a header cut at `maxbits = 8` (95_test_vectors.md, scenario 4's further budgets). -/
theorem test_header_cut :
    headerCall .f32 8 131 = .bits 7 8 ∧ headerCall .f32 9 131 = .bits 0x107 9 ∧ headerCall .f32 1 131 = .bits 1 1 := by
  decide +kernel
/-- R38: the first half of a split header stays, the rest never happens. -/
theorem test_reset_in_flight :
    holdsNext (Sys2Proof.core.run 5 ((start (List.replicate 64 0x3FF0000000000000)).setAgenda
        [.issue 0x50000250D, .worker 0, .worker 0, .worker 0, .reset]))
      (fun t => t.stream.readWord 2 == 0x0200000000000000 && t.stream.readWord 3 == 0 && allIdle t.workers) = true := by
  decide +kernel

/-! ### Witnesses: states and operands that meet the hypotheses of the statements -/

/-- A block of ones in F32, in F64, and of threes. -/
def onesF32 : State := start (List.replicate 64 0x3F800000)
def onesF64 : State := start (List.replicate 64 0x3FF0000000000000)
def threes : State := start (List.replicate 64 3)

/-- The same machine with a stream of `n` words. -/
def withStream (n : Nat) (s : State) : State := { s with params := { s.params with streamWords := n } }

/-- A worker that has coded its planes and still has one event to perform: bit 0 of the region of block `b`, one word long. -/
def lastEvent (b : Nat) : Worker :=
  { Worker.reset with
    phase := .planes, kind := .i32, dims := 1, maxbits := 64, blockIdx := BitVec.ofNat 32 b
    cursor := { wordIndex := b, startBit := 0, currentBit := 1 }, pending := [{ addr := b, value := 1 }] }

/-- A worker that has performed all its events. -/
def allDone : Worker := { Worker.reset with phase := .done, kind := .i32, dims := 1 }

/-- A worker about to cast a block of ones. -/
def aboutToCast : Worker :=
  { Worker.reset with phase := .cast, dims := 1, fblk := List.replicate 64 0x3F800000, emax := 1 }

/-- Two workers at work on neighbouring words, a third idle, a stream of four words, its first byte 6. -/
def atWork : State :=
  { State.reset with
    params := { Config.Params.atReset with streamWords := 4 }, stream := [(0, 6)]
    workers := [lastEvent 0, lastEvent 1, Worker.reset] }

/-- A worker stuck at word 5 beside the others. -/
def stuckState : State := { atWork with workers := [lastEvent 0, lastEvent 5, Worker.reset] }

theorem lastEvent_inv (b : Nat) (h : b < 8) : (lastEvent b).Inv := by
  have key : (lastEvent b).blockIdx.toNat = b := by show (BitVec.ofNat 32 b).toNat = b; simp; omega
  exact
    { fits :=
        { fblk := rfl, iblk := rfl, ublk := rfl, emax := ⟨(by decide : (-1023 : Int) ≤ 0), (by decide : (0 : Int) ≤ 1024)⟩
          maxprec := Nat.zero_le _, e := Nat.zero_le _, wordIndex := (by omega : b < 2 ^ 42)
          startBit := (by decide : 0 < 64), currentBit := (by decide : 1 < 2 ^ 17), k := Nat.zero_le _, kmin := Nat.zero_le _
          n := Nat.zero_le _, bits := (by decide : 0 < 2 ^ 16) }
      command := fun _ => (by decide : (1 : BitVec 2) ≠ 0)
      unsignalled := fun _ => rfl
      finite := fun _ h => by cases h
      floatPhase := fun h => by rcases h with h | h | h <;> cases h
      placed := fun _ _ => by rw [key]; show 64 * b + 0 = b * 64; omega
      accounted := (by decide : 1 + 0 ≤ 64)
      tail := fun _ => (by decide : (0 : Word).toNat < 2 ^ 4)
      quiet := fun _ h => absurd rfl h
      contained := by
        intro ev hev p hp
        obtain rfl : ev = { addr := b, value := 1 } := by simpa [lastEvent] using hev
        rw [key]
        show InRegion 64 b p
        simp [Event.sets, Config.wordBits] at hp
        have hb := of_decide_eq_true hp.1
        rw [InRegion]
        omega }

theorem idle_inv : Worker.reset.Inv where
  fits := { fblk := by decide, iblk := by decide, ublk := by decide, emax := by decide, maxprec := by decide, e := by decide
            wordIndex := by decide, startBit := by decide, currentBit := by decide, k := by decide, kmin := by decide
            n := by decide, bits := by decide }
  command := by decide
  unsignalled := by decide
  finite := fun h => by cases h
  floatPhase := by decide
  placed := fun h => by cases h
  accounted := trivial
  tail := fun h => by cases h
  quiet := by decide
  contained := by intro ev hev; cases hev

theorem allDone_inv : allDone.Inv where
  fits := { fblk := by decide, iblk := by decide, ublk := by decide, emax := by decide, maxprec := by decide, e := by decide
            wordIndex := by decide, startBit := by decide, currentBit := by decide, k := by decide, kmin := by decide
            n := by decide, bits := by decide }
  command := by decide
  unsignalled := by decide
  finite := fun _ h => by cases h
  floatPhase := by decide
  placed := by decide
  accounted := by show 0 ≤ 0; decide
  tail := fun h => by cases h
  quiet := by decide
  contained := by intro ev hev; cases hev

theorem atWork_inv : atWork.Inv where
  canonical := by decide
  bounded := by decide
  port := by decide
  workers := by
    intro w hw
    simp only [atWork, List.mem_cons, List.not_mem_nil, or_false] at hw
    rcases hw with rfl | rfl | rfl
    · exact lastEvent_inv 0 (by omega)
    · exact lastEvent_inv 1 (by omega)
    · exact idle_inv

theorem stuckState_inv : stuckState.Inv where
  canonical := by decide
  bounded := by decide
  port := by decide
  workers := by
    intro w hw
    simp only [stuckState, List.mem_cons, List.not_mem_nil, or_false] at hw
    rcases hw with rfl | rfl | rfl
    · exact lastEvent_inv 0 (by omega)
    · exact lastEvent_inv 5 (by omega)
    · exact idle_inv

theorem witness_DecodeOfEncodeIsTheCommand : (Instr.encI64D3 0xFFFF 0xFFFFFFFF).wellFormed = true := by decide

theorem witness_EncodeOfDecodeIsTheDescriptor : decodeWord 0x000000050000250D = .command (.encF64D3 37 5) := by decide

/-- One word for each reason, at the edges of the reserved fields, under either move. -/
theorem witness_DescriptorIsACommandIffNotReserved :
    (∀ w ∈ ([0x0, 0x14, 0x84, 0x01000004, 0x80000004] : List Word), ¬ ∃ i, decodeWord w = .command i) ∧
    (threes.setAgenda [.encode 0x14]).agenda = .encode 0x14 :: [] ∧ (threes.setAgenda [.issue 0x14]).agenda = .issue 0x14 :: [] := by
  refine ⟨?_, rfl, rfl⟩
  intro w hw
  simp only [List.mem_cons, List.not_mem_nil, or_false] at hw
  rcases hw with rfl | rfl | rfl | rfl | rfl <;> rintro ⟨i, h⟩ <;> revert h
  · rw [show decodeWord 0x0 = .reserved .dimsZero by decide]; simp
  · rw [show decodeWord 0x14 = .reserved .rsv0NotZero by decide]; simp
  · rw [show decodeWord 0x84 = .reserved .rsv0NotZero by decide]; simp
  · rw [show decodeWord 0x01000004 = .reserved .rsv1NotZero by decide]; simp
  · rw [show decodeWord 0x80000004 = .reserved .rsv1NotZero by decide]; simp

theorem witness_StepRunsTheDecodedCommand :
    (threes.setAgenda [.encode 0x306, .wait]).agenda = .encode 0x306 :: [.wait] ∧ decodeWord 0x306 = .command (.encI32D1 3 0) ∧
    (Instr.encI32D1 3 0).wellFormed = true ∧ decodeTableWord 64 0x306 = some (.encI32D1 3 0) := by decide

/-- The region fits exactly: one bit more would not. -/
theorem witness_EncF32CommandsCompleteAsListed :
    Accepts (withStream 3 onesF32) Worker.reset ∧ OperandFinite (withStream 3 onesF32) .f32 1 ∧
    OperandFinite (withStream 3 onesF32) .f32 2 ∧ OperandFinite (withStream 3 onesF32) .f32 3 ∧
    RegionFits (withStream 3 onesF32).params 96 1 := by
  refine ⟨⟨rfl, rfl⟩, ?_, ?_, ?_, ?_⟩ <;> simp only [OperandFinite, RegionFits] <;> decide +kernel

theorem witness_EncF64CommandsCompleteAsListed :
    Accepts (withStream 3 onesF64) Worker.reset ∧ OperandFinite (withStream 3 onesF64) .f64 1 ∧
    OperandFinite (withStream 3 onesF64) .f64 2 ∧ OperandFinite (withStream 3 onesF64) .f64 3 ∧
    RegionFits (withStream 3 onesF64).params 96 1 := by
  refine ⟨⟨rfl, rfl⟩, ?_, ?_, ?_, ?_⟩ <;> simp only [OperandFinite, RegionFits] <;> decide +kernel

theorem witness_EncI32CommandsCompleteAsListed :
    Accepts (withStream 3 threes) Worker.reset ∧ isFloat Kind.i32 = false ∧ RegionFits (withStream 3 threes).params 96 1 := by
  refine ⟨⟨rfl, rfl⟩, rfl, ?_⟩; simp only [RegionFits]; decide

theorem witness_EncI64CommandsCompleteAsListed :
    Accepts (withStream 3 threes) Worker.reset ∧ isFloat Kind.i64 = false ∧ RegionFits (withStream 3 threes).params 96 1 := by
  refine ⟨⟨rfl, rfl⟩, rfl, ?_⟩; simp only [RegionFits]; decide

/-- A block whose last scalar is a NaN, and one that is finite. -/
theorem witness_CommandIsRefusedForItsBlockIffNotFinite :
    Accepts (start [0, 0, 0, 0x7F800001]) Worker.reset ∧ exponentField .f32 (cell (start [0, 0, 0, 0x7F800001]).port.block 3) = 255 ∧
    Accepts onesF32 Worker.reset := ⟨⟨rfl, rfl⟩, by decide +kernel, rfl, rfl⟩

theorem witness_BusyWorkerRefusesEveryCommand : atWork.workers[atWork.port.worker]? = some (lastEvent 0) ∧ (lastEvent 0).busy = true :=
  ⟨rfl, rfl⟩

/-- A stream one word too short for the block, and one that is long enough. -/
theorem witness_StuckCommandKeepsItsEarlierEvents :
    Accepts (withStream 2 onesF32) Worker.reset ∧ OperandFinite (withStream 2 onesF32) .f32 1 ∧
    Accepts (withStream 3 onesF32) Worker.reset ∧ OperandFinite (withStream 3 onesF32) .f32 1 := by
  refine ⟨⟨rfl, rfl⟩, ?_, ⟨rfl, rfl⟩, ?_⟩ <;> simp only [OperandFinite] <;> decide +kernel

theorem witness_StuckWorkerNeverMovesUntilReset :
    stuckState.Inv ∧ stuckState.workers[1]? = some (lastEvent 5) ∧ (lastEvent 5).IsStuck stuckState.params ∧
    (∀ rest, ([.worker 1, .worker 0] : List Move) ≠ .reset :: rest) ∧
    ∃ t, step (stuckState.setAgenda [.worker 1, .worker 0]) = .next t ∧ t.stream == [(0, 6)] :=
  ⟨stuckState_inv, rfl, ⟨rfl, _, rfl, by decide⟩, by simp, of_holdsNext (p := fun t => t.stream == [(0, 6)]) (by decide +kernel)⟩

theorem witness_CommandSetsOnlyBitsOfItsRegion :
    threes.stream.wf = true ∧ (∃ t, exec (.encI32D1 3 0) threes = .next t ∧ t.agenda == []) ∧ ByteOutside 3 0 1 :=
  ⟨by decide, of_holdsNext (p := fun t => t.agenda == []) (by decide +kernel), by simp [ByteOutside]⟩

/-- Two neighbouring regions, and an event that sets the first bit of one. -/
theorem witness_EventsOfACommandStayInItsRegion :
    (∃ ev ∈ commandEvents Config.Params.atReset .f32 1 9 1 (List.replicate 4 0x3F800000), ev.sets 9 = true) ∧
    ∀ p, ¬ (InRegion 9 1 p ∧ InRegion 9 2 p) := by
  refine ⟨⟨{ addr := 0, value := 0x101 <<< 9 }, by decide +kernel, by decide +kernel⟩, ?_⟩
  intro p h
  simp only [InRegion] at h
  omega

theorem witness_CommandPlacesItsBitsInOrder :
    Accepts (withStream 3 onesF32) Worker.reset ∧ OperandFinite (withStream 3 onesF32) .f32 2 ∧
    RegionFits (withStream 3 onesF32).params 96 1 ∧ (withStream 3 onesF32).stream.wf = true := by
  refine ⟨⟨rfl, rfl⟩, ?_, ?_, by decide⟩ <;> simp only [OperandFinite, RegionFits] <;> decide +kernel

theorem witness_ZeroBudgetCommandWritesNothing :
    (Instr.encF32D1 0 5).maxbits = 0 ∧ Accepts onesF32 Worker.reset ∧ OperandFinite onesF32 .f32 1 := by
  refine ⟨rfl, ⟨rfl, rfl⟩, ?_⟩; simp only [OperandFinite]; decide +kernel

/-- Zeros of both signs. -/
theorem witness_ZeroFloatBlockWritesNothing :
    Accepts (start [0, 0x80000000, 0, 0x80000000]) Worker.reset ∧
    ∀ j < blockSize 1, magnitudeField .f32 (cell (start [0, 0x80000000, 0, 0x80000000]).port.block j) = 0 :=
  ⟨⟨rfl, rfl⟩, by decide +kernel⟩

theorem witness_ZeroIntegerBlockWritesZeroBits :
    Accepts (withStream 3 (start [])) Worker.reset ∧ (withStream 3 (start [])).stream.wf = true ∧
    RegionFits (withStream 3 (start [])).params 96 1 ∧
    ∀ j < blockSize 1, lowBits 32 (cell (withStream 3 (start [])).port.block j) = 0 := by
  refine ⟨⟨rfl, rfl⟩, by decide, ?_, by decide +kernel⟩; simp only [RegionFits]; decide

theorem witness_RepeatingACommandChangesNothing :
    threes.stream.wf = true ∧
    ∃ t, exec (.encI32D1 3 0) threes = .next t ∧ holdsNext (exec (.encI32D1 3 0) t) (fun u => u.agenda == []) :=
  ⟨by decide, of_holdsNext (p := fun t => holdsNext (exec (.encI32D1 3 0) t) (fun u => u.agenda == [])) (by decide +kernel)⟩

theorem witness_EveryStepKeepsTheInvariant :
    (atWork.setAgenda [.worker 1]).Inv ∧ ∃ t, step (atWork.setAgenda [.worker 1]) = .next t ∧ t.stream == [(0, 6), (8, 1)] :=
  ⟨⟨atWork_inv.canonical, atWork_inv.bounded, atWork_inv.port, atWork_inv.workers⟩,
    of_holdsNext (p := fun t => t.stream == [(0, 6), (8, 1)]) (by decide +kernel)⟩

theorem witness_ParametersAndWorkerCountNeverChange :
    ∃ t, step (stuckState.setAgenda [.reset]) = .next t ∧ t.workers == List.replicate 3 Worker.reset :=
  of_holdsNext (p := fun t => t.workers == List.replicate 3 Worker.reset) (by decide +kernel)

theorem witness_PhasesFollowTheSequence : aboutToCast.pending = [] ∧ (aboutToCast.advance Config.Params.atReset).phase = .xform :=
  ⟨rfl, rfl⟩

theorem witness_IssueLoadsTheWorker : Accepts onesF32 Worker.reset ∧ OperandFinite onesF32 .f32 3 := by
  refine ⟨⟨rfl, rfl⟩, ?_⟩; simp only [OperandFinite]; decide +kernel

theorem witness_IssuedWorkerOwesTheCommandsEvents :
    ∃ t, issueCommand .f32 1 64 2 onesF32 = .next t ∧ (t.workers[onesF32.port.worker]?).isSome :=
  of_holdsNext (p := fun t => (t.workers[onesF32.port.worker]?).isSome) (by decide +kernel)

/-- A run that issues to one worker and lets it go on to its end. -/
def shortRun : State := threes.setAgenda [.issue 0x306, .read 0, .wait]

theorem witness_FinalStreamIsTheOrOfAllEvents :
    shortRun.Inv ∧ allIdle shortRun.workers = true ∧ (∀ mv ∈ shortRun.agenda, mv.leavesStreamToWorkers = true) ∧
    (∀ ev ∈ eventsOfRun 14 shortRun, ev.addr < shortRun.params.streamWords) ∧ eventsOfRun 14 shortRun ≠ [] ∧
    ∃ t, Sys2Proof.core.run 14 shortRun = .next t ∧ allIdle t.workers = true :=
  ⟨⟨by decide, by decide, by decide, by
      intro w hw
      simp only [shortRun, threes, start, State.reset, Config.workersAtReset, State.setPort, State.setAgenda, List.mem_replicate] at hw
      exact hw.2 ▸ idle_inv⟩,
    by decide, by decide, by decide +kernel, by decide +kernel, of_holdsNext (p := fun t => allIdle t.workers) (by decide +kernel)⟩

theorem witness_AnyTwoSchedulesLeaveTheSameStream :
    atWork.Inv ∧ RemainingInRange atWork ∧ IsSchedule atWork ([0, 0, 0, 1, 1, 1].map Move.worker) ∧
    IsSchedule atWork ([1, 0, 2, 1, 0, 1, 0].map Move.worker) ∧
    (∃ t, runAgenda (atWork.setAgenda ([0, 0, 0, 1, 1, 1].map Move.worker)) = .next t ∧ allIdle t.workers = true) ∧
    ∃ t, runAgenda (atWork.setAgenda ([1, 0, 2, 1, 0, 1, 0].map Move.worker)) = .next t ∧ allIdle t.workers = true := by
  refine ⟨atWork_inv, ?_, ?_, ?_, of_holdsNext (p := fun t => allIdle t.workers) (by decide +kernel),
    of_holdsNext (p := fun t => allIdle t.workers) (by decide +kernel)⟩
  · unfold RemainingInRange; decide +kernel
  · simp [IsSchedule, atWork]
  · simp [IsSchedule, atWork]

theorem witness_CommandInFlightCompletes :
    atWork.Inv ∧ atWork.workers[1]? = some (lastEvent 1) ∧ (lastEvent 1).busy = true ∧
    (∀ ev ∈ (lastEvent 1).remaining atWork.params, ev.addr < atWork.params.streamWords) ∧ (lastEvent 1).remaining atWork.params ≠ [] :=
  ⟨atWork_inv, rfl, rfl, by decide +kernel, by decide +kernel⟩

theorem witness_CompletionIsSignalledAfterTheLastEvent :
    ({ atWork with workers := [allDone] } : State).Inv ∧ ({ atWork with workers := [allDone] } : State).workers[0]? = some allDone ∧
    allDone.phase = .done ∧ allDone.done = false ∧
    ∃ t, ({ atWork with workers := [allDone] } : State).workerStep 0 = some t ∧ t.workers[0]? = some allDone.signalDone :=
  ⟨⟨atWork_inv.canonical, atWork_inv.bounded, atWork_inv.port, by
      intro w hw
      simp only [List.mem_cons, List.not_mem_nil, or_false] at hw
      exact hw ▸ allDone_inv⟩, rfl, rfl, rfl, _, rfl, rfl⟩

theorem witness_ResetAbandonsCommandsInFlight :
    (atWork.setAgenda [.reset, .wait]).agenda = .reset :: [.wait] ∧
    ∃ t, step (atWork.setAgenda [.reset, .wait]) = .next t ∧ t.workers.length == 3 :=
  ⟨rfl, of_holdsNext (p := fun t => t.workers.length == 3) (by decide +kernel)⟩

theorem witness_HostPresentLoadsThePort :
    (threes.setAgenda [.present 1 [7, 8]]).agenda = .present 1 [7, 8] :: [] ∧ (threes.setAgenda [.present 1 [7, 8]]).port.block.length = 64 := by
  decide +kernel

/-- All of the stream, with no command in flight and with one; one word more. -/
theorem witness_HostZeroClearsExactlyItsWords :
    (threes.setAgenda [.zero (2 ^ 42)]).agenda = .zero (2 ^ 42) :: [] ∧ threes.stream.wf = true ∧
    2 ^ 42 ≤ threes.params.streamWords ∧ allIdle threes.workers = true ∧
    4 ≤ atWork.params.streamWords ∧ allIdle atWork.workers = false ∧ atWork.stream.wf = true ∧
    atWork.params.streamWords < 5 := by decide +kernel

theorem witness_HostReadAnswersTheWord :
    (atWork.setAgenda [.read 3]).agenda = .read 3 :: [] ∧ 3 < atWork.params.streamWords ∧ atWork.params.streamWords ≤ 4 := by
  decide +kernel

/-- No command in flight; one that can move; one that is stuck with no other. -/
theorem witness_HostWaitHoldsUntilNoCommandIsInFlight :
    (threes.setAgenda [.wait]).agenda = .wait :: [] ∧ allIdle threes.workers = true ∧
    allIdle atWork.workers = false ∧ (atWork.workerStep 0).isSome ∧
    allIdle ({ atWork with workers := [lastEvent 5] } : State).workers = false ∧
    (({ atWork with workers := [lastEvent 5] } : State).workerStep 0).isNone := by decide +kernel

theorem witness_AtomicOrIsAnIdempotentCommutingOr : Memory.wf [(0, 6), (9, 1)] = true ∧ ({ addr := 1, value := 0 } : Event).value = 0 := by
  decide

theorem witness_WriterConstructionPlacesTheBlock :
    ({ Worker.reset with phase := .setup } : Worker).phase = .setup ∧ ({ Worker.reset with phase := .setup } : Worker).pending = [] ∧
    ((0 : BitVec 32) = 0 ∨ (0xFFFF : BitVec 16) = 0) ∧ ((0xFFFFFFFF : BitVec 32) = 0 ∨ (0 : BitVec 16) = 0) := by decide

theorem witness_WriteBitsPlacesItsBits : Memory.wf [(8, 1)] = true ∧ 64 ≤ 64 ∧ 0 ≤ 64 := by decide

/-- An empty window, one that ends at a word's top bit, one a bit longer. -/
theorem witness_StraddlingWindowIsSplitInTwo :
    let c : Cursor := { wordIndex := 2, startBit := 57, currentBit := 0 }
    0 ≤ 64 ∧ (0 < 7 ∧ c.pos % 64 + 7 ≤ 64 ∧ 7 ≤ 64) ∧ 64 < c.pos % 64 + 8 ∧ 8 ≤ 64 ∧ 64 < (c.forward 64).pos % 64 + 64 := by decide

theorem witness_NegabinaryMapIsABijection :
    IsInt 32 (-2147483648) ∧ IsInt 32 2147483647 ∧ IsInt 64 (-9223372036854775808) ∧ IsInt 64 9223372036854775807 ∧
    4294967295 < 2 ^ 32 ∧ 18446744073709551615 < 2 ^ 64 := by simp only [IsInt]; decide

/-- The largest value for which the sum is exact, and the next. -/
theorem witness_NegabinaryMapIsBaseMinusTwo :
    IsInt 32 1431655765 ∧ 2 * (1431655765 : Int) ≤ negabinaryMask 32 ∧ IsInt 32 1431655766 ∧
    ¬ 2 * (1431655766 : Int) ≤ negabinaryMask 32 := by simp only [IsInt]; decide

/-- Zero, the denormals' ends, the normals' ends. -/
theorem witness_ExponentIsClampedFloorLogPlusOne :
    isFloat .f32 = true ∧
    ([0, 1, 0x007FFFFF, 0x00800000, 0xFF7FFFFF] : List Word).map (isFiniteScalar .f32) = List.replicate 5 true := by decide +kernel

theorem witness_EmaxIsExponentOfTheLargestMagnitude :
    isFloat .f64 = true ∧ isFiniteBlock .f64 [0xC01D000000000000, 0x3F50624DD2F1A9FC] = true ∧
    ([0xC01D000000000000, 0x3F50624DD2F1A9FC] : List Word) ≠ [] ∧ isFiniteBlock .f64 [0x8000000000000000] = true ∧
    aboutToCast.phase = .cast ∧ ({ aboutToCast with phase := .exponent } : Worker).phase = .exponent := by decide

/-- Blocks of zeros, of denormals, and with a normal largest scalar at both ends of its range. -/
theorem witness_BiasedExponentAndHeaderFitTheirFields :
    (isFiniteBlock .f32 [0, 0x80000000] = true ∧ ∀ p ∈ ([0, 0x80000000] : List Word), magnitudeField .f32 p = 0) ∧
    (isFiniteBlock .f32 [0, 0x007FFFFF] = true ∧ (∃ p ∈ ([0, 0x007FFFFF] : List Word), magnitudeField .f32 p ≠ 0) ∧
      ∀ p ∈ ([0, 0x007FFFFF] : List Word), exponentField .f32 p = 0) ∧
    (isFiniteBlock .f32 [0x00800000, 1] = true ∧ exponentField .f32 0x00800000 ≠ 0 ∧
      ∀ q ∈ ([0x00800000, 1] : List Word), exponentField .f32 q ≤ exponentField .f32 0x00800000) ∧
    isFiniteBlock .f32 [0x7F7FFFFF, 1] = true ∧ exponentField .f32 0x7F7FFFFF ≠ 0 ∧
      ∀ q ∈ ([0x7F7FFFFF, 1] : List Word), exponentField .f32 q ≤ exponentField .f32 0x7F7FFFFF := by
  simp only [List.forall_mem_cons, List.exists_mem_cons_iff]
  simp [isFiniteBlock, isFiniteScalar, magnitudeField, exponentField, width, fbits, ebits]

/-- F64 blocks at `emax = -1018`, just below it, and at `-1023`; an F32 block. -/
theorem witness_MaxprecUnderTheDefaultParameters :
    isFiniteBlock .f64 [0x0040000000000000] = true ∧ maxExponent .f64 [0x0040000000000000] = -1018 ∧
    isFiniteBlock .f64 [0x0030000000000000] = true ∧ maxExponent .f64 [0x0030000000000000] = -1019 ∧
    isFiniteBlock .f64 [0] = true ∧ maxExponent .f64 [0] = -1023 ∧ isFiniteBlock .f32 [0] = true := by decide +kernel

theorem witness_CastIsTheExactProductTruncated :
    isFiniteScalar .f32 0x00000001 = true ∧ isFiniteScalar .f32 0x7F7FFFFF = true ∧ isFloat aboutToCast.kind = true ∧
    aboutToCast.phase = .cast ∧ isFiniteBlock aboutToCast.kind (blockCells (blockSize aboutToCast.dims) aboutToCast.fblk) = true ∧
    aboutToCast.emax = maxExponent aboutToCast.kind (blockCells (blockSize aboutToCast.dims) aboutToCast.fblk) := by decide +kernel

theorem witness_CastLeavesTwoHeadroomBits :
    isFiniteBlock .f64 [0x7FEFFFFFFFFFFFFF, 0x8000000000000001] = true ∧
    0x8000000000000001 ∈ ([0x7FEFFFFFFFFFFFFF, 0x8000000000000001] : List Word) := by decide +kernel

theorem witness_LiftStoresReversedAndTouchesFourCells : 0 < 16 ∧ 15 + 3 * 16 < (List.replicate 64 (1 : Int)).length := by decide

theorem witness_LiftIsUndoneWhenItsSumsAreEven :
    let q : Quad := { x := 16, y := 0, z := 0, w := 0 }
    IsInt 32 q.x ∧ IsInt 32 q.y ∧ IsInt 32 q.z ∧ IsInt 32 q.w ∧ ∀ v ∈ liftHalvedSums 32 q, v % 2 = 0 := by
  simp only [IsInt]; decide +kernel

theorem witness_TransformOfAConstantBlockIsDCOnly :
    -2 ^ (32 - 2) < (1073741823 : Int) ∧ (1073741823 : Int) < 2 ^ (32 - 2) ∧ -2 ^ (64 - 2) < (-4611686018427387903 : Int) := by decide

theorem witness_TablesArePermutationsInSequencyOrder : 1 = 1 ∨ 1 = 2 ∨ 1 = 3 := by decide

/-- A block whose `e` is 0, and one whose is not. -/
theorem witness_FloatCodeIsHeaderThenPlanes :
    isFloat .f32 = true ∧ isFiniteBlock .f32 [0, 0, 0, 0] = true ∧ commandExponent Config.Params.atReset .f32 [0, 0, 0, 0] = 0 ∧
    isFiniteBlock .f32 [1, 0, 0, 0] = true ∧ commandExponent Config.Params.atReset .f32 [1, 0, 0, 0] ≠ 0 := by decide +kernel

theorem witness_PlaneCodeIsRawBitsThenGroups :
    64 ≤ 64 ∧ ({ k := 32, kmin := 0, n := 64, bits := 5, x := 0 } : PlaneRegs).n ≤ 64 := by decide

theorem witness_CodeUnderABudgetIsAPrefix : 64 ≤ 64 := by decide

theorem witness_CodeSpendsItsBudgetExactly : (0 = 0 ∨ 32 = 0) ∧ (64 = 0 ∨ 0 = 0) := by decide

theorem witness_PlaneWordHoldsTheKthBits : 64 ≤ 64 := by decide

end Sys2Proof.Tests
end

