-- ==== Sys2Proof/Proofs/Completion.lean ====
section
/-! The completion of a command (R35): phase `DONE` is the only one whose action signals, and it acts with no event left. -/

namespace Sys2Proof.Machine

/-- Every action but that of `DONE` leaves the completion signal as it is (R35, log 18). -/
theorem Worker.advance_keeps_done {p : Config.Params} {w : Worker} (h : w.phase ≠ .done) :
    (w.advance p).done = w.done := by
  cases hp : w.phase with
  | idle => simp [Worker.advance, hp]
  | setup => rw [Worker.advance_setup hp, setupPhase]; split <;> rfl
  | exponent => rw [Worker.advance_exponent hp, exponentPhase]; dsimp only; split <;> rfl
  | header => rw [Worker.advance_header hp, Worker.enter_done]
  | cast => rw [Worker.advance_cast hp, castPhase]
  | xform => rw [Worker.advance_xform hp, xformPhase]
  | order => rw [Worker.advance_order hp, orderPhase]
  | planes => rw [Worker.advance_planes hp, planesPhase]; split <;> rfl
  | done => exact absurd hp h

/-- A small step that raises the completion signal is one from `DONE`: performing an event does not touch the signal. -/
theorem Worker.smallStep_raises_done {p : Config.Params} {w w' : Worker} {m m' : Memory}
    (h : w.smallStep p m = some (w', m')) (hlow : w.done = false) (hhigh : w'.done = true) : w.phase = .done := by
  by_contra hne
  obtain ⟨-, ⟨-, rfl, -⟩ | ⟨ev, evs, -, -, rfl, -⟩⟩ := Worker.smallStep_cases h
  · rw [Worker.advance_keeps_done hne, hlow] at hhigh
    cases hhigh
  · simp [hlow] at hhigh

/-- In `DONE` the invariant leaves no event pending (R34, R35). -/
theorem Worker.Inv.pending_of_done {w : Worker} (hw : w.Inv) (h : w.phase = .done) : w.pending = [] :=
  hw.quiet (by simp [h]) (by simp [h])

theorem Worker.smallStep_of_done {p : Config.Params} {w : Worker} {m : Memory} (h : w.phase = .done) (hp : w.pending = []) :
    w.smallStep p m = some (w.signalDone, m) := by
  simp [Worker.smallStep, h, hp, Worker.advance_done h]

theorem Worker.futureEvents_of_idle {p : Config.Params} {w : Worker} (fuel : Nat) (h : w.phase = .idle) :
    w.futureEvents p fuel = [] := by
  cases fuel <;> simp [Worker.futureEvents, h]

/-- A worker in `DONE` with nothing pending produces no event: its one action returns it to `IDLE`. -/
theorem Worker.futureEvents_of_done {p : Config.Params} {w : Worker} (fuel : Nat) (h : w.phase = .done) (hp : w.pending = []) :
    w.futureEvents p fuel = [] := by
  have hclear : { w with pending := [] } = w := by rw [← hp]
  cases fuel with
  | zero => simp [Worker.futureEvents, hp]
  | succ fuel =>
    have hnext : (w.advance p).futureEvents p fuel = [] :=
      Worker.futureEvents_of_idle fuel (by rw [Worker.advance_done h, Worker.signalDone_phase])
    simp [Worker.futureEvents, hclear, hp, hnext]

theorem Worker.remaining_of_done {p : Config.Params} {w : Worker} (h : w.phase = .done) (hp : w.pending = []) :
    w.remaining p = [] := Worker.futureEvents_of_done sequencerBound h hp

/-- The step of a worker with a small step. -/
theorem State.workerStep_of_smallStep {s : State} {i : Nat} {w w' : Worker} {m : Memory} (hw : s.workers[i]? = some w)
    (h : w.smallStep s.params s.stream = some (w', m)) : s.workerStep i = some ((s.setWorker i w').setStream m) := by
  simp [State.workerStep, hw, h]

/-- A worker just set is the one found. -/
theorem State.setWorker_getElem?_self {s : State} {i : Nat} {w : Worker} (w' : Worker) (hw : s.workers[i]? = some w) :
    (s.setWorker i w').workers[i]? = some w' := by
  obtain ⟨hi, -⟩ := List.getElem?_eq_some_iff.mp hw
  rw [State.setWorker_workers, List.getElem?_set_self hi]

/-- The step from `DONE` with nothing pending: completion is signalled, the worker is `IDLE`, the stream is untouched (R35). -/
theorem State.workerStep_of_done {s : State} {j : Nat} {w : Worker} (hw : s.workers[j]? = some w) (h : w.phase = .done)
    (hp : w.pending = []) : ∃ t, s.workerStep j = some t ∧ WorkerDone t j ∧ t.stream = s.stream :=
  ⟨_, State.workerStep_of_smallStep hw (Worker.smallStep_of_done h hp),
    ⟨w.signalDone, State.setWorker_getElem?_self _ hw, rfl, rfl, hp⟩, rfl⟩

/-- A worker's step that raises its completion signal is one from `DONE`. -/
theorem State.workerStep_raises_done {s t : State} {j : Nat} {w w' : Worker} (hw : s.workers[j]? = some w)
    (ht : s.workerStep j = some t) (hw' : t.workers[j]? = some w') (hlow : w.done = false) (hhigh : w'.done = true) :
    w.phase = .done := by
  obtain ⟨v, v', m, hv, hstep, rfl⟩ := State.workerStep_some ht
  obtain rfl : w = v := Option.some.inj (hw.symm.trans hv)
  obtain rfl : v' = w' := Option.some.inj ((State.setWorker_getElem?_self v' hw).symm.trans hw')
  exact Worker.smallStep_raises_done hstep hlow hhigh

end Sys2Proof.Machine

namespace Sys2Proof

open Machine

/-- Settles O32: in `DONE` nothing is pending by the invariant, and of all the sequencer's actions only that of `DONE` signals. -/
theorem completionIsSignalledAfterTheLastEvent : Obligations.CompletionIsSignalledAfterTheLastEvent := by
  intro s j w hs hw
  refine ⟨fun hdone => ?_, fun t w' ht hw' hlow hhigh => State.workerStep_raises_done hw ht hw' hlow hhigh⟩
  have hp : w.pending = [] := (hs.workers w (List.mem_of_getElem? hw)).pending_of_done hdone
  exact ⟨Worker.remaining_of_done hdone hp, State.workerStep_of_done hw hdone hp⟩

end Sys2Proof
end

/-! What a worker still owes (R32, R62). `futureEvents` bounds the sequencer's actions by a number; the actions a worker has left are
counted here, and where the bound suffices the events left obey one equation per step (log 24). -/

namespace Sys2Proof.Machine

/-- How many actions of the sequencer bring a command to its end: the phases to come (R34), and in `PLANES` a pass for each plane down
to 0, the end of the loop and the return to `IDLE` (R189). -/
def Worker.actionsLeft (w : Worker) : Nat :=
  match w.phase with
  | .idle => 0
  | .setup => 72
  | .exponent => 71
  | .header => 70
  | .cast => 69
  | .xform => 68
  | .order => 67
  | .planes => w.planes.k + 2
  | .done => 1

theorem width_le (kind : Kind) : width kind ≤ 64 := by cases kind <;> decide

theorem Worker.actionsLeft_of_planes {w : Worker} (h : w.phase = .planes) : w.actionsLeft = w.planes.k + 2 := by
  simp [Worker.actionsLeft, h]

/-- Outside `PLANES` the bound of `remaining` suffices (log 24). -/
theorem Worker.actionsLeft_le {w : Worker} (h : w.phase ≠ .planes) : w.actionsLeft ≤ sequencerBound := by
  rw [Worker.actionsLeft]
  split <;> simp_all [sequencerBound]

/-- Every action of a busy worker brings it nearer to the end of its command. -/
theorem Worker.actionsLeft_advance {w : Worker} (p : Config.Params) (hb : w.phase ≠ .idle) :
    (w.advance p).actionsLeft < w.actionsLeft := by
  cases hp : w.phase with
  | idle => exact absurd hp hb
  | setup => rw [Worker.advance_setup hp, setupPhase]; split <;> simp [Worker.actionsLeft, hp]
  | exponent => rw [Worker.advance_exponent hp, exponentPhase]; dsimp only; split <;> simp [Worker.actionsLeft, hp]
  | header => simp [Worker.advance_header hp, Worker.actionsLeft, hp]
  | cast => simp [Worker.advance_cast hp, castPhase, Worker.actionsLeft, hp]
  | xform => simp [Worker.advance_xform hp, xformPhase, Worker.actionsLeft, hp]
  | order =>
    have := width_le w.kind
    simp [Worker.advance_order hp, orderPhase, Worker.actionsLeft, hp, PlaneRegs.start]
    omega
  | planes =>
    rw [Worker.advance_planes hp, planesPhase]
    split
    · rename_i hmore
      have hk : w.planes.kmin < w.planes.k := by simp_all [PlaneRegs.more]
      simp [Worker.actionsLeft, hp, codePlane]
      omega
    · simp [Worker.actionsLeft, hp]
  | done => simp [Worker.advance_done hp, Worker.actionsLeft, hp]

/-- A bound that covers the actions left leaves nothing out: a larger one gives the same events. -/
theorem Worker.futureEvents_succ_of_le {p : Config.Params} {fuel : Nat} {w : Worker} (h : w.actionsLeft ≤ fuel) :
    w.futureEvents p (fuel + 1) = w.futureEvents p fuel := by
  by_cases hb : w.phase = .idle
  · rw [Worker.futureEvents_of_idle _ hb, Worker.futureEvents_of_idle _ hb]
  · have hlt : (Worker.advance p { w with pending := [] }).actionsLeft < w.actionsLeft :=
      Worker.actionsLeft_advance (w := { w with pending := [] }) p hb
    induction fuel generalizing w with
    | zero => omega
    | succ fuel ih =>
      have hnext : (Worker.advance p { w with pending := [] }).futureEvents p (fuel + 1) =
          (Worker.advance p { w with pending := [] }).futureEvents p fuel := by
        by_cases hi : (Worker.advance p { w with pending := [] }).phase = .idle
        · rw [Worker.futureEvents_of_idle _ hi, Worker.futureEvents_of_idle _ hi]
        · exact ih (by omega) hi (Worker.actionsLeft_advance (w := { Worker.advance p { w with pending := [] } with pending := [] }) p hi)
      rw [Worker.futureEvents, hnext, Worker.futureEvents]

theorem Worker.remaining_of_idle {p : Config.Params} {w : Worker} (h : w.phase = .idle) : w.remaining p = [] :=
  Worker.futureEvents_of_idle _ h

/-- What a busy worker owes: its pending events, then what it owes after the sequencer's next action. -/
theorem Worker.remaining_of_busy {p : Config.Params} {w : Worker} (hb : w.phase ≠ .idle) (hle : w.actionsLeft ≤ sequencerBound) :
    w.remaining p = w.pending ++ (Worker.advance p { w with pending := [] }).remaining p := by
  have hlt : (Worker.advance p { w with pending := [] }).actionsLeft < w.actionsLeft :=
    Worker.actionsLeft_advance (w := { w with pending := [] }) p hb
  have hnext : (Worker.advance p { w with pending := [] }).futureEvents p sequencerBound =
      (Worker.advance p { w with pending := [] }).futureEvents p (sequencerBound - 1) :=
    Worker.futureEvents_succ_of_le (fuel := sequencerBound - 1) (by omega)
  rw [Worker.remaining, Worker.remaining, hnext]
  exact if_pos ((Worker.busy_iff w).mpr hb)

/-- An action of the sequencer, taken with nothing pending, leaves what the worker owes as it is. -/
theorem Worker.remaining_advance {p : Config.Params} {w : Worker} (hb : w.phase ≠ .idle) (hp : w.pending = [])
    (hle : w.actionsLeft ≤ sequencerBound) : (w.advance p).remaining p = w.remaining p := by
  have hclear : { w with pending := [] } = w := by rw [← hp]
  rw [Worker.remaining_of_busy hb hle, hclear, hp, List.nil_append]

/-- Outside `PLANES`, with nothing pending, a worker owes what it owes after the phase it is in. -/
theorem Worker.remaining_of_phase {p : Config.Params} {w : Worker} {ph : Phase} (h : w.phase = ph) (hp : w.pending = [])
    (hph : ph ≠ .idle ∧ ph ≠ .planes) : w.remaining p = (w.advance p).remaining p := by
  subst h
  exact (Worker.remaining_advance hph.1 hp (Worker.actionsLeft_le hph.2)).symm

/-- Performing the first pending events takes just these from what the worker owes. -/
theorem Worker.remaining_of_pending_append {p : Config.Params} {w : Worker} {made left : List Event} (hb : w.phase ≠ .idle)
    (hle : w.actionsLeft ≤ sequencerBound) (hp : w.pending = made ++ left) :
    w.remaining p = made ++ Worker.remaining p { w with pending := left } := by
  rw [Worker.remaining_of_busy hb hle, Worker.remaining_of_busy (w := { w with pending := left }) hb hle, hp, List.append_assoc]

/-- What a busy worker owes: its pending events first. -/
theorem Worker.remaining_eq_pending_append {p : Config.Params} {w : Worker} (hb : w.phase ≠ .idle)
    (hle : w.actionsLeft ≤ sequencerBound) : w.remaining p = w.pending ++ Worker.remaining p { w with pending := [] } :=
  Worker.remaining_of_pending_append hb hle (List.append_nil _).symm

end Sys2Proof.Machine

/-! The events a worker owes right after the issue of a command are those of its listing (R62, first half): what the phases of R34 do,
from the last to the first, against `commandEvents`. The cells of `iblk` give back what was written into them because the cast leaves
room (R132) and the transform wraps (R141). -/

namespace Sys2Proof.Machine

/-! ### The cast fits its cells -/

/-- The magnitude pattern is the exponent field above the fraction field (R86). -/
theorem magnitudeField_eq {kind : Kind} (hk : isFloat kind = true) (p : Word) :
    magnitudeField kind p = 2 ^ fbits kind * exponentField kind p + fractionField kind p := by
  have hw : width kind - 1 = fbits kind + ebits kind := by cases kind <;> simp_all [isFloat, width, fbits, ebits]
  rw [magnitudeField, hw, pow_add, Nat.mod_mul, exponentField, fractionField, Nat.add_comm]

theorem fractionField_lt (kind : Kind) (p : Word) : fractionField kind p < 2 ^ fbits kind := Nat.mod_lt _ (by positivity)

/-- A smaller magnitude has no larger exponent field (R125). -/
theorem exponentField_mono {kind : Kind} (hk : isFloat kind = true) {p q : Word}
    (h : magnitudeField kind p ≤ magnitudeField kind q) : exponentField kind p ≤ exponentField kind q := by
  have hp := fractionField_lt kind p
  have hq := fractionField_lt kind q
  rw [magnitudeField_eq hk, magnitudeField_eq hk] at h
  by_contra hlt
  have : 2 ^ fbits kind * (exponentField kind q + 1) ≤ 2 ^ fbits kind * exponentField kind p :=
    Nat.mul_le_mul_left _ (by omega)
  rw [Nat.mul_add] at this
  omega

/-- The shifter's result is bounded by the significand's width and the shift (R131). -/
theorem castMagnitude_lt_of_shift {kind : Kind} {emax : Int} {p : Word} {a b : Nat} (hsig : significand kind p < 2 ^ a) (hab : a ≤ b)
    (hsh : castShift kind emax p ≤ (b : Int) - a) : castMagnitude kind emax p < 2 ^ b := by
  rw [castMagnitude]
  split
  · calc significand kind p * 2 ^ (castShift kind emax p).toNat
        < 2 ^ a * 2 ^ (castShift kind emax p).toNat := Nat.mul_lt_mul_of_pos_right hsig (by positivity)
      _ = 2 ^ (a + (castShift kind emax p).toNat) := (pow_add _ _ _).symm
      _ ≤ 2 ^ b := Nat.pow_le_pow_right (by norm_num) (by omega)
  · calc significand kind p / 2 ^ (-castShift kind emax p).toNat
        ≤ significand kind p := Nat.div_le_self _ _
      _ < 2 ^ a := hsig
      _ ≤ 2 ^ b := Nat.pow_le_pow_right (by norm_num) hab

/-- The cast of a scalar against the exponent of one of at least its magnitude stays below `2^(N-2)` (R132). The three cases are those
of `exponent` (R122): the larger one normal, denormal, zero. -/
theorem castMagnitude_lt {kind : Kind} (hk : isFloat kind = true) {p q : Word}
    (h : magnitudeField kind p ≤ magnitudeField kind q) :
    castMagnitude kind (exponentOf kind q) p < 2 ^ (width kind - 2) := by
  have hroom : fbits kind + 3 ≤ width kind := by cases kind <;> simp_all [isFloat, width, fbits]
  have hexp := exponentField_mono hk h
  have hfrac := fractionField_lt kind p
  by_cases hq : exponentField kind q = 0
  · have hp : exponentField kind p = 0 := by omega
    by_cases hq0 : fractionField kind q = 0
    · have hp0 : fractionField kind p = 0 := by
        rw [magnitudeField_eq hk, magnitudeField_eq hk, hq, hq0, hp] at h
        omega
      have hsig : significand kind p = 0 := by rw [significand, if_pos hp, hp0]
      rw [castMagnitude, hsig]
      split <;> simp
    · refine castMagnitude_lt_of_shift (a := fbits kind) (by rw [significand, if_pos hp]; exact hfrac) (by omega) ?_
      simp only [castShift, effectiveExponent, exponentOf, factorExponent, hp, hq, hq0, if_true, if_false]
      omega
  · have hsig : significand kind p < 2 ^ (fbits kind + 1) := by rw [significand, pow_succ]; split <;> omega
    have heff : effectiveExponent kind p ≤ exponentField kind q := by rw [effectiveExponent]; split <;> omega
    refine castMagnitude_lt_of_shift hsig (by omega) ?_
    simp only [castShift, exponentOf, factorExponent, Config.eoff, hq, if_false]
    omega

/-- A running maximum is at least where it starts and each value met, and below any bound of them all. -/
theorem foldl_max_spec {f : Word → Nat} {bound m : Nat} (hf : ∀ p, f p < bound) (hm : m < bound) (l : List Word) :
    m ≤ l.foldl (fun m p => max m (f p)) m ∧ (∀ p ∈ l, f p ≤ l.foldl (fun m p => max m (f p)) m) ∧
      l.foldl (fun m p => max m (f p)) m < bound := by
  induction l generalizing m with
  | nil => simpa using hm
  | cons q l ih =>
    obtain ⟨hstart, hall, hlt⟩ := ih (max_lt hm (hf q))
    rw [List.foldl_cons, List.forall_mem_cons]
    exact ⟨(le_max_left _ _).trans hstart, ⟨(le_max_right _ _).trans hstart, hall⟩, hlt⟩

/-- The largest magnitude of a block is one, and none of the block exceeds it (R125). -/
theorem magnitudeField_le_max {kind : Kind} {block : List Word} {p : Word} (hp : p ∈ block) :
    magnitudeField kind p ≤ magnitudeField kind (BitVec.ofNat 64 (maxMagnitude kind block)) := by
  have hmod : ∀ q, magnitudeField kind q < 2 ^ (width kind - 1) := fun q => Nat.mod_lt _ (by positivity)
  obtain ⟨-, hle, hlt⟩ := foldl_max_spec hmod (m := 0) (by positivity) block
  have hwide : 2 ^ (width kind - 1) ≤ 2 ^ 64 := Nat.pow_le_pow_right (by norm_num) (by have := width_le kind; omega)
  have hself : magnitudeField kind (BitVec.ofNat 64 (maxMagnitude kind block)) = maxMagnitude kind block := by
    rw [← maxMagnitude] at hlt
    rw [magnitudeField, BitVec.toNat_ofNat, Nat.mod_eq_of_lt (lt_of_lt_of_le hlt hwide), Nat.mod_eq_of_lt hlt]
  rw [hself]
  exact hle p hp

/-- A float block is cast to `Int_N` values (R130, R132). -/
theorem castScalar_isInt {kind : Kind} (hk : isFloat kind = true) {block : List Word} {p : Word} (hp : p ∈ block) :
    IsInt (width kind) (castScalar kind (maxExponent kind block) p) := by
  have hlt := castMagnitude_lt hk (magnitudeField_le_max hp)
  have hle : (2 : Nat) ^ (width kind - 2) ≤ 2 ^ (width kind - 1) := Nat.pow_le_pow_right (by norm_num) (by omega)
  have hbound : ((castMagnitude kind (maxExponent kind block) p : Nat) : Int) < 2 ^ (width kind - 1) := by
    exact_mod_cast lt_of_lt_of_le hlt hle
  rw [IsInt, castScalar]
  split <;> constructor <;> omega

/-! ### The integer block -/

/-- `signed_N` of an `N`-bit number is an `Int_N` (R11). -/
theorem signedN_isInt {n u : Nat} (hn : 0 < n) (hu : u < 2 ^ n) : IsInt n (signedN n u) := by
  obtain ⟨k, rfl⟩ : ∃ k, n = k + 1 := ⟨n - 1, by omega⟩
  have hu' : (u : Int) < 2 ^ (k + 1) := by exact_mod_cast hu
  have hhalf : ((2 ^ k : Nat) : Int) = 2 ^ k := by push_cast; rfl
  rw [IsInt, signedN, Nat.add_sub_cancel]
  rw [pow_succ] at hu' ⊢
  split <;> constructor <;> omega

theorem intOfCell_isInt (kind : Kind) (c : Word) : IsInt (width kind) (intOfCell kind c) :=
  signedN_isInt (width_pos kind) (Nat.mod_lt _ (by positivity))

/-- The `Int_N` block that stands in `iblk` (R25, log 13). -/
def Worker.ints (w : Worker) : List Int := (blockCells (blockSize w.dims) w.iblk).map (intOfCell w.kind)

/-- The leading cells of a rewritten file, their number being known. -/
theorem blockCells_rewriteFile_of_length {size : Nat} {new : List Word} (h : new.length = size) (old : List Word) :
    blockCells size (rewriteFile new old) = new := h ▸ blockCells_rewriteFile new old

theorem blockCells_of_length {size : Nat} {l : List Word} (h : l.length = size) : blockCells size l = l := by
  simpa [rewriteFile] using blockCells_rewriteFile_of_length h []

theorem Worker.ints_isInt (w : Worker) : ∀ v ∈ w.ints, IsInt (width w.kind) v := by
  intro v hv
  obtain ⟨c, -, rfl⟩ := List.mem_map.mp hv
  exact intOfCell_isInt _ _

theorem Worker.length_ints (w : Worker) : w.ints.length = blockSize w.dims := by simp [Worker.ints]

/-- A block of `Int_N` written into `iblk` is read back. -/
theorem Worker.ints_of_rewriteFile {w : Worker} {vs : List Int} {old : List Word} (hw : w.iblk = rewriteFile (vs.map cellOfInt) old)
    (hl : vs.length = blockSize w.dims) (hv : ∀ v ∈ vs, IsInt (width w.kind) v) : w.ints = vs := by
  have hcells : blockCells (blockSize w.dims) w.iblk = vs.map cellOfInt := by
    rw [hw, blockCells_rewriteFile_of_length (by rw [List.length_map, hl])]
  rw [Worker.ints, hcells, List.map_map]
  exact (List.map_congr_left fun v h => intOfCell_cellOfInt (hv v h)).trans (List.map_id vs)

theorem forall_mem_set {α : Type} {P : α → Prop} {l : List α} {i : Nat} {a : α} (hl : ∀ v ∈ l, P v) (ha : P a) :
    ∀ v ∈ l.set i a, P v :=
  fun v hv => (List.mem_or_eq_of_mem_set hv).elim (hl v) (fun h => h ▸ ha)

/-- A lift leaves `Int_N` values (R141). -/
theorem fwdLift_isInt {n : Nat} (hn : 0 < n) {l : List Int} (hl : ∀ v ∈ l, IsInt n v) (p s : Nat) :
    ∀ v ∈ fwdLift n l p s, IsInt n v := by
  obtain ⟨hx, hy, hz, hw⟩ := liftSteps_isInt hn
    { x := l.getD p 0, y := l.getD (p + s) 0, z := l.getD (p + 2 * s) 0, w := l.getD (p + 3 * s) 0 }
  exact forall_mem_set (forall_mem_set (forall_mem_set (forall_mem_set hl hw) hz) hy) hx

/-- The transform leaves `Int_N` values (R141, R149). -/
theorem fwdXform_isInt {n : Nat} (hn : 0 < n) (d : Nat) {l : List Int} (hl : ∀ v ∈ l, IsInt n v) :
    ∀ v ∈ fwdXform n d l, IsInt n v :=
  List.foldlRecOn (List.range d) _ (motive := fun l => ∀ v ∈ l, IsInt n v) hl fun _ h a _ =>
    List.foldlRecOn (passBases (4 ^ d) (4 ^ a)) _ (motive := fun l => ∀ v ∈ l, IsInt n v) h fun _ h' p _ =>
      fwdLift_isInt hn h' p (4 ^ a)

/-! ### The bit-plane code reads the block's cells alone -/

theorem codePlane_congr {size : Nat} {u v : List Word} (h : blockCells size u = blockCells size v) (r : PlaneRegs) :
    codePlane size u r = codePlane size v r := by
  have hc : r.coder size u = r.coder size v := by rw [PlaneRegs.coder, PlaneRegs.coder, planeWord, planeWord, h]
  rw [codePlane, codePlane, hc]

theorem planeLoop_congr {size : Nat} {u v : List Word} (h : blockCells size u = blockCells size v) (fuel : Nat) (r : PlaneRegs) :
    planeLoop size u fuel r = planeLoop size v fuel r := by
  induction fuel generalizing r with
  | zero => rfl
  | succ fuel ih => simp only [planeLoop, codePlane_congr h, ih]

/-! ### What a worker owes, phase by phase -/

/-- Each table has an entry for each cell of the block (R155). -/
theorem length_permutation_dims {dims : BitVec 2} (h : dims ≠ 0) : (permutation dims.toNat).length = blockSize dims := by
  have hd : dims.toNat ≠ 0 := fun h0 => h (BitVec.eq_of_toNat_eq h0)
  exact length_permutation (by have := dims.isLt; omega)

/-- The events of the bit-plane code of a block, from where the cursor stands (R189, R205 step 10). -/
def Worker.codeEvents (w : Worker) (ints : List Int) : List Event :=
  callEvents w.cursor (encodeInts (width w.kind) (blockSize w.dims) (reorderedBlock w.kind w.dims ints)
    (commandBudget w.kind w.maxbits.toNat) w.maxprec)

/-- One pass of the plane loop (R189). -/
theorem planesPhase_of_more {w : Worker} (h : w.planes.more = true) :
    planesPhase w = { w with planes := (codePlane (blockSize w.dims) w.ublk w.planes).1 }.callWriter
      (codePlane (blockSize w.dims) w.ublk w.planes).2 := by
  rw [planesPhase, if_pos h]

/-- The end of the plane loop (R189, R194). -/
theorem planesPhase_of_not_more {w : Worker} (h : w.planes.more = false) : planesPhase w = w.enter .done := by
  rw [planesPhase, if_neg (by simp [h])]

/-- At the end of the plane loop a worker owes nothing more (R189, R194). -/
theorem Worker.remaining_of_not_more {p : Config.Params} {w : Worker} (h : w.phase = .planes) (hp : w.pending = [])
    (hle : w.actionsLeft ≤ sequencerBound) (hmore : w.planes.more = false) : w.remaining p = [] := by
  rw [← Worker.remaining_advance (by simp [h]) hp hle, Worker.advance_planes h, planesPhase_of_not_more hmore]
  exact Worker.remaining_of_done (w := w.enter .done) rfl hp

/-- Before a pass of the plane loop a worker owes the events of this pass and what it owes after it. -/
theorem Worker.remaining_of_more {p : Config.Params} {w : Worker} (h : w.phase = .planes) (hp : w.pending = [])
    (hle : w.actionsLeft ≤ sequencerBound) (hmore : w.planes.more = true) :
    w.remaining p = callEvents w.cursor (codePlane (blockSize w.dims) w.ublk w.planes).2 ++
      Worker.remaining p { w with
        planes := (codePlane (blockSize w.dims) w.ublk w.planes).1
        cursor := cursorAfter w.cursor (codePlane (blockSize w.dims) w.ublk w.planes).2 } := by
  have hleft := Worker.actionsLeft_advance p (w := w) (by simp [h])
  rw [Worker.advance_planes h, planesPhase_of_more hmore] at hleft
  rw [← Worker.remaining_advance (by simp [h]) hp hle, Worker.advance_planes h, planesPhase_of_more hmore,
    Worker.remaining_eq_pending_append (by simp [h]) (by omega)]
  simp [hp, Worker.callWriter]

/-- In `PLANES`, with nothing pending, a worker owes the events of the plane loop's calls to come (R189). -/
theorem Worker.remaining_of_planes {p : Config.Params} {fuel : Nat} {w : Worker} (h : w.phase = .planes) (hp : w.pending = [])
    (hk : w.planes.k ≤ fuel) (hle : w.actionsLeft ≤ sequencerBound) :
    w.remaining p = callEvents w.cursor (planeLoop (blockSize w.dims) w.ublk fuel w.planes).2 := by
  induction fuel generalizing w with
  | zero => exact Worker.remaining_of_not_more h hp hle (by simp [PlaneRegs.more]; omega)
  | succ fuel ih =>
    cases hmore : w.planes.more with
    | false => rw [Worker.remaining_of_not_more h hp hle hmore, planeLoop, hmore]; rfl
    | true =>
      have hcount : (codePlane (blockSize w.dims) w.ublk w.planes).1.k = w.planes.k - 1 := (codePlane_counts _ _ _).1
      have hleft : w.planes.k + 2 ≤ sequencerBound := by rwa [Worker.actionsLeft_of_planes h] at hle
      rw [Worker.remaining_of_more h hp hle hmore, planeLoop, if_pos hmore, callEvents_append]
      refine congrArg _ (ih h hp ?_ ?_)
      · rw [hcount]; omega
      · exact Eq.trans_le (Worker.actionsLeft_of_planes h) (by rw [hcount]; omega)

/-- In `ORDER` a worker owes the code of the block as reordered from `iblk` (R156, R189). -/
theorem Worker.remaining_of_order {p : Config.Params} {w : Worker} (h : w.phase = .order) (hp : w.pending = []) (hd : w.dims ≠ 0) :
    w.remaining p = callEvents w.cursor (encodeInts (width w.kind) (blockSize w.dims)
      (fwdOrder (width w.kind) w.dims.toNat w.ints) (commandBudget w.kind w.maxbits.toNat) w.maxprec) := by
  have hsize : (fwdOrder (width w.kind) w.dims.toNat w.ints).length = blockSize w.dims := by
    rw [length_fwdOrder, length_permutation_dims hd]
  have hcells : blockCells (blockSize w.dims) (orderPhase w).ublk =
      blockCells (blockSize w.dims) (fwdOrder (width w.kind) w.dims.toNat w.ints) := by
    rw [blockCells_of_length hsize]
    exact blockCells_rewriteFile_of_length hsize w.ublk
  have hleft : (orderPhase w).actionsLeft ≤ sequencerBound := by
    have := width_le w.kind
    simp [Worker.actionsLeft, orderPhase, PlaneRegs.start, sequencerBound]
    omega
  calc w.remaining p
      = (orderPhase w).remaining p := by
        rw [Worker.remaining_of_phase h hp (by decide), Worker.advance_order h]
    _ = callEvents w.cursor (planeLoop (blockSize w.dims) (orderPhase w).ublk (width w.kind) (orderPhase w).planes).2 :=
        Worker.remaining_of_planes (w := orderPhase w) rfl hp le_rfl hleft
    _ = _ := by
        rw [planeLoop_congr hcells]
        rfl

/-- In `XFORM` a worker owes the code of the block that stands in `iblk` (R149). -/
theorem Worker.remaining_of_xform {p : Config.Params} {w : Worker} (h : w.phase = .xform) (hp : w.pending = []) (hd : w.dims ≠ 0) :
    w.remaining p = w.codeEvents w.ints := by
  have hints : (xformPhase w).ints = fwdXform (width w.kind) w.dims.toNat w.ints :=
    Worker.ints_of_rewriteFile (w := xformPhase w) rfl ((length_fwdXform _ _ _).trans w.length_ints)
      (fwdXform_isInt (width_pos _) _ w.ints_isInt)
  rw [Worker.remaining_of_phase h hp (by decide), Worker.advance_xform h,
    Worker.remaining_of_order (w := xformPhase w) rfl hp hd, hints]
  rfl

/-- In `CAST` a worker owes the code of the block it casts (R130). -/
theorem Worker.remaining_of_cast {p : Config.Params} {w : Worker} (h : w.phase = .cast) (hp : w.pending = []) (hd : w.dims ≠ 0)
    (hk : isFloat w.kind = true) (he : w.emax = maxExponent w.kind (blockCells (blockSize w.dims) w.fblk)) :
    w.remaining p = w.codeEvents (integerBlock w.kind (blockCells (blockSize w.dims) w.fblk)) := by
  have hints : (castPhase w).ints = integerBlock w.kind (blockCells (blockSize w.dims) w.fblk) := by
    rw [integerBlock, if_pos hk, ← he]
    refine Worker.ints_of_rewriteFile (old := w.iblk) (by rw [castPhase, List.map_map]; rfl) (by simp [castPhase]) fun v hv => ?_
    obtain ⟨c, hc, rfl⟩ := List.mem_map.mp hv
    rw [he]
    exact castScalar_isInt hk hc
  rw [Worker.remaining_of_phase h hp (by decide), Worker.advance_cast h,
    Worker.remaining_of_xform (w := castPhase w) rfl hp hd, hints]
  rfl

/-- In `HEADER`, the header written, a worker owes the code of the block it casts (R34). -/
theorem Worker.remaining_of_header {p : Config.Params} {w : Worker} (h : w.phase = .header) (hp : w.pending = []) (hd : w.dims ≠ 0)
    (hk : isFloat w.kind = true) (he : w.emax = maxExponent w.kind (blockCells (blockSize w.dims) w.fblk)) :
    w.remaining p = w.codeEvents (integerBlock w.kind (blockCells (blockSize w.dims) w.fblk)) := by
  rw [Worker.remaining_of_phase h hp (by decide), Worker.advance_header h]
  exact Worker.remaining_of_cast (w := w.enter .cast) rfl hp hd hk he

/-- The registers of the exponent unit, loaded from the block (R205 steps 2 to 4). -/
def Worker.measured (p : Config.Params) (w : Worker) : Worker :=
  { w with
    emax := maxExponent w.kind (blockCells (blockSize w.dims) w.fblk)
    maxprec := maxPrecision p w.kind (maxExponent w.kind (blockCells (blockSize w.dims) w.fblk))
    e := commandExponent p w.kind (blockCells (blockSize w.dims) w.fblk) }

/-- `EXPONENT` of a block that is dropped (R205 step 5). -/
theorem exponentPhase_of_zero {p : Config.Params} {w : Worker}
    (h : commandExponent p w.kind (blockCells (blockSize w.dims) w.fblk) = 0) : exponentPhase p w = (w.measured p).enter .done :=
  if_pos h

/-- `EXPONENT` of a block that is coded (R205 step 6). -/
theorem exponentPhase_of_ne_zero {p : Config.Params} {w : Worker}
    (h : commandExponent p w.kind (blockCells (blockSize w.dims) w.fblk) ≠ 0) :
    exponentPhase p w = ((w.measured p).callWriter
      [headerCall w.kind w.maxbits.toNat (commandExponent p w.kind (blockCells (blockSize w.dims) w.fblk))]).enter .header :=
  if_neg h

/-- The listing of a float command that is dropped (R205 step 5). -/
theorem commandCalls_of_zero {p : Config.Params} {kind : Kind} {block : List Word} (hk : isFloat kind = true)
    (h : commandExponent p kind block = 0) (dims : BitVec 2) (maxbits : Nat) : commandCalls p kind dims maxbits block = [] := by
  simp [commandCalls, isDropped, hk, h]

/-- The listing of a float command that is coded (R205 steps 6 to 10). -/
theorem commandCalls_of_ne_zero {p : Config.Params} {kind : Kind} {block : List Word} (hk : isFloat kind = true)
    (h : commandExponent p kind block ≠ 0) (dims : BitVec 2) (maxbits : Nat) :
    commandCalls p kind dims maxbits block = [headerCall kind maxbits (commandExponent p kind block)] ++
      encodeInts (width kind) (blockSize dims) (reorderedBlock kind dims (integerBlock kind block)) (commandBudget kind maxbits)
        (maxPrecision p kind (maxExponent kind block)) := by
  simp [commandCalls, isDropped, commandPrecision, hk, h]

/-- In `EXPONENT` a float command owes its whole listing, the writer being constructed (R205 steps 2 to 6). -/
theorem Worker.remaining_of_exponent {p : Config.Params} {w : Worker} (h : w.phase = .exponent) (hp : w.pending = []) (hd : w.dims ≠ 0)
    (hk : isFloat w.kind = true) :
    w.remaining p =
      callEvents w.cursor (commandCalls p w.kind w.dims w.maxbits.toNat (blockCells (blockSize w.dims) w.fblk)) := by
  rw [Worker.remaining_of_phase h hp (by decide), Worker.advance_exponent h]
  by_cases he : commandExponent p w.kind (blockCells (blockSize w.dims) w.fblk) = 0
  · rw [exponentPhase_of_zero he, commandCalls_of_zero hk he]
    exact Worker.remaining_of_done (w := (w.measured p).enter .done) rfl hp
  · rw [exponentPhase_of_ne_zero he, commandCalls_of_ne_zero hk he, callEvents_append,
      Worker.remaining_eq_pending_append (by simp) (Worker.actionsLeft_le (by simp))]
    congr 1
    · simp [Worker.measured, hp]
    · exact Worker.remaining_of_header (w := { ((w.measured p).callWriter _).enter .header with pending := [] }) rfl rfl hd hk rfl

/-- The listing of an integer command is the bit-plane code of its values (R207). -/
theorem commandCalls_of_not_float {kind : Kind} (hk : isFloat kind = false) (p : Config.Params) (dims : BitVec 2) (maxbits : Nat)
    (block : List Word) :
    commandCalls p kind dims maxbits block =
      encodeInts (width kind) (blockSize dims) (reorderedBlock kind dims (block.map (intOfCell kind))) (commandBudget kind maxbits)
        (width kind) := by
  simp [commandCalls, isDropped, integerBlock, commandPrecision, hk]

/-- In `SETUP` a worker owes the events of its command's listing (R34, R165, R205, R207). -/
theorem Worker.remaining_of_setup {p : Config.Params} {w : Worker} (h : w.phase = .setup) (hp : w.pending = []) (hd : w.dims ≠ 0) :
    w.remaining p = commandEvents p w.kind w.dims w.maxbits w.blockIdx (blockCells (blockSize w.dims) w.fblk) := by
  rw [Worker.remaining_of_phase h hp (by decide), Worker.advance_setup h, commandEvents,
    setupPhase]
  cases hk : isFloat w.kind with
  | true => exact Worker.remaining_of_exponent (w := { w with cursor := _, phase := .exponent }) rfl hp hd hk
  | false =>
    rw [commandCalls_of_not_float hk, if_neg (by simp),
      Worker.remaining_of_xform (w := { w with cursor := _, iblk := _, maxprec := _, phase := .xform }) rfl hp hd,
      Worker.ints_of_rewriteFile (vs := (blockCells (blockSize w.dims) w.fblk).map (intOfCell w.kind)) (old := w.iblk)
        (by rw [List.map_map]; rfl) (by simp) fun v hv => ?_]
    · rfl
    · obtain ⟨c, -, rfl⟩ := List.mem_map.mp hv
      exact intOfCell_isInt _ _

/-- Right after its issue a command's worker owes the events of the command's listing (R62, R82). -/
theorem Worker.remaining_load (p : Config.Params) (w : Worker) (kind : Kind) {dims : BitVec 2} (hd : dims ≠ 0) (maxbits : BitVec 16)
    (blockIdx : BitVec 32) (space : List Word) :
    (w.load kind dims maxbits blockIdx space).remaining p =
      commandEvents p kind dims maxbits blockIdx (operandBlock kind (blockSize dims) space) := by
  rw [Worker.remaining_of_setup rfl rfl hd]
  simp [blockCells_rewriteFile_of_length]

end Sys2Proof.Machine

/-! The stream is the OR of all events, whatever the interleaving (R62). A bit that is set, or that an event still owed will set, is
never lost and never gained but by the issue of a command, which adds the bits of its listing; with no command in flight nothing is
owed. -/

namespace Sys2Proof.Machine

/-! ### Bits of events and of words -/

/-- Some event of a list sets global bit `b`. -/
def SomeSets (evs : List Event) (b : Nat) : Prop := ∃ ev ∈ evs, ev.sets b = true

theorem not_someSets_nil (b : Nat) : ¬ SomeSets [] b := by simp [SomeSets]

theorem someSets_append (l l' : List Event) (b : Nat) : SomeSets (l ++ l') b ↔ SomeSets l b ∨ SomeSets l' b := by
  simp only [SomeSets, List.mem_append, or_and_right, exists_or]

/-- A global bit after events: set before, or set by one of them. -/
theorem globalBit_orEvents_iff {m : Memory} (h : m.wf = true) (evs : List Event) (b : Nat) :
    (orEvents m evs).globalBit b = true ↔ m.globalBit b = true ∨ SomeSets evs b := by
  simp [globalBit_orEvents h, SomeSets]

/-- Bit `j` of word `a` is global bit `64a + j` (R51). -/
theorem Memory.getLsbD_readWord_eq_globalBit (m : Memory) (a : Nat) {j : Nat} (hj : j < 64) :
    (m.readWord a).getLsbD j = m.globalBit (64 * a + j) := by
  rw [Memory.globalBit, Config.wordBits, show (64 * a + j) / 64 = a by omega, show (64 * a + j) % 64 = j by omega]

/-- Which events set bit `j` of word `a` (R18, R51). -/
theorem Event.sets_wordBit (ev : Event) (a : Nat) {j : Nat} (hj : j < 64) :
    ev.sets (64 * a + j) = (decide (ev.addr = a) && ev.value.getLsbD j) := by
  rw [Event.sets, Config.wordBits, show (64 * a + j) / 64 = a by omega, show (64 * a + j) % 64 = j by omega]

/-- ORing the values at a word onto `v` adds the bits the events set there. -/
theorem getLsbD_foldl_orAt {a j : Nat} (hj : j < 64) (evs : List Event) (v : Word) :
    (evs.foldl (fun v ev => if ev.addr = a then v ||| ev.value else v) v).getLsbD j = true ↔
      v.getLsbD j = true ∨ SomeSets evs (64 * a + j) := by
  induction evs generalizing v with
  | nil => simp [SomeSets]
  | cons ev evs ih =>
    rw [List.foldl_cons, ih, ← List.singleton_append, someSets_append, ← or_assoc]
    refine or_congr_left ?_
    by_cases ha : ev.addr = a <;> simp [SomeSets, Event.sets_wordBit _ _ hj, ha]

/-- The OR at a word has the bits its events set there (R62). -/
theorem getLsbD_orAt {a j : Nat} (hj : j < 64) (evs : List Event) : (orAt a evs).getLsbD j = true ↔ SomeSets evs (64 * a + j) := by
  rw [orAt, getLsbD_foldl_orAt hj]
  simp

/-! ### A worker and the stream -/

/-- Bit `b` is set in the stream, or by an event worker `w` owes. -/
def Worker.WillSet (p : Config.Params) (w : Worker) (m : Memory) (b : Nat) : Prop :=
  m.globalBit b = true ∨ SomeSets (w.remaining p) b

/-- Events performed turn from owed ones into bits of the stream. -/
theorem Worker.willSet_perform {p : Config.Params} {w : Worker} {m : Memory} {made left : List Event} (hb : w.phase ≠ .idle)
    (hle : w.actionsLeft ≤ sequencerBound) (hm : m.wf = true) (hp : w.pending = made ++ left) (b : Nat) :
    Worker.WillSet p { w with pending := left } (orEvents m made) b ↔ w.WillSet p m b := by
  rw [Worker.WillSet, Worker.WillSet, globalBit_orEvents_iff hm, Worker.remaining_of_pending_append hb hle hp, someSets_append, or_assoc]

/-- An action of the sequencer neither loses nor gains a bit. -/
theorem Worker.willSet_advance {p : Config.Params} {w : Worker} {m : Memory} (hb : w.phase ≠ .idle)
    (hle : w.actionsLeft ≤ sequencerBound) (hp : w.pending = []) (b : Nat) : (w.advance p).WillSet p m b ↔ w.WillSet p m b := by
  rw [Worker.WillSet, Worker.WillSet, Worker.remaining_advance hb hp hle]

/-- What a worker's moves, with the stream they act on, keep: the canonical form, the bound on the actions left, and every bit set or
owed. -/
structure Worker.Conserves (p : Config.Params) (w : Worker) (m : Memory) (w' : Worker) (m' : Memory) : Prop where
  canonical : m'.wf = true
  finishes : w'.actionsLeft ≤ sequencerBound
  bits : ∀ b, w'.WillSet p m' b ↔ w.WillSet p m b

theorem Worker.Conserves.trans {p : Config.Params} {w w' w'' : Worker} {m m' m'' : Memory} (h : w.Conserves p m w' m')
    (h' : w'.Conserves p m' w'' m'') : w.Conserves p m w'' m'' :=
  ⟨h'.canonical, h'.finishes, fun b => (h'.bits b).trans (h.bits b)⟩

theorem Worker.conserves_perform {p : Config.Params} {w : Worker} {m : Memory} {made left : List Event} (hb : w.phase ≠ .idle)
    (hle : w.actionsLeft ≤ sequencerBound) (hm : m.wf = true) (hp : w.pending = made ++ left) :
    w.Conserves p m { w with pending := left } (orEvents m made) :=
  ⟨orEvents_wf hm made, hle, Worker.willSet_perform hb hle hm hp⟩

theorem Worker.conserves_advance {p : Config.Params} {w : Worker} {m : Memory} (hb : w.phase ≠ .idle)
    (hle : w.actionsLeft ≤ sequencerBound) (hm : m.wf = true) (hp : w.pending = []) : w.Conserves p m (w.advance p) m :=
  ⟨hm, (Worker.actionsLeft_advance p hb).le.trans hle, Worker.willSet_advance hb hle hp⟩

/-- A small step keeps every bit set or owed (R56, R62). -/
theorem Worker.smallStep_conserves {p : Config.Params} {w w' : Worker} {m m' : Memory} (h : w.smallStep p m = some (w', m'))
    (hle : w.actionsLeft ≤ sequencerBound) (hm : m.wf = true) : w.Conserves p m w' m' := by
  obtain ⟨hb, ⟨hp, rfl, rfl⟩ | ⟨ev, evs, hp, -, rfl, rfl⟩⟩ := Worker.smallStep_cases h
  · exact Worker.conserves_advance ((Worker.busy_iff w).mp hb) hle hm hp
  · exact Worker.conserves_perform (made := [ev]) ((Worker.busy_iff w).mp hb) hle hm hp

/-- One unfolding of a worker's run where an event is out of range: the worker is stuck at it (R54). -/
theorem Worker.run_succ_of_stuck {p : Config.Params} {w : Worker} {m : Memory} {fuel : Nat} (hb : w.busy = true)
    (hp : (performEvents p.streamWords w.pending m).2 ≠ []) :
    w.run p (fuel + 1) m =
      ({ w with pending := (performEvents p.streamWords w.pending m).2 }, (performEvents p.streamWords w.pending m).1) := by
  rw [Worker.run, if_pos hb]
  exact if_neg hp

/-- A whole run of a worker keeps every bit set or owed, whether it completes or gets stuck (R54). -/
theorem Worker.run_conserves {p : Config.Params} (fuel : Nat) {w : Worker} {m : Memory} (hle : w.actionsLeft ≤ sequencerBound)
    (hm : m.wf = true) : w.Conserves p m (w.run p fuel m).1 (w.run p fuel m).2 := by
  induction fuel generalizing w m with
  | zero => exact ⟨hm, hle, fun _ => Iff.rfl⟩
  | succ fuel ih =>
    cases hb : w.busy with
    | false => rw [Worker.run_idle hb]; exact ⟨hm, hle, fun _ => Iff.rfl⟩
    | true =>
      have hbusy := (Worker.busy_iff w).mp hb
      obtain ⟨made, hsplit, hmem, -, -⟩ := performEvents_spec p.streamWords w.pending m
      have hperform := Worker.conserves_perform (p := p) hbusy hle hm hsplit
      rw [← hmem] at hperform
      by_cases hleft : (performEvents p.streamWords w.pending m).2 = []
      · rw [hleft] at hperform
        have hadvance := Worker.conserves_advance (p := p) (w := { w with pending := [] }) hbusy hle hperform.canonical rfl
        rw [Worker.run_succ_of_inRange hb hleft]
        exact (hperform.trans hadvance).trans (ih hadvance.finishes hadvance.canonical)
      · rw [Worker.run_succ_of_stuck hb hleft]
        exact hperform

/-! ### The state -/

/-- Bit `b` is set in the stream, or by an event some worker owes. -/
def State.WillSet (s : State) (b : Nat) : Prop :=
  s.stream.globalBit b = true ∨ ∃ (i : Nat) (w : Worker), s.workers[i]? = some w ∧ SomeSets (w.remaining s.params) b

/-- With no command in flight no bit is owed. -/
theorem State.willSet_of_allIdle {s : State} (h : allIdle s.workers = true) (b : Nat) : s.WillSet b ↔ s.stream.globalBit b = true := by
  refine ⟨fun hs => hs.resolve_right ?_, .inl⟩
  rintro ⟨i, w, hw, hsets⟩
  have hidle : w.phase = .idle := by simpa using List.all_eq_true.mp h w (List.mem_of_getElem? hw)
  rw [Worker.remaining_of_idle hidle] at hsets
  exact not_someSets_nil b hsets

/-- The bits of a state, one worker told apart from the others. -/
theorem State.willSet_iff {s : State} {i : Nat} {w : Worker} (hw : s.workers[i]? = some w) (b : Nat) :
    s.WillSet b ↔ w.WillSet s.params s.stream b ∨
      ∃ (j : Nat) (v : Worker), j ≠ i ∧ s.workers[j]? = some v ∧ SomeSets (v.remaining s.params) b := by
  rw [State.WillSet, Worker.WillSet, or_assoc]
  refine or_congr_right ⟨?_, ?_⟩
  · rintro ⟨j, v, hv, hsets⟩
    by_cases hj : j = i
    · obtain rfl : v = w := Option.some.inj ((hj ▸ hv).symm.trans hw)
      exact .inl hsets
    · exact .inr ⟨j, v, hj, hv, hsets⟩
  · rintro (hsets | ⟨j, v, -, hv, hsets⟩)
    · exact ⟨i, w, hw, hsets⟩
    · exact ⟨j, v, hv, hsets⟩

/-- A change of one worker and of the stream changes the bits of the state as it changes theirs. -/
theorem State.willSet_replace {s : State} {i : Nat} {w : Worker} (hw : s.workers[i]? = some w) (w' : Worker) (m : Memory)
    {b : Nat} {added : Prop} (h : w'.WillSet s.params m b ↔ w.WillSet s.params s.stream b ∨ added) :
    ((s.setWorker i w').setStream m).WillSet b ↔ s.WillSet b ∨ added := by
  have hself : ((s.setWorker i w').setStream m).workers[i]? = some w' := State.setWorker_getElem?_self w' hw
  have hothers : ∀ j, j ≠ i → ((s.setWorker i w').setStream m).workers[j]? = s.workers[j]? := fun j hj => List.getElem?_set_ne hj.symm
  rw [State.willSet_iff hw, State.willSet_iff hself, State.setStream_params, State.setStream_stream, State.setWorker_params, h,
    or_right_comm]
  refine or_congr_left (or_congr_right (exists_congr fun j => exists_congr fun v => and_congr_right fun hj => ?_))
  rw [hothers j hj]

/-- What the proof needs of a state of a run whose moves leave the stream to the workers; weaker than `State.Inv`. -/
structure State.Conserving (s : State) : Prop where
  canonical : s.stream.wf = true
  finishes : ∀ w ∈ s.workers, w.actionsLeft ≤ sequencerBound
  moves : ∀ mv ∈ s.agenda, mv.leavesStreamToWorkers = true

/-- What steps do from `s` to `t`: `t` is again such a state, and the bits set or owed are those of `s` and those of the events
`evs`. -/
structure State.Adds (s : State) (evs : List Event) (t : State) : Prop where
  conserving : t.Conserving
  bits : ∀ b, t.WillSet b ↔ s.WillSet b ∨ SomeSets evs b

theorem State.Adds.trans {s t u : State} {evs evs' : List Event} (h : s.Adds evs t) (h' : t.Adds evs' u) : s.Adds (evs ++ evs') u :=
  ⟨h'.conserving, fun b => by rw [h'.bits, h.bits, someSets_append, or_assoc]⟩

/-- A change of what stands at the outside adds no bit. -/
theorem State.adds_nil {s t : State} (ht : t.Conserving) (h : ∀ b, t.WillSet b ↔ s.WillSet b) : s.Adds [] t :=
  ⟨ht, fun b => by rw [h, or_iff_left (not_someSets_nil b)]⟩

/-- A change of one worker and of the stream, the bits of the two changing by those of `evs`. -/
theorem State.Conserving.adds_replace {s : State} (hs : s.Conserving) {i : Nat} {w w' : Worker} {m : Memory} {evs : List Event}
    (hw : s.workers[i]? = some w) (hm : m.wf = true) (hle : w'.actionsLeft ≤ sequencerBound)
    (h : ∀ b, w'.WillSet s.params m b ↔ w.WillSet s.params s.stream b ∨ SomeSets evs b) :
    s.Adds evs ((s.setWorker i w').setStream m) where
  conserving := ⟨hm, forall_mem_set hs.finishes hle, hs.moves⟩
  bits _ := State.willSet_replace hw w' m (h _)

/-- A worker's moves add no bit. -/
theorem State.Conserving.adds_of_conserves {s : State} (hs : s.Conserving) {i : Nat} {w w' : Worker} {m : Memory}
    (hw : s.workers[i]? = some w) (h : w.Conserves s.params s.stream w' m) : s.Adds [] ((s.setWorker i w').setStream m) :=
  hs.adds_replace hw h.canonical h.finishes fun b => by rw [h.bits, or_iff_left (not_someSets_nil b)]

theorem State.Conserving.adds_self {s : State} (hs : s.Conserving) : s.Adds [] s := State.adds_nil hs fun _ => Iff.rfl

theorem State.Conserving.finishes_of_getElem? {s : State} (hs : s.Conserving) {i : Nat} {w : Worker} (hw : s.workers[i]? = some w) :
    w.actionsLeft ≤ sequencerBound := hs.finishes w (List.mem_of_getElem? hw)

theorem State.Conserving.adds_workerStep {s t : State} (hs : s.Conserving) {i : Nat} (h : s.workerStep i = some t) : s.Adds [] t := by
  obtain ⟨w, w', m, hw, hstep, rfl⟩ := State.workerStep_some h
  exact hs.adds_of_conserves hw (Worker.smallStep_conserves hstep (hs.finishes_of_getElem? hw) hs.canonical)

theorem State.Conserving.adds_moveWorker {s t : State} (hs : s.Conserving) {i : Nat} (h : moveWorker i s = .next t) : s.Adds [] t := by
  obtain ⟨-, hstep | ⟨-, rfl⟩⟩ := moveWorker_next h
  · exact hs.adds_workerStep hstep
  · exact hs.adds_self

theorem State.Conserving.adds_someWorkerSteps {s : State} (hs : s.Conserving) : s.Adds [] (someWorkerSteps s) := by
  obtain ⟨i, hstep⟩ | hsame := someWorkerSteps_cases s
  · exact hs.adds_workerStep hstep
  · rw [hsame]; exact hs.adds_self

theorem State.Conserving.adds_runToCompletion {s : State} (hs : s.Conserving) (i : Nat) : s.Adds [] (runToCompletion i s) := by
  rw [runToCompletion]
  split
  · exact hs.adds_self
  · rename_i w hw
    exact hs.adds_of_conserves hw (Worker.run_conserves _ (hs.finishes_of_getElem? hw) hs.canonical)

/-! ### Commands -/

/-- A command's dimension is 1, 2 or 3 (R88). -/
theorem dims_ne_zero (i : Instr) : i.dims ≠ 0 := by cases i <;> simp [Instr.dims]

/-- The events of a command issued at the port of `s` (R62). -/
def State.eventsOf (s : State) (i : Instr) : List Event :=
  commandEvents s.params i.kind i.dims i.maxbits i.blockIdx (operandBlock i.kind (blockSize i.dims) s.port.block)

/-- The issue of a command adds the bits of its listing (R62, R82). -/
theorem State.Conserving.adds_issueCommand {s t : State} (hs : s.Conserving) {i : Instr}
    (h : issueCommand i.kind i.dims i.maxbits i.blockIdx s = .next t) : s.Adds (s.eventsOf i) t := by
  obtain ⟨w, ⟨hw, hidle⟩, -, rfl⟩ := issueCommand_next h
  refine hs.adds_replace (m := s.stream) hw hs.canonical (Worker.actionsLeft_le (by simp)) fun b => ?_
  rw [Worker.WillSet, Worker.WillSet, Worker.remaining_load _ _ _ (dims_ne_zero i),
    Worker.remaining_of_idle ((Worker.not_busy_iff w).mp hidle), or_iff_left (not_someSets_nil b)]
  rfl

/-- A whole command adds the bits of its listing (R62). -/
theorem State.Conserving.adds_exec {s t : State} (hs : s.Conserving) {i : Instr} (h : exec i s = .next t) :
    s.Adds (s.eventsOf i) t := by
  rw [exec_eq_runCommand] at h
  obtain ⟨u, hu, rfl⟩ := runCommand_next h
  have hissue := hs.adds_issueCommand hu
  simpa using hissue.trans (hissue.conserving.adds_runToCompletion _)

theorem descriptorEvents_of_command {s : State} {d : Word} {i : Instr} (hd : decodeWord d = .command i) :
    issuedEvents.descriptorEvents s d = s.eventsOf i := by
  simp [issuedEvents.descriptorEvents, decodeCommand, hd, State.eventsOf]

theorem State.Conserving.adds_issueDescriptor {s t : State} (hs : s.Conserving) {d : Word} (h : issueDescriptor d s = .next t) :
    s.Adds (issuedEvents.descriptorEvents s d) t := by
  rw [issueDescriptor] at h
  cases hd : decodeWord d with
  | command i => rw [hd] at h; rw [descriptorEvents_of_command hd]; exact hs.adds_issueCommand h
  | reserved r => rw [hd] at h; cases h

theorem State.Conserving.adds_encode {s t : State} (hs : s.Conserving) {d : Word} (h : moveStep (.encode d) s = .next t) :
    s.Adds (issuedEvents.descriptorEvents s d) t := by
  rw [moveStep] at h
  cases hd : decodeWord d with
  | command i => rw [hd] at h; rw [descriptorEvents_of_command hd]; exact hs.adds_exec h
  | reserved r => rw [hd] at h; cases h

/-! ### Steps and runs -/

theorem hostRead_next {s t : State} {addr : Nat} (h : hostRead addr s = .next t) : ∃ w, t = s.addRead addr w := by
  rw [hostRead] at h
  split at h
  · exact ⟨_, (Host.Outcome.next.inj h).symm⟩
  · cases h

/-- A move that leaves the stream to the workers adds the bits of the command it issues, and no other. -/
theorem State.Conserving.adds_moveStep {s t : State} (hs : s.Conserving) {mv : Move} (hmv : mv.leavesStreamToWorkers = true)
    (h : moveStep mv s = .next t) (rest : List Move) : s.Adds (issuedEvents (s.setAgenda (mv :: rest))) t := by
  cases mv with
  | encode d => exact hs.adds_encode h
  | issue d => exact hs.adds_issueDescriptor h
  | present worker block =>
    obtain rfl := Host.Outcome.next.inj h
    exact State.adds_nil ⟨hs.canonical, hs.finishes, hs.moves⟩ fun _ => Iff.rfl
  | worker i => exact hs.adds_moveWorker h
  | zero words => cases hmv
  | wait =>
    obtain rfl := Host.Outcome.next.inj h
    exact hs.adds_self
  | read addr =>
    obtain ⟨w, rfl⟩ := hostRead_next h
    exact State.adds_nil ⟨hs.canonical, hs.finishes, hs.moves⟩ fun _ => Iff.rfl
  | reset => cases hmv

/-- All that the step at a state with moves to come can do: the next move is made, or, at a `wait`, the workers go on. -/
theorem step_cons {s : State} {mv : Move} {rest : List Move} (h : s.agenda = mv :: rest) :
    step s = moveStep mv (s.setAgenda rest) ∨ (mv = .wait ∧ step s = .next (someWorkerSteps s)) := by
  by_cases hw : mv = .wait
  · subst hw
    rw [step_wait h]
    split
    · exact .inl rfl
    · exact .inr ⟨rfl, rfl⟩
  · exact .inl (step_move h hw)

/-- All that a run that does not stop can do: it steps, and runs on. -/
theorem run_succ_next {M : Host.Core} {s t : M.State} {n : Nat} (h : M.run (n + 1) s = .next t) :
    ∃ u, M.step s = .next u ∧ M.run n u = .next t := by
  rw [Host.Core.run] at h
  split at h
  · exact ⟨_, ‹_›, h⟩
  · cases h
  · cases h

/-- A step adds the bits of the command it issues, and no other (R62). -/
theorem State.Conserving.adds_step {s t : State} (hs : s.Conserving) (h : step s = .next t) : s.Adds (issuedEvents s) t := by
  cases ha : s.agenda with
  | nil =>
    rw [step_nil ha] at h
    obtain rfl := Host.Outcome.next.inj h
    simpa [issuedEvents, ha] using hs.adds_someWorkerSteps
  | cons mv rest =>
    have hrest : (s.setAgenda rest).Conserving :=
      ⟨hs.canonical, hs.finishes, fun mv' hmv' => hs.moves mv' (ha ▸ List.mem_cons_of_mem mv hmv')⟩
    have hpop : s.Adds [] (s.setAgenda rest) := State.adds_nil hrest fun _ => Iff.rfl
    have hback : (s.setAgenda rest).setAgenda (mv :: rest) = s := by rw [← ha]; rfl
    obtain hmove | ⟨rfl, hstay⟩ := step_cons ha
    · have hadds := hrest.adds_moveStep (hs.moves mv (by simp [ha])) (hmove.symm.trans h) rest
      rw [hback] at hadds
      exact hpop.trans hadds
    · obtain rfl := Host.Outcome.next.inj (hstay.symm.trans h)
      simpa [issuedEvents, ha] using hs.adds_someWorkerSteps

/-- A run adds the bits of the events of all the commands issued in it (R62). -/
theorem State.Conserving.adds_run {s t : State} {n : Nat} (hs : s.Conserving) (h : Sys2Proof.core.run n s = .next t) :
    s.Adds (eventsOfRun n s) t := by
  induction n generalizing s with
  | zero =>
    obtain rfl := Host.Outcome.next.inj h
    exact hs.adds_self
  | succ n ih =>
    obtain ⟨u, hstep, hrun⟩ : ∃ u, step s = .next u ∧ Sys2Proof.core.run n u = .next t := run_succ_next h
    have hadds := hs.adds_step hstep
    rw [eventsOfRun, hstep]
    exact hadds.trans (ih hadds.conserving hrun)

/-- An idle machine of which the moves to come leave the stream to the workers. -/
theorem State.Inv.conserving {s : State} (hs : s.Inv) (hidle : allIdle s.workers = true)
    (hmoves : ∀ mv ∈ s.agenda, mv.leavesStreamToWorkers = true) : s.Conserving where
  canonical := hs.canonical
  finishes w hw := Worker.actionsLeft_le (by
    have : w.phase = .idle := by simpa using List.all_eq_true.mp hidle w hw
    simp [this])
  moves := hmoves

end Sys2Proof.Machine

namespace Sys2Proof

open Machine

/-- Settles O28: a run adds to the bits set or owed exactly those of the commands issued, and at both ends none is owed. That the events
are in range is not used: a worker stuck at an event out of range is busy, so the idle end implies it (R243). -/
theorem finalStreamIsTheOrOfAllEvents : Obligations.FinalStreamIsTheOrOfAllEvents := by
  intro s t n hs hidle hmoves _ hrun hidle' a
  have hadds := (hs.conserving hidle hmoves).adds_run hrun
  refine BitVec.eq_of_getLsbD_eq fun j hj => Bool.eq_iff_iff.mpr ?_
  rw [BitVec.getLsbD_or, Bool.or_eq_true, getLsbD_orAt hj, Memory.getLsbD_readWord_eq_globalBit _ _ hj,
    Memory.getLsbD_readWord_eq_globalBit _ _ hj, ← State.willSet_of_allIdle hidle, ← State.willSet_of_allIdle hidle']
  exact hadds.bits _

end Sys2Proof

/-! Cutting the code at a budget (R193): raw bits, unary loop, group tests, planes are stages of one kind, each of which writes the first
bits of a sequence that does not depend on the budget, and stages in a row are such a stage again. -/

namespace Sys2Proof.Machine

/-! ### Stages of the code and their budgets -/

/-- A stage of the code, run under each budget, answering its registers and its writer calls. There is one sequence `full` of which it
writes as much as its budget admits. Where the budget does not outlast `full` it is spent; where it does, the registers are `last` of
what is left of it: they do not depend on the budget otherwise (R193). -/
structure WritesPrefixOf {R : Type} (bitsOf : R → Nat) (run : Nat → R × List Call) (full : List Bool) (last : Nat → R) : Prop where
  written : ∀ b, (run b).2.flatMap Call.written = full.take b
  spent : ∀ b, b ≤ full.length → bitsOf (run b).1 = 0
  goesOn : ∀ b, full.length < b → (run b).1 = last (b - full.length)

/-- A stage that neither writes nor touches the budget. -/
theorem writesPrefixOf_nil {R : Type} {bitsOf : R → Nat} {last : Nat → R} (h : bitsOf (last 0) = 0) :
    WritesPrefixOf bitsOf (fun b => (last b, [])) [] last where
  written := by simp
  spent b hb := by rwa [Nat.le_zero.mp hb]
  goesOn _ _ := rfl

/-- One bit, where there is a budget for it, before a stage. -/
theorem WritesPrefixOf.cons {R : Type} {bitsOf : R → Nat} {run run' : Nat → R × List Call} {full : List Bool} {last : Nat → R}
    (h : WritesPrefixOf bitsOf run full last) (v : Bool) (hnone : bitsOf (run' 0).1 = 0 ∧ (run' 0).2 = [])
    (hsome : ∀ b, run' (b + 1) = ((run b).1, .bit v :: (run b).2)) : WritesPrefixOf bitsOf run' (v :: full) last where
  written b := by
    cases b with
    | zero => simp [hnone.2]
    | succ b => simp [hsome, Call.written, h.written]
  spent b hb := by
    cases b with
    | zero => exact hnone.1
    | succ b => rw [hsome]; exact h.spent b (by simpa using hb)
  goesOn b hb := by
    cases b with
    | zero => simp at hb
    | succ b => rw [hsome, h.goesOn b (by simpa using hb)]; simp

/-- A stage that is entered only where there is a budget. -/
theorem WritesPrefixOf.guarded {R : Type} {bitsOf : R → Nat} {run run' : Nat → R × List Call} {full : List Bool} {last : Nat → R}
    (h : WritesPrefixOf bitsOf run full last) (hnone : bitsOf (run' 0).1 = 0 ∧ (run' 0).2 = [])
    (hsome : ∀ b, run' (b + 1) = run (b + 1)) : WritesPrefixOf bitsOf run' full last where
  written b := by
    cases b with
    | zero => simp [hnone.2]
    | succ b => rw [hsome, h.written]
  spent b hb := by
    cases b with
    | zero => exact hnone.1
    | succ b => rw [hsome]; exact h.spent _ hb
  goesOn b hb := by
    cases b with
    | zero => simp at hb
    | succ b => rw [hsome]; exact h.goesOn _ hb

/-- A stage and one that starts from its registers: with the budget spent the second writes nothing, else it starts from registers that
only the budget left tells apart. -/
theorem WritesPrefixOf.append {R R' : Type} {bitsOf : R → Nat} {bitsOf' : R' → Nat} {run : Nat → R × List Call}
    {next : R → R' × List Call} {full full' : List Bool} {last : Nat → R} {last' : Nat → R'}
    (h : WritesPrefixOf bitsOf run full last) (h' : WritesPrefixOf bitsOf' (fun b => next (last b)) full' last')
    (hstop : ∀ r, bitsOf r = 0 → bitsOf' (next r).1 = 0 ∧ (next r).2 = []) :
    WritesPrefixOf bitsOf' (fun b => ((next (run b).1).1, (run b).2 ++ (next (run b).1).2)) (full ++ full') last' where
  written b := by
    rw [List.flatMap_append, h.written, List.take_append]
    by_cases hb : b ≤ full.length
    · simp [(hstop _ (h.spent b hb)).2, Nat.sub_eq_zero_of_le hb]
    · rw [h.goesOn b (by omega), h'.written]
  spent b hb := by
    by_cases hb' : b ≤ full.length
    · exact (hstop _ (h.spent b hb')).1
    · rw [List.length_append] at hb
      dsimp only
      rw [h.goesOn b (by omega)]
      exact h'.spent _ (by omega)
  goesOn b hb := by
    rw [List.length_append] at hb
    dsimp only
    rw [h.goesOn b (by omega), List.length_append, ← Nat.sub_sub]
    exact h'.goesOn _ (by omega)

/-! ### The loops of the bit-plane encoder -/

/-- The registers inside a plane under another budget. -/
def Coder.withBits (c : Coder) (b : Nat) : Coder := { c with bits := b }

@[simp] theorem Coder.withBits_n (c : Coder) (b : Nat) : (c.withBits b).n = c.n := rfl
@[simp] theorem Coder.withBits_bits (c : Coder) (b : Nat) : (c.withBits b).bits = b := rfl
@[simp] theorem Coder.withBits_x (c : Coder) (b : Nat) : (c.withBits b).x = c.x := rfl
@[simp] theorem Coder.withBits_spend (c : Coder) (b : Nat) : (c.withBits (b + 1)).spend = c.withBits b := rfl
@[simp] theorem Coder.withBits_stepOver (c : Coder) (b : Nat) : (c.withBits b).stepOver = c.stepOver.withBits b := rfl
@[simp] theorem Coder.withBits_self (c : Coder) : c.withBits c.bits = c := rfl

/-- With no budget the unary loop does nothing (R191). -/
theorem unaryLoop_of_no_bits {size fuel : Nat} {c : Coder} (h : c.bits = 0) : unaryLoop size fuel c = (c, []) := by
  cases fuel <;> simp [unaryLoop, h]

/-- With no budget the group-test loop does nothing (R190). -/
theorem groupLoop_of_no_bits {size fuel : Nat} {c : Coder} (h : c.bits = 0) : groupLoop size fuel c = (c, []) := by
  cases fuel <;> simp [groupLoop, h]

/-- The unary loop writes the first bits of one sequence (R191, R193). -/
theorem unaryLoop_writesPrefixOf (size fuel : Nat) (c : Coder) :
    ∃ full c', WritesPrefixOf Coder.bits (fun b => unaryLoop size fuel (c.withBits b)) full (Coder.withBits c') := by
  induction fuel generalizing c with
  | zero => exact ⟨[], c, writesPrefixOf_nil rfl⟩
  | succ fuel ih =>
    have hnone := unaryLoop_of_no_bits (size := size) (fuel := fuel + 1) (Coder.withBits_bits c 0)
    by_cases hn : c.n < size - 1
    · by_cases hx : c.x[0] = true
      · exact ⟨[true], c, (writesPrefixOf_nil (last := Coder.withBits c) rfl).cons true (by simp [hnone])
          fun b => by simp [unaryLoop, hn, hx]⟩
      · obtain ⟨full, c', h⟩ := ih c.stepOver
        exact ⟨false :: full, c', h.cons false (by simp [hnone]) fun b => by simp [unaryLoop, hn, hx]⟩
    · refine ⟨[], c, ?_⟩
      simpa [unaryLoop, hn] using writesPrefixOf_nil (bitsOf := Coder.bits) (last := Coder.withBits c) rfl

/-- The group-test loop writes the first bits of one sequence (R190, R193). -/
theorem groupLoop_writesPrefixOf (size fuel : Nat) (c : Coder) :
    ∃ full c', WritesPrefixOf Coder.bits (fun b => groupLoop size fuel (c.withBits b)) full (Coder.withBits c') := by
  induction fuel generalizing c with
  | zero => exact ⟨[], c, writesPrefixOf_nil rfl⟩
  | succ fuel ih =>
    have hnone := groupLoop_of_no_bits (size := size) (fuel := fuel + 1) (Coder.withBits_bits c 0)
    by_cases hn : c.n < size
    · by_cases hx : c.x = 0#64
      · exact ⟨[false], c, (writesPrefixOf_nil (last := Coder.withBits c) rfl).cons false (by simp [hnone])
          fun b => by simp [groupLoop, hn, hx]⟩
      · obtain ⟨unary, c', hu⟩ := unaryLoop_writesPrefixOf size size c
        obtain ⟨groups, c'', hg⟩ := ih c'.stepOver
        have hboth := hu.append (next := fun c => groupLoop size fuel c.stepOver) hg
          fun r hr => by simp [groupLoop_of_no_bits (c := r.stepOver) hr, hr]
        exact ⟨true :: (unary ++ groups), c'', hboth.cons true (by simp [hnone]) fun b => by simp [groupLoop, hn, hx]⟩
    · refine ⟨[], c, ?_⟩
      simpa [groupLoop, hn] using writesPrefixOf_nil (bitsOf := Coder.bits) (last := Coder.withBits c) rfl

/-- The raw-bits step, as a stage of the code (R188). -/
def Coder.raw (c : Coder) : Coder × List Call := (c.afterRaw, [.bits c.x c.rawCount])

/-- The raw-bits step writes the first of the `n` low bits of the plane (R188, R193). -/
theorem raw_writesPrefixOf (c : Coder) :
    WritesPrefixOf Coder.bits (fun b => (c.withBits b).raw) ((List.range c.n).map c.x.getLsbD)
      (Coder.withBits { c with x := writeBitsRest c.x c.n }) where
  written b := by
    simp [Coder.raw, Call.written, Coder.rawCount, ← List.map_take, List.take_range, Nat.min_comm]
  spent b hb := by
    simp [Coder.raw, Coder.rawCount] at hb ⊢
    omega
  goesOn b hb := by
    have hn : min c.n b = c.n := Nat.min_eq_left (by simpa using hb.le)
    simp [Coder.raw, Coder.afterRaw, Coder.rawCount, Coder.withBits, hn]

/-! ### The plane loop -/

/-- The registers between planes under another budget. -/
def PlaneRegs.withBits (r : PlaneRegs) (b : Nat) : PlaneRegs := { r with bits := b }

/-- The registers after a plane (R189). -/
def PlaneRegs.after (r : PlaneRegs) (c : Coder) : PlaneRegs := { k := r.k - 1, kmin := r.kmin, n := c.n, bits := c.bits, x := c.x }

/-- A plane is its raw bits, then its groups (R189). -/
theorem codePlane_eq (size : Nat) (ublk : List Word) (r : PlaneRegs) :
    codePlane size ublk r =
      (r.after (groupLoop size size (r.coder size ublk).raw.1).1,
        (r.coder size ublk).raw.2 ++ (groupLoop size size (r.coder size ublk).raw.1).2) := rfl

/-- A plane writes the first bits of one sequence (R189, R193). -/
theorem codePlane_writesPrefixOf (size : Nat) (ublk : List Word) (r : PlaneRegs) :
    ∃ full r', WritesPrefixOf PlaneRegs.bits (fun b => codePlane size ublk (r.withBits b)) full (PlaneRegs.withBits r') := by
  have hraw := raw_writesPrefixOf (r.coder size ublk)
  obtain ⟨groups, c', hg⟩ := groupLoop_writesPrefixOf size size
    { r.coder size ublk with x := writeBitsRest (r.coder size ublk).x (r.coder size ublk).n }
  have h := hraw.append hg fun c hc => by simp [groupLoop_of_no_bits hc, hc]
  exact ⟨_, r.after c', h.written, h.spent, fun b hb => congrArg r.after (h.goesOn b hb)⟩

theorem planeLoop_of_no_bits {size fuel : Nat} {ublk : List Word} {r : PlaneRegs} (h : r.bits = 0) :
    planeLoop size ublk fuel r = (r, []) := by
  cases fuel <;> simp [planeLoop, PlaneRegs.more, h]

/-- The plane loop writes the first bits of one sequence (R189, R193). -/
theorem planeLoop_writesPrefixOf (size : Nat) (ublk : List Word) (fuel : Nat) (r : PlaneRegs) :
    ∃ full r', WritesPrefixOf PlaneRegs.bits (fun b => planeLoop size ublk fuel (r.withBits b)) full (PlaneRegs.withBits r') := by
  induction fuel generalizing r with
  | zero => exact ⟨[], r, writesPrefixOf_nil rfl⟩
  | succ fuel ih =>
    by_cases hk : r.kmin < r.k
    · obtain ⟨plane, r', hp⟩ := codePlane_writesPrefixOf size ublk r
      obtain ⟨rest, r'', hr⟩ := ih r'
      have h := hp.append hr fun r hr => by simp [planeLoop_of_no_bits hr, hr]
      exact ⟨plane ++ rest, r'', h.guarded (by simp [planeLoop_of_no_bits, PlaneRegs.withBits])
        fun b => by simp [planeLoop, PlaneRegs.more, PlaneRegs.withBits, hk]⟩
    · refine ⟨[], r, ?_⟩
      simpa [planeLoop, PlaneRegs.more, PlaneRegs.withBits, hk] using
        writesPrefixOf_nil (bitsOf := PlaneRegs.bits) (last := PlaneRegs.withBits r) rfl


/-- The bit-plane code of a block: under every budget the first bits of one sequence (R193). -/
theorem encodeInts_eq_take (n size : Nat) (ublk : List Word) (maxprec : Nat) :
    ∃ full : List Bool, ∀ budget, (encodeInts n size ublk budget maxprec).flatMap Call.written = full.take budget := by
  obtain ⟨full, _, h⟩ := planeLoop_writesPrefixOf size ublk n (PlaneRegs.start n 0 maxprec)
  exact ⟨full, h.written⟩

end Sys2Proof.Machine

/-! The bits of a command (R92, R96): the header, cut like a stage of the code, then the planes under what is left of `maxbits`. The
biased exponent of a finite block fits the header's field (R123). -/

namespace Sys2Proof.Machine

/-! ### The header -/

/-- The header is the low `EBITS + 1` bits of `2·e + 1`, bit 0 first (R92). -/
theorem headerCode_eq (kind : Kind) (e : Nat) : headerCode kind e = (List.range (ebits kind + 1)).map (2 * e + 1).testBit := by
  have htail : ∀ j, (2 * e + 1).testBit (j + 1) = e.testBit j := fun j => by
    rw [Nat.testBit_add_one, show (2 * e + 1) / 2 = e by omega]
  simp [headerCode, List.range_succ_eq_map, Function.comp_def, htail]

theorem length_headerCode (kind : Kind) (e : Nat) : (headerCode kind e).length = ebits kind + 1 := by simp [headerCode]

/-- The header call writes the header, cut at `maxbits` (R92, R206). -/
theorem written_headerCall {kind : Kind} (hk : isFloat kind = true) (maxbits e : Nat) :
    (headerCall kind maxbits e).written = (headerCode kind e).take maxbits := by
  have hh : headerBits kind maxbits = min maxbits (ebits kind + 1) := by rw [headerBits, if_pos hk, Nat.min_comm]
  have hw : min maxbits (ebits kind + 1) ≤ 64 := by cases kind <;> simp [ebits]
  rw [headerCode_eq, ← List.map_take, List.take_range, headerCall, Call.written, hh]
  refine List.map_congr_left fun j hj => ?_
  have hj := List.mem_range.mp hj
  rw [BitVec.getLsbD_ofNat, Nat.testBit_mod_two_pow]
  simp [hj, hj.trans_le hw]

/-- What a float command leaves to its planes: `maxbits` less the whole header, none where the header is cut (R205 step 6, R206). -/
theorem commandBudget_of_float {kind : Kind} (hk : isFloat kind = true) (maxbits : Nat) :
    commandBudget kind maxbits = maxbits - (ebits kind + 1) := by
  rw [commandBudget, headerBits, if_pos hk]
  omega

theorem commandBudget_of_not_float {kind : Kind} (hk : isFloat kind = false) (maxbits : Nat) : commandBudget kind maxbits = maxbits := by
  simp [commandBudget, headerBits, hk]

/-- The bits of a float command that is coded (R92, R205). -/
theorem commandBits_of_ne_zero {p : Config.Params} {kind : Kind} {block : List Word} (hk : isFloat kind = true)
    (h : commandExponent p kind block ≠ 0) (dims : BitVec 2) (maxbits : Nat) :
    commandBits p kind dims maxbits block = (headerCode kind (commandExponent p kind block)).take maxbits ++
      (encodeInts (width kind) (blockSize dims) (reorderedBlock kind dims (integerBlock kind block)) (maxbits - (ebits kind + 1))
        (commandPrecision p kind block)).flatMap Call.written := by
  rw [commandBits, commandCalls_of_ne_zero hk h, List.flatMap_append, List.flatMap_singleton, written_headerCall hk,
    commandBudget_of_float hk, commandPrecision, if_pos hk]

/-- The bits of a command under every `maxbits` are the first bits of one sequence (R96). -/
theorem commandBits_eq_take (p : Config.Params) (kind : Kind) (dims : BitVec 2) (block : List Word) :
    ∃ full : List Bool, ∀ maxbits, commandBits p kind dims maxbits block = full.take maxbits := by
  cases hk : isFloat kind with
  | true =>
    by_cases he : commandExponent p kind block = 0
    · exact ⟨[], fun maxbits => by simp [commandBits, commandCalls_of_zero hk he]⟩
    · obtain ⟨planes, hplanes⟩ := encodeInts_eq_take (width kind) (blockSize dims)
        (reorderedBlock kind dims (integerBlock kind block)) (commandPrecision p kind block)
      refine ⟨headerCode kind (commandExponent p kind block) ++ planes, fun maxbits => ?_⟩
      rw [commandBits_of_ne_zero hk he, hplanes, List.take_append, length_headerCode]
  | false =>
    obtain ⟨planes, hplanes⟩ := encodeInts_eq_take (width kind) (blockSize dims)
      (reorderedBlock kind dims (block.map (intOfCell kind))) (width kind)
    exact ⟨planes, fun maxbits => by rw [commandBits, commandCalls_of_not_float hk, commandBudget_of_not_float hk, hplanes]⟩

/-- A command writes at most `maxbits` bits (R91). -/
theorem length_commandBits_le (p : Config.Params) (kind : Kind) (dims : BitVec 2) (maxbits : Nat) (block : List Word) :
    (commandBits p kind dims maxbits block).length ≤ maxbits := by
  obtain ⟨full, h⟩ := commandBits_eq_take p kind dims block
  rw [h, List.length_take]
  exact Nat.min_le_left _ _

/-! ### The biased exponent fits its field -/

/-- A finite scalar's magnitude pattern is below that of infinity (R86). -/
theorem magnitudeField_lt_of_finite {kind : Kind} (hk : isFloat kind = true) {q : Word} (h : isFiniteScalar kind q = true) :
    magnitudeField kind q < 2 ^ fbits kind * (2 ^ ebits kind - 1) := by
  have hfrac := fractionField_lt kind q
  have hexp : exponentField kind q < 2 ^ ebits kind := Nat.mod_lt _ (by positivity)
  have hne : exponentField kind q ≠ 2 ^ ebits kind - 1 := by simpa [isFiniteScalar] using h
  calc magnitudeField kind q
      = 2 ^ fbits kind * exponentField kind q + fractionField kind q := magnitudeField_eq hk q
    _ < 2 ^ fbits kind * (exponentField kind q + 1) := by rw [Nat.mul_add]; omega
    _ ≤ 2 ^ fbits kind * (2 ^ ebits kind - 1) := Nat.mul_le_mul_left _ (by omega)

/-- So is the largest magnitude pattern of a finite block (R125). -/
theorem maxMagnitude_lt_of_finite {kind : Kind} (hk : isFloat kind = true) {block : List Word} (h : isFiniteBlock kind block = true) :
    maxMagnitude kind block < 2 ^ fbits kind * (2 ^ ebits kind - 1) := by
  refine List.foldlRecOn block _ (motive := fun m => m < 2 ^ fbits kind * (2 ^ ebits kind - 1)) ?_ fun m hm q hq => ?_
  · cases kind <;> simp_all [isFloat, fbits, ebits]
  · exact max_lt hm (magnitudeField_lt_of_finite hk (List.all_eq_true.mp h q hq))

/-- For a finite block `emax + EBIAS` is below `2^EBITS` (R123). -/
theorem maxExponent_lt_of_finite {kind : Kind} (hk : isFloat kind = true) {block : List Word} (h : isFiniteBlock kind block = true) :
    maxExponent kind block + ebias kind < 2 ^ ebits kind := by
  have hexp : exponentField kind (BitVec.ofNat 64 (maxMagnitude kind block)) < 2 ^ ebits kind - 1 :=
    calc exponentField kind (BitVec.ofNat 64 (maxMagnitude kind block))
        ≤ maxMagnitude kind block / 2 ^ fbits kind :=
          (Nat.mod_le _ _).trans (Nat.div_le_div_right ((BitVec.toNat_ofNat _ _).trans_le (Nat.mod_le _ _)))
      _ < 2 ^ ebits kind - 1 := Nat.div_lt_of_lt_mul (maxMagnitude_lt_of_finite hk h)
  have hpow : (2 : Int) ≤ 2 ^ ebits kind := by cases kind <;> simp_all [isFloat, ebits]
  have hcast : ((2 ^ ebits kind : Nat) : Int) = 2 ^ ebits kind := by push_cast; rfl
  rw [maxExponent, exponentOf, Config.eoff]
  split
  · split <;> omega
  · omega

/-- A biased exponent that is not 0 is `emax + EBIAS` (R205 step 4). -/
theorem commandExponent_eq_of_ne_zero {p : Config.Params} {kind : Kind} {block : List Word} (h : commandExponent p kind block ≠ 0) :
    (commandExponent p kind block : Int) = maxExponent kind block + ebias kind := by
  rw [commandExponent, biasedExponent] at h ⊢
  split at h
  · rw [if_pos ‹_›]
    omega
  · exact absurd rfl h

end Sys2Proof.Machine

namespace Sys2Proof

open Machine

/-- Settles O57: header and planes are stages of the code, and a stage cut at its budget lets nothing more be written. -/
theorem commandBitsAreAPrefix : Obligations.CommandBitsAreAPrefix := commandBits_eq_take

/-- Settles O54: the bits are those of the header call, then of the planes; `e` fits its field because the block is finite. -/
theorem floatCodeIsHeaderThenPlanes : Obligations.FloatCodeIsHeaderThenPlanes := by
  intro p kind dims maxbits block hk hfinite e
  refine ⟨fun he => ?_, fun he => ?_⟩
  · simp [commandBits, commandCalls_of_zero hk he]
  · have hemax : (e : Int) = maxExponent kind block + ebias kind := commandExponent_eq_of_ne_zero he
    have hlt : e < 2 ^ ebits kind := by exact_mod_cast hemax ▸ maxExponent_lt_of_finite hk hfinite
    exact ⟨hemax, hlt, length_headerCode kind e, commandBits_of_ne_zero hk he dims maxbits⟩

end Sys2Proof

/-! Where the bits of a command come to stand (R91): a call ORs each of its bits in at the cursor and moves on by their number, so the
calls of a listing lay their bits one after the other from the first bit of the block's region. In a stream that holds the region no
event is out of range, and the command completes. -/

namespace Sys2Proof.Machine

/-! ### The bits of a call -/

/-- The global bit at which the writer's next bit comes to stand (R51, R167). -/
def Cursor.globalPos (c : Cursor) : Nat := 64 * c.wordIndex + c.pos

theorem Cursor.globalPos_forward (c : Cursor) (n : Nat) : (c.forward n).globalPos = c.globalPos + n := by
  simp [Cursor.globalPos, Cursor.pos]
  omega

/-- Construction places the cursor at the first bit of the block's region (R165). -/
theorem Cursor.globalPos_construct (blockIdx maxbits : Nat) : (Cursor.construct blockIdx maxbits).globalPos = blockIdx * maxbits := by
  simp only [Cursor.globalPos, Cursor.pos, Cursor.construct, Config.wordBits]
  omega

/-- A list of bits, laid from global bit `first` on, has a 1 at `q`. -/
def LaidAt (first : Nat) (written : List Bool) (q : Nat) : Prop := first ≤ q ∧ written.getD (q - first) false = true

theorem laidAt_nil (first q : Nat) : ¬ LaidAt first [] q := by simp [LaidAt]

/-- Two lists laid one after the other. -/
theorem laidAt_append (first : Nat) (l l' : List Bool) (q : Nat) :
    LaidAt first (l ++ l') q ↔ LaidAt first l q ∨ LaidAt (first + l.length) l' q := by
  simp only [LaidAt, List.getD_eq_getElem?_getD]
  by_cases hq : q - first < l.length
  · rw [List.getElem?_append_left hq]
    constructor
    · exact .inl
    · rintro (h | ⟨h, -⟩)
      · exact h
      · omega
  · rw [List.getElem?_append_right (by omega), List.getElem?_eq_none (l := l) (by omega), Nat.sub_sub]
    simp
    omega

/-- The low `n` bits of a word, laid from `first` on. -/
theorem laidAt_word (first : Nat) (v : Word) (n q : Nat) :
    LaidAt first ((List.range n).map v.getLsbD) q ↔ first ≤ q ∧ q < first + n ∧ v.getLsbD (q - first) = true := by
  refine and_congr_right fun h => ?_
  by_cases hq : q - first < n
  · rw [List.getD_eq_getElem _ _ (by simpa using hq)]
    simp
    omega
  · rw [List.getD_eq_default _ _ (by simpa using hq)]
    simp
    omega

theorem getLsbD_lowBits (n : Nat) (v : Word) (j : Nat) : (lowBits n v).getLsbD j = (decide (j < n) && v.getLsbD j) := by
  rw [lowBits, BitVec.getLsbD_ofNat, Nat.testBit_mod_two_pow]
  by_cases hj : j < 64
  · simp [hj, BitVec.testBit_toNat]
  · simp [hj, BitVec.getLsbD_of_ge v j (Nat.le_of_not_lt hj)]

/-- An event of a value shifted up to bit `sh` of its word: bit `j` of the value comes to stand `j` bits on, up to the word's end. -/
theorem sets_shiftLeft (a sh : Nat) (v : Word) (q : Nat) :
    ({ addr := a, value := v <<< sh } : Event).sets q = true ↔
      64 * a + sh ≤ q ∧ q < 64 * (a + 1) ∧ v.getLsbD (q - (64 * a + sh)) = true := by
  have hplace : a = q / 64 ∧ sh ≤ q % 64 ↔ 64 * a + sh ≤ q ∧ q < 64 * (a + 1) := by omega
  have hbits : a = q / 64 → q - (64 * a + sh) = q % 64 - sh := by omega
  have hmod : q % 64 < 64 := Nat.mod_lt _ (by norm_num)
  rw [← and_assoc, ← hplace, and_assoc, Event.sets, Bool.and_eq_true, decide_eq_true_iff]
  refine and_congr_right fun ha => ?_
  rw [hbits ha]
  rw [Config.wordBits, BitVec.getLsbD_shiftLeft]
  simp only [hmod, decide_true, Bool.true_and, Bool.and_eq_true, Bool.not_eq_true', decide_eq_false_iff_not, not_lt]

/-- An event of what such a shift loses: the value's bits go on in the next word. -/
theorem sets_shiftRight (a : Nat) {sh : Nat} (hsh : sh ≤ 64) (v : Word) (q : Nat) :
    ({ addr := a + 1, value := v >>> (64 - sh) } : Event).sets q = true ↔
      64 * (a + 1) ≤ q ∧ q < 64 * (a + 2) ∧ v.getLsbD (q - (64 * a + sh)) = true := by
  have hplace : a + 1 = q / 64 ↔ 64 * (a + 1) ≤ q ∧ q < 64 * (a + 2) := by omega
  have hbits : a + 1 = q / 64 → q - (64 * a + sh) = 64 - sh + q % 64 := by omega
  rw [← and_assoc, ← hplace, Event.sets, Bool.and_eq_true, decide_eq_true_iff]
  refine and_congr_right fun ha => ?_
  rw [hbits ha]
  simp [Config.wordBits]

/-- The events of a window set its bits at the cursor, whether it straddles a word boundary or not (R168, R169). -/
theorem someSets_writeBitsEvents (c : Cursor) (v : Word) {n : Nat} (hn : n ≤ 64) (q : Nat) :
    SomeSets (writeBitsEvents c v n) q ↔ LaidAt c.globalPos ((List.range n).map v.getLsbD) q := by
  have hsh : c.pos % 64 < 64 := Nat.mod_lt _ (by norm_num)
  have hpos : c.globalPos = 64 * (c.wordIndex + c.pos / 64) + c.pos % 64 := by rw [Cursor.globalPos]; omega
  rw [laidAt_word, writeBitsEvents, Config.wordBits, hpos]
  generalize c.wordIndex + c.pos / 64 = a at *
  generalize c.pos % 64 = sh at *
  by_cases h0 : n = 0
  · simp [h0, SomeSets]
    omega
  · by_cases hsplit : 64 < sh + n
    · cases hbit : v.getLsbD (q - (64 * a + sh)) <;>
        simp [h0, hsplit, SomeSets, sets_shiftLeft, sets_shiftRight a hsh.le, getLsbD_lowBits, hbit]
      omega
    · cases hbit : v.getLsbD (q - (64 * a + sh)) <;> simp [h0, hsplit, SomeSets, sets_shiftLeft, getLsbD_lowBits, hbit]
      omega

/-- The event of `write_bit` is that of a window of one bit, which never straddles a word boundary (R172). -/
theorem writeBitEvents_eq (c : Cursor) (v : Bool) : writeBitEvents c v = writeBitsEvents c ((BitVec.ofBool v).setWidth 64) 1 := by
  have hsh : ¬ 64 < c.pos % 64 + 1 := by have := Nat.mod_lt c.pos (show 0 < 64 by norm_num); omega
  have hlow : lowBits 1 ((BitVec.ofBool v).setWidth 64) = (BitVec.ofBool v).setWidth 64 := by cases v <;> rfl
  simp [writeBitEvents, writeBitsEvents, Config.wordBits, hsh, hlow]

theorem someSets_writeBitEvents (c : Cursor) (v : Bool) (q : Nat) : SomeSets (writeBitEvents c v) q ↔ LaidAt c.globalPos [v] q := by
  rw [writeBitEvents_eq, someSets_writeBitsEvents c _ (by norm_num)]
  cases v <;> rfl

/-- The events of a call set its bits at the cursor (R168, R172). -/
theorem someSets_call {call : Call} (h : call.length ≤ 64) (c : Cursor) (q : Nat) :
    SomeSets (call.events c) q ↔ LaidAt c.globalPos call.written q := by
  cases call with
  | bits v n => exact someSets_writeBitsEvents c v h q
  | bit v => exact someSets_writeBitEvents c v q

/-- The events of a sequence of calls set their bits one after the other from the cursor on (R91). -/
theorem someSets_callEvents {calls : List Call} (h : ∀ call ∈ calls, call.length ≤ 64) (c : Cursor) (q : Nat) :
    SomeSets (callEvents c calls) q ↔ LaidAt c.globalPos (calls.flatMap Call.written) q := by
  induction calls generalizing c with
  | nil => exact iff_of_false (not_someSets_nil q) (laidAt_nil _ q)
  | cons call calls ih =>
    obtain ⟨hcall, hcalls⟩ := List.forall_mem_cons.mp h
    rw [callEvents, someSets_append, someSets_call hcall, ih hcalls, List.flatMap_cons, laidAt_append, Cursor.globalPos_forward,
      Call.length_written]

/-! ### The words of a call -/

/-- The word of an event begins before the end of the call's window. -/
theorem addr_call_lt {call : Call} {c : Cursor} {ev : Event} (h : ev ∈ call.events c) : 64 * ev.addr < c.globalPos + call.length := by
  cases call with
  | bits v n =>
    obtain ⟨hn, haddr | ⟨hsplit, haddr⟩⟩ := addr_writeBitsEvents h <;> simp only [Cursor.globalPos, Call.length, haddr] <;> omega
  | bit v =>
    obtain rfl := List.mem_singleton.mp h
    simp only [Cursor.globalPos, Call.length, Config.wordBits]
    omega

/-- The words of the events of a sequence of calls begin before the end of its bits. -/
theorem addr_callEvents_lt {calls : List Call} {c : Cursor} {ev : Event} (h : ev ∈ callEvents c calls) :
    64 * ev.addr < c.globalPos + (calls.flatMap Call.written).length := by
  induction calls generalizing c with
  | nil => cases h
  | cons call calls ih =>
    rw [List.flatMap_cons, List.length_append, Call.length_written]
    obtain h | h := List.mem_append.mp h
    · have := addr_call_lt h
      omega
    · have := ih h
      rw [Cursor.globalPos_forward] at this
      omega

/-! ### The calls of a command are of at most a word -/

theorem length_of_mem_unaryLoop {size fuel : Nat} {c : Coder} {call : Call} (h : call ∈ (unaryLoop size fuel c).2) : call.length = 1 := by
  induction fuel generalizing c with
  | zero => cases h
  | succ fuel ih =>
    rw [unaryLoop] at h
    split_ifs at h
    · obtain rfl := List.mem_singleton.mp h; rfl
    · obtain rfl | h := List.mem_cons.mp h
      · rfl
      · exact ih h
    · cases h

theorem length_of_mem_groupLoop {size fuel : Nat} {c : Coder} {call : Call} (h : call ∈ (groupLoop size fuel c).2) : call.length = 1 := by
  induction fuel generalizing c with
  | zero => cases h
  | succ fuel ih =>
    rw [groupLoop] at h
    split_ifs at h
    · obtain rfl := List.mem_singleton.mp h; rfl
    · obtain rfl | h := List.mem_cons.mp h
      · rfl
      · exact (List.mem_append.mp h).elim length_of_mem_unaryLoop ih
    · cases h

/-- The raw bits of a plane are at most `n`; every other call writes one bit (R188, R189). -/
theorem length_of_mem_codePlane {size : Nat} {ublk : List Word} {r : PlaneRegs} {call : Call} (h : call ∈ (codePlane size ublk r).2) :
    call.length ≤ max r.n 1 := by
  obtain rfl | h := List.mem_cons.mp h
  · exact (Nat.min_le_left _ _).trans (le_max_left _ _)
  · exact (length_of_mem_groupLoop h).trans_le (le_max_right _ _)

/-- The calls of the plane loop are of at most a word: `n` never outgrows the block (R186). -/
theorem length_of_mem_planeLoop {size : Nat} (hsize : size ≤ 64) {ublk : List Word} {fuel : Nat} {r : PlaneRegs} (hn : r.n ≤ size)
    {call : Call} (h : call ∈ (planeLoop size ublk fuel r).2) : call.length ≤ 64 := by
  induction fuel generalizing r with
  | zero => cases h
  | succ fuel ih =>
    rw [planeLoop] at h
    split_ifs at h
    · obtain ⟨-, -, -, hnext, -⟩ := codePlane_counts size ublk r
      obtain h | h := List.mem_append.mp h
      · have := length_of_mem_codePlane h
        omega
      · exact ih (by omega) h
    · cases h

theorem blockSize_le (dims : BitVec 2) : blockSize dims ≤ 64 :=
  (Nat.pow_le_pow_right (by norm_num) (by have := dims.isLt; omega : dims.toNat ≤ 3)).trans (by norm_num)

/-- Every writer call of a command is of at most a word, the header included. -/
theorem length_of_mem_commandCalls {p : Config.Params} {kind : Kind} {dims : BitVec 2} {maxbits : Nat} {block : List Word} {call : Call}
    (h : call ∈ commandCalls p kind dims maxbits block) : call.length ≤ 64 := by
  rw [commandCalls] at h
  split_ifs at h with hdropped hk
  · cases h
  · obtain h | h := List.mem_append.mp h
    · obtain rfl := List.mem_singleton.mp h
      rw [headerCall, Call.length, headerBits]
      cases kind <;> simp [isFloat, ebits]
    · exact length_of_mem_planeLoop (blockSize_le dims) (Nat.zero_le _) h
  · exact length_of_mem_planeLoop (blockSize_le dims) (Nat.zero_le _) h

/-! ### The events of a command -/

/-- The events of a command set the bits it writes, in order, from the first bit of the block's region on (R91). -/
theorem someSets_commandEvents (p : Config.Params) (kind : Kind) (dims : BitVec 2) (maxbits : BitVec 16) (blockIdx : BitVec 32)
    (block : List Word) (q : Nat) :
    SomeSets (commandEvents p kind dims maxbits blockIdx block) q ↔
      LaidAt (blockIdx.toNat * maxbits.toNat) (commandBits p kind dims maxbits.toNat block) q := by
  rw [commandEvents, someSets_callEvents fun call h => length_of_mem_commandCalls h, Cursor.globalPos_construct, commandBits]

/-- Where the region fits the stream, every event of a command is in range (R53). -/
theorem commandEvents_inRange {p : Config.Params} {maxbits : BitVec 16} {blockIdx : BitVec 32}
    (hfits : RegionFits p maxbits.toNat blockIdx.toNat) (kind : Kind) (dims : BitVec 2) (block : List Word) :
    ∀ ev ∈ commandEvents p kind dims maxbits blockIdx block, ev.addr < p.streamWords := by
  intro ev hev
  have haddr := addr_callEvents_lt hev
  have hbits := length_commandBits_le p kind dims maxbits.toNat block
  rw [Cursor.globalPos_construct] at haddr
  rw [RegionFits, Config.wordBits, Nat.add_mul, Nat.one_mul] at hfits
  rw [commandBits] at hbits
  omega

/-! ### A command in range completes -/

theorem Worker.phase_of_actionsLeft_eq_zero {w : Worker} (h : w.actionsLeft = 0) : w.phase = .idle := by
  rw [Worker.actionsLeft] at h
  split at h <;> simp_all

/-- A worker of which every event is in range runs to its completion (R53, R286). -/
theorem Worker.run_completes {p : Config.Params} {fuel : Nat} {w : Worker} (m : Memory) (hfuel : w.actionsLeft ≤ fuel)
    (hle : w.actionsLeft ≤ sequencerBound) (hrange : ∀ ev ∈ w.remaining p, ev.addr < p.streamWords) :
    (w.run p fuel m).1.phase = .idle := by
  induction fuel generalizing w m with
  | zero => exact Worker.phase_of_actionsLeft_eq_zero (Nat.le_zero.mp hfuel)
  | succ fuel ih =>
    by_cases hb : w.phase = .idle
    · rw [Worker.run_idle ((Worker.not_busy_iff w).mpr hb)]
      exact hb
    · have hleft := Worker.actionsLeft_advance p (w := { w with pending := [] }) hb
      have hw : Worker.actionsLeft { w with pending := [] } = w.actionsLeft := rfl
      rw [Worker.remaining_of_busy hb hle, List.forall_mem_append] at hrange
      obtain ⟨hpending, hrest⟩ := hrange
      have hperformed := performEvents_inRange hpending m
      rw [Worker.run_succ_of_inRange ((Worker.busy_iff w).mpr hb) (by rw [hperformed])]
      exact ih _ (by omega) (by omega) hrest

theorem runToCompletion_stream {s : State} {i : Nat} {w : Worker} (hw : s.workers[i]? = some w) :
    (runToCompletion i s).stream = (w.run s.params sequencerBound s.stream).2 := by
  simp [runToCompletion, hw]

/-- The stream after a run of a worker from the issue of a command in range: the bits of the command's listing are added (R62). -/
theorem globalBit_run_load {p : Config.Params} {m : Memory} (hm : m.wf = true) (w : Worker) (kind : Kind) {dims : BitVec 2}
    (hd : dims ≠ 0) {maxbits : BitVec 16} {blockIdx : BitVec 32} (space : List Word)
    (hfits : RegionFits p maxbits.toNat blockIdx.toNat) (q : Nat) :
    (Worker.run p sequencerBound (w.load kind dims maxbits blockIdx space) m).2.globalBit q = true ↔
      m.globalBit q = true ∨
        SomeSets (commandEvents p kind dims maxbits blockIdx (operandBlock kind (blockSize dims) space)) q := by
  have howed := Worker.remaining_load p w kind hd maxbits blockIdx space
  have hle : (w.load kind dims maxbits blockIdx space).actionsLeft ≤ sequencerBound := Worker.actionsLeft_le (by simp)
  have hidle := Worker.run_completes m hle hle (by rw [howed]; exact commandEvents_inRange hfits kind dims _)
  have hbits := (Worker.run_conserves (p := p) sequencerBound hle hm).bits q
  rw [Worker.WillSet, Worker.WillSet, Worker.remaining_of_idle hidle, howed, or_iff_left (not_someSets_nil q)] at hbits
  exact hbits

end Sys2Proof.Machine

namespace Sys2Proof

open Machine

/-- Settles O17: the command's worker runs to its completion, which adds to the stream the bits its listing's calls lay one after the
other. -/
theorem commandPlacesItsBitsInOrder : Obligations.CommandPlacesItsBitsInOrder := by
  intro i s w hw hfinite hfits hwf written first
  refine ⟨length_commandBits_le _ _ _ _ _, runToCompletion s.port.worker
    (s.setWorker s.port.worker (w.load i.kind i.dims i.maxbits i.blockIdx s.port.block)), ?_, fun q => Bool.eq_iff_iff.mpr ?_⟩
  · rw [exec_eq_runCommand, runCommand, issueCommand_of_accepts hw hfinite]
  · rw [runToCompletion_stream (State.setWorker_getElem?_self _ hw.1), State.setWorker_params, State.setWorker_stream,
      globalBit_run_load hwf w i.kind (dims_ne_zero i) s.port.block hfits, someSets_commandEvents]
    simp [LaidAt, written, first]

end Sys2Proof

/-! The negabinary map (R110) and `uint_to_int` (R112): each adds or takes away `M` modulo `2^N` and flips the bits of `M`, and the two
flips cancel. What is left is that `bits_N` and `signed_N` (R11) keep a value modulo `2^N`. -/

namespace Sys2Proof.Machine

/-! ### `bits_N` and `signed_N` -/

theorem bitsN_cast (n : Nat) (v : Int) : (bitsN n v : Int) = v % 2 ^ n :=
  Int.toNat_of_nonneg (Int.emod_nonneg _ (by positivity))

theorem bitsN_lt (n : Nat) (v : Int) : bitsN n v < 2 ^ n := by
  have h : (bitsN n v : Int) < 2 ^ n := bitsN_cast n v ▸ Int.emod_lt_of_pos v (by positivity)
  exact_mod_cast h

/-- `bits_N` sees a value modulo `2^N` only. -/
theorem bitsN_congr {n : Nat} {v v' : Int} (h : v ≡ v' [ZMOD 2 ^ n]) : bitsN n v = bitsN n v' := congrArg Int.toNat h

theorem bitsN_modEq (n : Nat) (v : Int) : (bitsN n v : Int) ≡ v [ZMOD 2 ^ n] := by
  rw [bitsN_cast]
  exact Int.mod_modEq v _

theorem bitsN_natCast {n u : Nat} (h : u < 2 ^ n) : bitsN n u = u := by
  rw [← Int.natCast_inj, bitsN_cast]
  exact_mod_cast Nat.mod_eq_of_lt h

theorem signedN_modEq (n u : Nat) : signedN n u ≡ u [ZMOD 2 ^ n] := by
  rw [signedN]
  split
  · rfl
  · exact Int.sub_modulus_modEq_iff.mpr rfl

/-- Values congruent modulo `2^N` wrap to the same `Int_N` (R12). -/
theorem wrap_congr {n : Nat} {v v' : Int} (h : v ≡ v' [ZMOD 2 ^ n]) : wrap n v = wrap n v' := by
  have hmod : v % (2 ^ n : Nat) = v' % (2 ^ n : Nat) := by exact_mod_cast h
  rw [wrap, wrap, ← Int.emod_bmod v, hmod, Int.emod_bmod]

/-- Two `Int_N` that agree modulo `2^N` are equal. -/
theorem IsInt.eq_of_modEq {n : Nat} (hn : 0 < n) {v v' : Int} (hv : IsInt n v) (hv' : IsInt n v') (h : v ≡ v' [ZMOD 2 ^ n]) :
    v = v' := by
  rw [← wrap_of_isInt hn hv, wrap_congr h, wrap_of_isInt hn hv']

/-! ### The map and its inverse -/

theorem negabinaryMask_lt {n : Nat} (hn : n = 32 ∨ n = 64) : negabinaryMask n < 2 ^ n := by
  rcases hn with rfl | rfl <;> decide

/-- The map, with its addition in the integers (R110). -/
theorem intToUint_eq (n : Nat) (x : Int) : intToUint n x = bitsN n (x + negabinaryMask n) ^^^ negabinaryMask n := by
  have hadd : (bitsN n x + negabinaryMask n) % 2 ^ n = bitsN n (x + negabinaryMask n) := by
    rw [← Int.natCast_inj, bitsN_cast]
    push_cast
    exact (bitsN_modEq n x).add_right _
  rw [intToUint, hadd]

theorem intToUint_lt {n : Nat} (hn : n = 32 ∨ n = 64) (x : Int) : intToUint n x < 2 ^ n := by
  rw [intToUint_eq]
  exact Nat.xor_lt_two_pow (bitsN_lt n _) (negabinaryMask_lt hn)

theorem uintToInt_isInt {n : Nat} (hn : 0 < n) (u : Nat) : IsInt n (uintToInt n u) := signedN_isInt hn (bitsN_lt n _)

theorem uintToInt_modEq (n u : Nat) : uintToInt n u ≡ ((u ^^^ negabinaryMask n : Nat) : Int) - negabinaryMask n [ZMOD 2 ^ n] :=
  (signedN_modEq n _).trans (bitsN_modEq n _)

theorem uintToInt_intToUint {n : Nat} (hn : 0 < n) {x : Int} (hx : IsInt n x) : uintToInt n (intToUint n x) = x := by
  refine (uintToInt_isInt hn _).eq_of_modEq hn hx ?_
  calc uintToInt n (intToUint n x)
      ≡ ((intToUint n x ^^^ negabinaryMask n : Nat) : Int) - negabinaryMask n [ZMOD 2 ^ n] := uintToInt_modEq n _
    _ = bitsN n (x + negabinaryMask n) - negabinaryMask n := by rw [intToUint_eq, Nat.xor_xor_cancel_right]
    _ ≡ x + negabinaryMask n - negabinaryMask n [ZMOD 2 ^ n] := (bitsN_modEq n _).sub_right _
    _ = x := add_sub_cancel_right x _

theorem intToUint_uintToInt {n u : Nat} (hn : n = 32 ∨ n = 64) (hu : u < 2 ^ n) : intToUint n (uintToInt n u) = u := by
  have hback : uintToInt n u + negabinaryMask n ≡ (u ^^^ negabinaryMask n : Nat) [ZMOD 2 ^ n] := by
    simpa using (uintToInt_modEq n u).add_right (negabinaryMask n)
  rw [intToUint_eq, bitsN_congr hback, bitsN_natCast (Nat.xor_lt_two_pow hu (negabinaryMask_lt hn)), Nat.xor_xor_cancel_right]

end Sys2Proof.Machine

namespace Sys2Proof

open Machine

/-- Settles O42: the map and `uint_to_int` undo each other in both directions; the two values are R112's own. -/
theorem negabinaryMapIsABijection : Obligations.NegabinaryMapIsABijection := by
  intro n hn
  have hpos : 0 < n := by omega
  refine ⟨fun x hx => ⟨intToUint_lt hn x, uintToInt_intToUint hpos hx⟩,
    fun u hu => ⟨uintToInt_isInt hpos u, intToUint_uintToInt hn hu⟩, ?_⟩
  rcases hn with rfl | rfl <;> decide

end Sys2Proof

/-! The quantizer against exact values (R121 to R132). A scalar's magnitude is its significand on the scale of its effective exponent, so
it grows with the magnitude pattern and lies between the powers of two that its exponent field names; the shift of the cast multiplies
the same significand by one power of two. -/

namespace Sys2Proof.Machine

/-! ### The exact value of a scalar -/

/-- The power of two a scalar's significand counts in (R86, R131). -/
def scaleExponent (kind : Kind) (p : Word) : Int := (effectiveExponent kind p : Int) - ebias kind - fbits kind

/-- The value is the significand on its scale, with the sign (R86). -/
theorem scalarValue_eq (kind : Kind) (p : Word) :
    scalarValue kind p = (if signField kind p then -1 else 1) * (significand kind p * 2 ^ scaleExponent kind p) := by
  rw [scalarValue, significand, scaleExponent, effectiveExponent]
  split_ifs <;> push_cast <;> ring

theorem abs_scalarValue (kind : Kind) (p : Word) : |scalarValue kind p| = significand kind p * 2 ^ scaleExponent kind p := by
  have hpos : (0 : ℚ) ≤ significand kind p * 2 ^ scaleExponent kind p := by positivity
  rw [scalarValue_eq]
  split_ifs <;> simp [abs_of_nonneg hpos]

theorem significand_of_denormal {kind : Kind} {p : Word} (h : exponentField kind p = 0) : significand kind p = fractionField kind p := by
  rw [significand, if_pos h]

theorem significand_of_normal {kind : Kind} {p : Word} (h : exponentField kind p ≠ 0) :
    significand kind p = 2 ^ fbits kind + fractionField kind p := by
  rw [significand, if_neg h]

theorem scaleExponent_of_denormal {kind : Kind} {p : Word} (h : exponentField kind p = 0) :
    scaleExponent kind p = 1 - ebias kind - fbits kind := by
  rw [scaleExponent, effectiveExponent, if_pos h, Nat.cast_one]

theorem scaleExponent_of_normal {kind : Kind} {p : Word} (h : exponentField kind p ≠ 0) :
    scaleExponent kind p = exponentField kind p - ebias kind - fbits kind := by
  rw [scaleExponent, effectiveExponent, if_neg h]

/-- Every significand has at most `FBITS + 1` bits (R131). -/
theorem significand_lt (kind : Kind) (p : Word) : significand kind p < 2 ^ (fbits kind + 1) := by
  have hfrac := fractionField_lt kind p
  rw [significand, pow_succ]
  split <;> omega

theorem magnitudeField_eq_zero_iff {kind : Kind} (hk : isFloat kind = true) (p : Word) :
    magnitudeField kind p = 0 ↔ exponentField kind p = 0 ∧ fractionField kind p = 0 := by
  simp [magnitudeField_eq hk]

theorem significand_eq_zero_iff {kind : Kind} (hk : isFloat kind = true) (p : Word) :
    significand kind p = 0 ↔ magnitudeField kind p = 0 := by
  rw [magnitudeField_eq_zero_iff hk]
  by_cases hE : exponentField kind p = 0
  · simp [significand_of_denormal hE, hE]
  · simp [significand_of_normal hE, hE]

/-- The zeros are the scalars of magnitude pattern 0, of either sign (R86). -/
theorem scalarValue_eq_zero_iff {kind : Kind} (hk : isFloat kind = true) (p : Word) :
    scalarValue kind p = 0 ↔ magnitudeField kind p = 0 := by
  have hscale : (2 : ℚ) ^ scaleExponent kind p ≠ 0 := by positivity
  rw [← abs_eq_zero, abs_scalarValue, ← significand_eq_zero_iff hk]
  simp [hscale]

theorem abs_scalarValue_lt {kind : Kind} {p : Word} {k : Nat} (h : significand kind p < 2 ^ k) :
    |scalarValue kind p| < 2 ^ (scaleExponent kind p + k) := by
  have hsig : (significand kind p : ℚ) < 2 ^ k := by exact_mod_cast h
  rw [abs_scalarValue, zpow_add₀ (by norm_num), zpow_natCast, mul_comm]
  gcongr

theorem le_abs_scalarValue {kind : Kind} {p : Word} {k : Nat} (h : 2 ^ k ≤ significand kind p) :
    2 ^ (scaleExponent kind p + k) ≤ |scalarValue kind p| := by
  have hsig : (2 : ℚ) ^ k ≤ significand kind p := by exact_mod_cast h
  rw [abs_scalarValue, zpow_add₀ (by norm_num), zpow_natCast, mul_comm]
  gcongr

/-- Below `2^(1-EBIAS)` there are the denormals (R86). -/
theorem abs_scalarValue_lt_of_denormal {kind : Kind} {p : Word} (hE : exponentField kind p = 0) :
    |scalarValue kind p| < 2 ^ (1 - ebias kind) := by
  have h := abs_scalarValue_lt (significand_of_denormal hE ▸ fractionField_lt kind p)
  rwa [scaleExponent_of_denormal hE, sub_add_cancel] at h

/-- A normal scalar's exponent field, less the bias, names the power of two at or below its magnitude (R86). -/
theorem two_zpow_le_abs_scalarValue_of_normal {kind : Kind} {p : Word} (hE : exponentField kind p ≠ 0) :
    2 ^ ((exponentField kind p : Int) - ebias kind) ≤ |scalarValue kind p| := by
  have h := le_abs_scalarValue (significand_of_normal hE ▸ Nat.le_add_right _ _)
  rwa [scaleExponent_of_normal hE, sub_add_cancel] at h

theorem abs_scalarValue_lt_of_normal {kind : Kind} {p : Word} (hE : exponentField kind p ≠ 0) :
    |scalarValue kind p| < 2 ^ ((exponentField kind p : Int) - ebias kind + 1) := by
  have h := abs_scalarValue_lt (significand_lt kind p)
  rwa [scaleExponent_of_normal hE, Nat.cast_add_one, ← add_assoc, sub_add_cancel] at h

/-- A scalar of a larger exponent field has a larger magnitude: a power of two lies between the two. -/
theorem abs_scalarValue_lt_of_exponentField_lt {kind : Kind} {p q : Word} (h : exponentField kind p < exponentField kind q) :
    |scalarValue kind p| < |scalarValue kind q| := by
  refine lt_of_lt_of_le ?_ (two_zpow_le_abs_scalarValue_of_normal (p := q) (by omega))
  by_cases hp : exponentField kind p = 0
  · exact (abs_scalarValue_lt_of_denormal hp).trans_le (zpow_le_zpow_right₀ one_le_two (by omega))
  · exact (abs_scalarValue_lt_of_normal hp).trans_le (zpow_le_zpow_right₀ one_le_two (by omega))

/-- Magnitudes order as their patterns do (R125). -/
theorem abs_scalarValue_mono {kind : Kind} (hk : isFloat kind = true) {p q : Word}
    (h : magnitudeField kind p ≤ magnitudeField kind q) : |scalarValue kind p| ≤ |scalarValue kind q| := by
  rcases (exponentField_mono hk h).lt_or_eq with hlt | heq
  · exact (abs_scalarValue_lt_of_exponentField_lt hlt).le
  · rw [magnitudeField_eq hk, magnitudeField_eq hk, heq] at h
    have hsig : significand kind p ≤ significand kind q := by
      rw [significand, significand, heq]
      split <;> omega
    have hscale : scaleExponent kind p = scaleExponent kind q := by
      rw [scaleExponent, scaleExponent, effectiveExponent, effectiveExponent, heq]
    rw [abs_scalarValue, abs_scalarValue, hscale]
    gcongr

/-! ### `exponent` -/

theorem exponentOf_of_zero {kind : Kind} (hk : isFloat kind = true) {p : Word} (h : magnitudeField kind p = 0) :
    exponentOf kind p = -ebias kind := by
  obtain ⟨hE, hF⟩ := (magnitudeField_eq_zero_iff hk p).mp h
  rw [exponentOf, if_pos hE, if_pos hF]

theorem exponentOf_of_denormal {kind : Kind} (hk : isFloat kind = true) {p : Word} (h : magnitudeField kind p ≠ 0)
    (hE : exponentField kind p = 0) : exponentOf kind p = 1 - ebias kind := by
  rw [exponentOf, if_pos hE, if_neg fun hF => h ((magnitudeField_eq_zero_iff hk p).mpr ⟨hE, hF⟩)]

theorem exponentOf_of_normal {kind : Kind} {p : Word} (hE : exponentField kind p ≠ 0) :
    exponentOf kind p = exponentField kind p - ebias kind + 1 := by
  rw [exponentOf, if_neg hE, Config.eoff]

/-- `exponent` reads the magnitude pattern alone (R122, R125). -/
theorem exponentOf_congr {kind : Kind} (hk : isFloat kind = true) {p q : Word} (h : magnitudeField kind p = magnitudeField kind q) :
    exponentOf kind p = exponentOf kind q := by
  have hE : exponentField kind p = exponentField kind q := le_antisymm (exponentField_mono hk h.le) (exponentField_mono hk h.ge)
  have hF : fractionField kind p = fractionField kind q := by
    rw [magnitudeField_eq hk, magnitudeField_eq hk, hE] at h
    omega
  rw [exponentOf, exponentOf, hE, hF]

theorem log_abs_scalarValue_lt_of_denormal {kind : Kind} {p : Word} (hpos : 0 < |scalarValue kind p|) (hE : exponentField kind p = 0) :
    Int.log 2 |scalarValue kind p| < 1 - ebias kind :=
  (Int.lt_zpow_iff_log_lt one_lt_two hpos).mp (mod_cast abs_scalarValue_lt_of_denormal hE)

/-- The exponent field of a normal scalar, less the bias, is the `floor(log2)` of its magnitude (R121, R122). -/
theorem log_abs_scalarValue_of_normal {kind : Kind} {p : Word} (hpos : 0 < |scalarValue kind p|) (hE : exponentField kind p ≠ 0) :
    Int.log 2 |scalarValue kind p| = exponentField kind p - ebias kind := by
  have hge := (Int.zpow_le_iff_le_log one_lt_two hpos).mp (mod_cast two_zpow_le_abs_scalarValue_of_normal hE)
  have hlt := (Int.lt_zpow_iff_log_lt one_lt_two hpos).mp (mod_cast abs_scalarValue_lt_of_normal hE)
  omega

/-- `exponent` from the fields is the clamped `floor(log2) + 1` of the exact magnitude (R121). -/
theorem exponentOf_eq_clamped_log {kind : Kind} (hk : isFloat kind = true) (p : Word) :
    exponentOf kind p =
      if 0 < |scalarValue kind p| then max (Int.log 2 |scalarValue kind p| + 1) (1 - ebias kind) else -ebias kind := by
  by_cases h0 : magnitudeField kind p = 0
  · rw [exponentOf_of_zero hk h0, (scalarValue_eq_zero_iff hk p).mpr h0, abs_zero, if_neg (lt_irrefl 0)]
  · have hpos : 0 < |scalarValue kind p| := abs_pos.mpr (mt (scalarValue_eq_zero_iff hk p).mp h0)
    rw [if_pos hpos]
    by_cases hE : exponentField kind p = 0
    · have hlog := log_abs_scalarValue_lt_of_denormal hpos hE
      rw [exponentOf_of_denormal hk h0 hE, max_eq_right (by omega)]
    · rw [exponentOf_of_normal hE, log_abs_scalarValue_of_normal hpos hE, max_eq_left (by omega)]

/-- The range of `exponent` (R123). -/
theorem exponentOf_range {kind : Kind} (hk : isFloat kind = true) {p : Word} (h : isFiniteScalar kind p = true) :
    exponentOf kind p = -ebias kind ∨ (1 - ebias kind ≤ exponentOf kind p ∧ exponentOf kind p ≤ ebias kind + 1) := by
  have hbias : (2 : Int) ^ ebits kind = 2 * ebias kind + 2 ∧ 0 ≤ ebias kind := by cases kind <;> simp_all [isFloat, ebits, ebias]
  by_cases h0 : magnitudeField kind p = 0
  · exact .inl (exponentOf_of_zero hk h0)
  · by_cases hE : exponentField kind p = 0
    · rw [exponentOf_of_denormal hk h0 hE]
      omega
    · have hlt : exponentField kind p < 2 ^ ebits kind := Nat.mod_lt _ (by positivity)
      have hne : exponentField kind p ≠ 2 ^ ebits kind - 1 := by simpa [isFiniteScalar] using h
      have hcast : ((2 ^ ebits kind : Nat) : Int) = 2 ^ ebits kind := by push_cast; rfl
      rw [exponentOf_of_normal hE]
      omega

/-! ### `max_exponent` -/

theorem exists_largest_magnitudeField (kind : Kind) {block : List Word} (h : block ≠ []) :
    ∃ p ∈ block, ∀ q ∈ block, magnitudeField kind q ≤ magnitudeField kind p := by
  simpa using block.toFinset.exists_max_image (magnitudeField kind) (by simpa using h)

/-- `max_exponent` is `exponent` of any scalar of the largest magnitude pattern (R124, R125). -/
theorem maxExponent_of_largest {kind : Kind} (hk : isFloat kind = true) {block : List Word} {p : Word} (hp : p ∈ block)
    (hmax : ∀ q ∈ block, magnitudeField kind q ≤ magnitudeField kind p) : maxExponent kind block = exponentOf kind p := by
  have hle : maxMagnitude kind block ≤ magnitudeField kind p :=
    List.foldlRecOn block _ (motive := (· ≤ magnitudeField kind p)) (Nat.zero_le _) fun _ hm q hq => max_le hm (hmax q hq)
  refine exponentOf_congr hk (le_antisymm ?_ (magnitudeField_le_max hp))
  calc magnitudeField kind (BitVec.ofNat 64 (maxMagnitude kind block))
      ≤ maxMagnitude kind block := (Nat.mod_le _ _).trans ((BitVec.toNat_ofNat _ _).trans_le (Nat.mod_le _ _))
    _ ≤ magnitudeField kind p := hle

/-! ### The cast -/

/-- Truncation toward zero does not look at the sign (R14). -/
theorem truncate_neg (q : ℚ) : truncate (-q) = -truncate q := by
  rcases lt_trichotomy q 0 with h | rfl | h
  · rw [truncate, truncate, if_pos (by linarith), if_neg (by linarith), neg_neg]
  · simp [truncate]
  · rw [truncate, truncate, if_neg (by linarith), if_pos h.le, neg_neg]

/-- The shift is the significand's scale moved by the factor's exponent (R127, R131). -/
theorem castShift_eq (kind : Kind) (emax : Int) (p : Word) :
    castShift kind emax p = scaleExponent kind p + ((width kind : Int) - 2 - emax) := rfl

/-- The shifter keeps the whole part of the exact product: a left shift drops nothing, a right shift drops the bits below one (R131). -/
theorem floor_significand_shifted (kind : Kind) (emax : Int) (p : Word) :
    ⌊(significand kind p : ℚ) * 2 ^ castShift kind emax p⌋ = castMagnitude kind emax p := by
  rw [castMagnitude]
  split
  · case isTrue h =>
    obtain ⟨k, hk⟩ := Int.eq_ofNat_of_zero_le h
    rw [hk, zpow_natCast, Int.toNat_natCast]
    exact_mod_cast Int.floor_natCast (R := ℚ) (significand kind p * 2 ^ k)
  · case isFalse h =>
    obtain ⟨k, hk⟩ := Int.eq_ofNat_of_zero_le (a := -castShift kind emax p) (by omega)
    rw [show castShift kind emax p = -(k : Int) by omega, neg_neg, Int.toNat_natCast, zpow_neg, zpow_natCast, ← div_eq_mul_inv]
    exact_mod_cast Rat.floor_natCast_div_natCast (significand kind p) (2 ^ k)

/-- The shifter's result is the exact product, truncated toward zero (R130, R131). -/
theorem castScalar_eq_truncate (kind : Kind) (emax : Int) (p : Word) :
    castScalar kind emax p = truncate (scalarValue kind p * 2 ^ ((width kind : Int) - 2 - emax)) := by
  have hmag : truncate (significand kind p * 2 ^ castShift kind emax p) = castMagnitude kind emax p := by
    rw [truncate, if_pos (by positivity), floor_significand_shifted]
  rw [castScalar, scalarValue_eq, mul_assoc, mul_assoc, ← zpow_add₀ (by norm_num), ← castShift_eq]
  split_ifs
  · rw [neg_one_mul, truncate_neg, hmag]
  · rw [one_mul, hmag]

/-- Phase `CAST` leaves the cast of the scalar in every cell of the block (R130). -/
theorem intOfCell_castPhase {w : Worker} (hk : isFloat w.kind = true)
    (hemax : w.emax = maxExponent w.kind (blockCells (blockSize w.dims) w.fblk)) {j : Nat} (hj : j < blockSize w.dims) :
    intOfCell w.kind (cell (castPhase w).iblk j) = castScalar w.kind w.emax (cell w.fblk j) := by
  have hmem : cell w.fblk j ∈ blockCells (blockSize w.dims) w.fblk := List.mem_map.mpr ⟨j, List.mem_range.mpr hj, rfl⟩
  have hcell : cell (castPhase w).iblk j = cellOfInt (castScalar w.kind w.emax (cell w.fblk j)) := by
    rw [castPhase, cell_rewriteFile, if_pos (by simpa using hj)]
    simp [cell, blockCells, hj]
  rw [hcell, intOfCell_cellOfInt (hemax ▸ castScalar_isInt hk hmem)]

end Sys2Proof.Machine

namespace Sys2Proof

open Machine

/-- Settles O48: the shifter truncates the exact product for every pattern; the cells of `iblk` give the cast back because it is an
`Int_N`. -/
theorem castIsTheExactProductTruncated : Obligations.CastIsTheExactProductTruncated := by
  intro kind emax p _ _
  refine ⟨castScalar_eq_truncate kind emax p, fun pr w hk hphase _ hemax j hj => ?_, by decide⟩
  rw [Worker.advance_cast hphase, intOfCell_castPhase hk hemax hj, castScalar_eq_truncate]

/-- Settles O49: the cast's magnitude is below `2^(N-2)` against the exponent of the largest, and its sign is free. -/
theorem castLeavesTwoHeadroomBits : Obligations.CastLeavesTwoHeadroomBits := by
  intro kind block hk _ p hp
  have hlt : (castMagnitude kind (maxExponent kind block) p : Int) < 2 ^ (width kind - 2) := by
    exact_mod_cast castMagnitude_lt hk (magnitudeField_le_max hp)
  rw [castScalar]
  split <;> constructor <;> omega

/-- Settles O44: zero, denormal and normal scalars each against the logarithm of the exact magnitude. -/
theorem exponentIsClampedFloorLogPlusOne : Obligations.ExponentIsClampedFloorLogPlusOne := by
  intro kind p hk _
  refine ⟨exponentOf_eq_clamped_log hk p, fun h0 hE => ?_, by decide⟩
  exact exponentOf_of_denormal hk (mt (scalarValue_eq_zero_iff hk p).mpr h0) hE

/-- Settles O45: magnitudes order as their patterns do, so the scalar of the largest pattern is of the largest magnitude. -/
theorem emaxIsExponentOfTheLargestMagnitude : Obligations.EmaxIsExponentOfTheLargestMagnitude := by
  intro kind block hk _ hne
  obtain ⟨p, hp, hmax⟩ := exists_largest_magnitudeField kind hne
  have hemax : maxExponent kind block = exponentOf kind p := maxExponent_of_largest hk hp hmax
  refine ⟨⟨p, hp, fun q hq => abs_scalarValue_mono hk (hmax q hq), hemax⟩, fun hzero => ?_, fun pr w hphase => ?_, by decide⟩
  · rw [hemax, exponentOf_of_zero hk ((scalarValue_eq_zero_iff hk p).mp (hzero p hp))]
  · rw [Worker.advance_exponent hphase, exponentPhase]
    dsimp only
    split <;> rfl

/-- Settles O46: the scalar of the largest pattern is a zero, a denormal or a normal one, and has the largest exponent field. -/
theorem biasedExponentAndHeaderFitTheirFields : Obligations.BiasedExponentAndHeaderFitTheirFields := by
  intro kind block hk hfinite hne
  obtain ⟨m, hm, hmax⟩ := exists_largest_magnitudeField kind hne
  have hemax : maxExponent kind block = exponentOf kind m := maxExponent_of_largest hk hm hmax
  have hlt : maxExponent kind block + ebias kind < 2 ^ ebits kind := maxExponent_lt_of_finite hk hfinite
  refine ⟨fun p hp => exponentOf_range hk (List.all_eq_true.mp hfinite p hp), fun hzero => ?_, fun ⟨p, hp, hp0⟩ hden => ?_,
    fun p hp hE hlargest => ?_, ?_⟩
  · rw [hemax, exponentOf_of_zero hk (hzero m hm), neg_add_cancel]
  · have hm0 : magnitudeField kind m ≠ 0 := (lt_of_lt_of_le (Nat.pos_of_ne_zero hp0) (hmax p hp)).ne'
    rw [hemax, exponentOf_of_denormal hk hm0 (hden m hm), sub_add_cancel]
  · have hfield : exponentField kind m = exponentField kind p := le_antisymm (hlargest m hm) (exponentField_mono hk (hmax p hp))
    rw [hemax, exponentOf_of_normal (hfield ▸ hE), hfield] at hlt ⊢
    omega
  · rw [pow_succ]
    omega

end Sys2Proof

/-! The permutation tables (R157). A table of `BlockSize` distinct cells of the block takes every cell once; and its cells stand level by
level, a level being the cells of one total sequency, so no place has a greater total than a later one. -/

namespace Sys2Proof.Machine

/-! ### Every cell once -/

/-- Total and injective is enough for surjective (R157 (a)). -/
theorem perm_range_of_nodup {l : List Nat} {n : Nat} (hlen : l.length = n) (hnodup : l.Nodup) (hlt : ∀ p ∈ l, p < n) :
    l.Perm (List.range n) :=
  have hsub : l ⊆ List.range n := fun p hp => List.mem_range.mpr (hlt p hp)
  (hnodup.subperm hsub).perm_of_length_le (by rw [List.length_range, hlen])

theorem permutation_nodup {d : Nat} (h : d = 1 ∨ d = 2 ∨ d = 3) : (permutation d).Nodup := by
  rcases h with rfl | rfl | rfl <;> decide

theorem permutation_lt {d : Nat} (h : d = 1 ∨ d = 2 ∨ d = 3) : ∀ p ∈ permutation d, p < 4 ^ d := by
  rcases h with rfl | rfl | rfl <;> decide

/-! ### Level by level from the DC corner -/

theorem head?_permutation {d : Nat} (h : d = 1 ∨ d = 2 ∨ d = 3) : (permutation d).head? = some (4 ^ d - 1) := by
  rcases h with rfl | rfl | rfl <;> rfl

/-- The cells of a block of dimension `d` on each level: the coefficients of `(1 + x + x ^ 2 + x ^ 3) ^ d`. -/
def levelSizes (d : Nat) : List Nat :=
  if d = 1 then [1, 1, 1, 1] else if d = 2 then [1, 2, 3, 4, 3, 2, 1] else if d = 3 then [1, 3, 6, 10, 12, 12, 10, 6, 3, 1] else []

/-- The totals of blocks whose levels, from level `s` on, have these sizes. -/
def levelTotals (s : Nat) : List Nat → List Nat
  | [] => []
  | m :: sizes => List.replicate m s ++ levelTotals (s + 1) sizes

theorem le_of_mem_levelTotals {sizes : List Nat} {s t : Nat} (h : t ∈ levelTotals s sizes) : s ≤ t := by
  induction sizes generalizing s with
  | nil => simp [levelTotals] at h
  | cons m sizes ih =>
    rcases List.mem_append.mp h with hhere | hlater
    · exact (List.eq_of_mem_replicate hhere).ge
    · exact Nat.le_of_succ_le (ih hlater)

/-- Level by level the totals ascend, whatever the sizes. -/
theorem pairwise_levelTotals (sizes : List Nat) (s : Nat) : (levelTotals s sizes).Pairwise (· ≤ ·) := by
  induction sizes generalizing s with
  | nil => exact List.Pairwise.nil
  | cons m sizes ih =>
    refine List.pairwise_append.mpr ⟨List.pairwise_replicate_of_refl, ih (s + 1), fun a ha b hb => ?_⟩
    rw [List.eq_of_mem_replicate ha]
    exact Nat.le_of_succ_le (le_of_mem_levelTotals hb)

/-- The totals along a table, as the last column of R159 and of R160 lists them. -/
theorem map_totalSequency_permutation {d : Nat} (h : d = 1 ∨ d = 2 ∨ d = 3) :
    (permutation d).map (totalSequency d) = levelTotals 0 (levelSizes d) := by
  rcases h with rfl | rfl | rfl <;> rfl

end Sys2Proof.Machine

namespace Sys2Proof

open Machine

/-- Settles O53: of the length of its block and without repetition, each table takes every cell; its totals stand level by level. -/
theorem tablesArePermutationsInSequencyOrder : Obligations.TablesArePermutationsInSequencyOrder := by
  intro d hd
  have hperm : (permutation d).Perm (List.range (4 ^ d)) :=
    perm_range_of_nodup (length_permutation hd) (permutation_nodup hd) (permutation_lt hd)
  refine ⟨hperm, head?_permutation hd, ?_⟩
  rw [map_totalSequency_permutation hd]
  exact pairwise_levelTotals (levelSizes d) 0

end Sys2Proof

/-! The block writer (R165 to R172): where construction places the cursor of a block, and how a window is split into events. -/

namespace Sys2Proof.Machine

/-! ### Construction -/

/-- The product of the descriptor's two fields is formed without wrap-around (R28, R165). -/
theorem blockIdx_mul_maxbits_lt (b : BitVec 32) (m : BitVec 16) : b.toNat * m.toNat < 2 ^ 48 :=
  (Nat.mul_lt_mul'' b.isLt m.isLt).trans_eq (by norm_num)

theorem Cursor.construct_of_mul_eq_zero {blockIdx maxbits : Nat} (h : blockIdx * maxbits = 0) :
    Cursor.construct blockIdx maxbits = { wordIndex := 0, startBit := 0, currentBit := 0 } := by
  rw [Cursor.construct, h]
  rfl

/-- The place of a bit of a block: by its global number, and by the cursor's registers (R51, R168). -/
theorem Cursor.construct_place (blockIdx maxbits k : Nat) :
    (blockIdx * maxbits + k) / 64 =
        (Cursor.construct blockIdx maxbits).wordIndex + ((Cursor.construct blockIdx maxbits).startBit + k) / 64 ∧
      (blockIdx * maxbits + k) % 64 = ((Cursor.construct blockIdx maxbits).startBit + k) % 64 := by
  simp only [Cursor.construct, Config.wordBits]
  omega

/-! ### Phase `SETUP` -/

theorem setupPhase_cursor (w : Worker) : (setupPhase w).cursor = Cursor.construct w.blockIdx.toNat w.maxbits.toNat := by
  rw [setupPhase]
  split <;> rfl

theorem setupPhase_pending (w : Worker) : (setupPhase w).pending = w.pending := by
  rw [setupPhase]
  split <;> rfl

/-- With nothing pending the sequencer acts, and the stream is untouched (R34). -/
theorem Worker.smallStep_of_no_pending {p : Config.Params} {w : Worker} (m : Memory) (hb : w.phase ≠ .idle) (hp : w.pending = []) :
    w.smallStep p m = some (w.advance p, m) := by
  rw [Worker.smallStep, if_pos ((Worker.busy_iff w).mpr hb), hp]

/-! ### A command without a budget -/

/-- Every event of a command is on a word that begins before the end of the block's region (R52). -/
theorem addr_commandEvents_lt {p : Config.Params} {kind : Kind} {dims : BitVec 2} {maxbits : BitVec 16} {blockIdx : BitVec 32}
    {block : List Word} {ev : Event} (h : ev ∈ commandEvents p kind dims maxbits blockIdx block) :
    64 * ev.addr < blockIdx.toNat * maxbits.toNat + maxbits.toNat := by
  have haddr := addr_callEvents_lt h
  rw [Cursor.globalPos_construct] at haddr
  exact haddr.trans_le (Nat.add_le_add_left (length_commandBits_le p kind dims maxbits.toNat block) _)

/-- A region of no bits ends at global bit 0, before which no word begins (R208 (a)). -/
theorem commandEvents_of_no_budget (p : Config.Params) (kind : Kind) (dims : BitVec 2) (blockIdx : BitVec 32) (block : List Word) :
    commandEvents p kind dims 0 blockIdx block = [] := by
  refine List.eq_nil_iff_forall_not_mem.mpr fun ev hev => ?_
  simpa using addr_commandEvents_lt hev

/-! ### The events of a window -/

/-- The first event of a window, and the only one where the window ends within its word: the masked value, at the cursor's bit of
the word (R167). -/
def windowLow (c : Cursor) (v : Word) (n : Nat) : Event :=
  { addr := c.wordIndex + c.pos / 64, value := lowBits n v <<< (c.pos % 64) }

/-- The second event of a window that straddles: what the first one has no room for, in the next word (R167). -/
def windowHigh (c : Cursor) (v : Word) (n : Nat) : Event :=
  { addr := c.wordIndex + c.pos / 64 + 1, value := lowBits n v >>> (64 - c.pos % 64) }

theorem writeBitsEvents_of_fits {c : Cursor} {n : Nat} (v : Word) (hn : 0 < n) (h : c.pos % 64 + n ≤ 64) :
    writeBitsEvents c v n = [windowLow c v n] := by
  rw [writeBitsEvents, Config.wordBits, if_neg hn.ne', if_neg h.not_gt]
  rfl

theorem writeBitsEvents_of_straddles {c : Cursor} {n : Nat} (v : Word) (h : 64 < c.pos % 64 + n) :
    writeBitsEvents c v n = [windowLow c v n, windowHigh c v n] := by
  have hn : n ≠ 0 := by omega
  rw [writeBitsEvents, Config.wordBits, if_neg hn, if_pos h]
  rfl

/-- Of a window that straddles, the bits from the cursor's bit of the word to its top are the value's lowest (R169). -/
theorem getLsbD_windowLow {c : Cursor} {n j : Nat} (v : Word) (h : 64 < c.pos % 64 + n) (hj : j < 64) :
    (windowLow c v n).value.getLsbD j = (decide (c.pos % 64 ≤ j) && v.getLsbD (j - c.pos % 64)) := by
  have hmask : j - c.pos % 64 < n := by omega
  rw [windowLow, BitVec.getLsbD_shiftLeft, getLsbD_lowBits]
  simp [hj, hmask, ← decide_not]

/-- The bits of the next word from its bit 0 on are the rest of the value's low `n` (R169). -/
theorem getLsbD_windowHigh (c : Cursor) (v : Word) (n j : Nat) :
    (windowHigh c v n).value.getLsbD j = (decide (j < n - (64 - c.pos % 64)) && v.getLsbD (j + (64 - c.pos % 64))) := by
  have hmask : 64 - c.pos % 64 + j < n ↔ j < n - (64 - c.pos % 64) := by omega
  rw [windowHigh, BitVec.getLsbD_ushiftRight, getLsbD_lowBits, decide_eq_decide.mpr hmask, Nat.add_comm]

end Sys2Proof.Machine

namespace Sys2Proof

open Machine

/-- Settles O39: the fields are a quotient and a remainder of an exact product below `2^48`; the action of `SETUP` is construction; and
the events of a command begin before the end of a region that without a budget is empty. -/
theorem writerConstructionPlacesTheBlock : Obligations.WriterConstructionPlacesTheBlock := by
  refine ⟨fun b m => ?_, by decide, fun p w mem hphase hp => ⟨⟨setupPhase w, ?_, setupPhase_cursor w, ?_⟩, ?_⟩⟩
  · have hlt := blockIdx_mul_maxbits_lt b m
    refine ⟨rfl, rfl, rfl, hlt, Nat.div_lt_of_lt_mul hlt, fun hzero => Cursor.construct_of_mul_eq_zero ?_⟩
    rcases hzero with rfl | rfl <;> simp
  · rw [Worker.smallStep_of_no_pending mem (by simp [hphase]) hp, Worker.advance_setup hphase]
  · rw [setupPhase_pending, hp]
  · exact commandEvents_of_no_budget p

/-- Settles O40: the events of a window set its bits from the cursor's global position on, which is that of the block's bit `c`. -/
theorem writeBitsPlacesItsBits : Obligations.WriteBitsPlacesItsBits := by
  intro m b mb c n v hwf hn
  refine ⟨fun q => Bool.eq_iff_iff.mpr ?_, fun j => ?_⟩
  · rw [globalBit_orEvents_iff hwf, someSets_writeBitsEvents _ v hn, laidAt_word, Cursor.globalPos_forward,
      Cursor.globalPos_construct, Bool.or_eq_true, decide_eq_true_iff]
  · rw [Nat.add_assoc, Nat.add_assoc]
    exact Cursor.construct_place b mb (c + j)

/-- Settles O41: the three branches of `write_bits`, with the bits of the two events where it straddles. -/
theorem straddlingWindowIsSplitInTwo : Obligations.StraddlingWindowIsSplitInTwo := by
  intro c v n _
  refine ⟨fun h0 => by rw [h0, writeBitsEvents_zero], fun hpos hfits => ?_, fun hsplit => ?_⟩
  · exact ⟨windowLow c v n, writeBitsEvents_of_fits v hpos hfits, rfl⟩
  · exact ⟨windowLow c v n, windowHigh c v n, writeBitsEvents_of_straddles v hsplit, rfl, rfl,
      fun j hj => getLsbD_windowLow v hsplit hj, fun j _ => getLsbD_windowHigh c v n j⟩

end Sys2Proof

/-! The bit-plane encoder (R187, R193): a plane as a sum of powers of two has the coefficients' bits for its binary digits, and what is
written under a budget is the beginning of one code that does not depend on it. -/

namespace Sys2Proof.Machine

/-- A plane's number is its first coefficient's bit below the number of the rest (R187). -/
theorem planeNumber_cons (k : Nat) (u : Word) (us : List Word) :
    planeNumber k (u :: us) = Nat.bit (u.getLsbD k) (planeNumber k us) := by
  rw [planeNumber, Nat.bit_val, Nat.add_comm]

/-- The binary digits of a plane's number are the coefficients' bits of that plane, 0 past the last coefficient (R187). -/
theorem testBit_planeNumber (k : Nat) (us : List Word) (i : Nat) :
    (planeNumber k us).testBit i = (cell us i).getLsbD k := by
  induction us generalizing i with
  | nil => simp [planeNumber, cell]
  | cons u us ih =>
    rw [planeNumber_cons]
    cases i with
    | zero => exact Nat.testBit_bit_zero ..
    | succ i => exact (Nat.testBit_bit_succ ..).trans (ih i)

/-- Of a block, the cells at or above its size are not read. -/
theorem cell_blockCells (size : Nat) (l : List Word) (i : Nat) :
    cell (blockCells size l) i = if i < size then cell l i else 0 := by
  by_cases h : i < size <;> simp [cell, blockCells, h]

/-- The plane register holds the plane's number but for what lies above bit 63 (R187). -/
theorem getLsbD_planeWord (size k : Nat) (ublk : List Word) (i : Nat) :
    (planeWord size k ublk).getLsbD i = (decide (i < 64) && (decide (i < size) && (cell ublk i).getLsbD k)) := by
  rw [planeWord, BitVec.getLsbD_ofNat, testBit_planeNumber, cell_blockCells]
  by_cases h : i < size <;> simp [h]

end Sys2Proof.Machine

namespace Sys2Proof

open Machine

/-- Settles O56: every loop of the encoder writes the first bits of a sequence that does not depend on the budget. -/
theorem codeUnderABudgetIsAPrefix : Obligations.CodeUnderABudgetIsAPrefix :=
  fun n size maxprec ublk _ => encodeInts_eq_take n size ublk maxprec

/-- Settles O59: a block of at most 64 coefficients has no bit that the 64-bit register cuts off. -/
theorem planeWordHoldsTheKthBits : Obligations.PlaneWordHoldsTheKthBits := by
  intro size k i ublk hsize
  rw [getLsbD_planeWord]
  by_cases h : i < size
  · simp [h.trans_le hsize]
  · simp [h]

end Sys2Proof

/-! A stuck worker (R54, R243). It has no step, it can take no command, being busy, and it keeps the host from zeroing the stream; so
whatever another agent does but a reset goes past it, and ORs events into the stream. -/

namespace Sys2Proof.Machine

/-! ### The stream grows -/

/-- The stream memory becomes `m'` from `m` by events alone (R56). -/
def Memory.GrowsTo (m m' : Memory) : Prop := ∃ evs, m' = orEvents m evs

theorem Memory.GrowsTo.refl (m : Memory) : m.GrowsTo m := ⟨[], rfl⟩

theorem Memory.growsTo_orEvents (m : Memory) (evs : List Event) : m.GrowsTo (orEvents m evs) := ⟨evs, rfl⟩

theorem Memory.GrowsTo.trans {m m' m'' : Memory} (h : m.GrowsTo m') (h' : m'.GrowsTo m'') : m.GrowsTo m'' := by
  obtain ⟨evs, rfl⟩ := h
  obtain ⟨evs', rfl⟩ := h'
  exact ⟨evs ++ evs', (List.foldl_append ..).symm⟩

/-- Events clear no bit (R56). -/
theorem Memory.GrowsTo.globalBit {m m' : Memory} (h : m.GrowsTo m') (hm : m.wf = true) {b : Nat} (hb : m.globalBit b = true) :
    m'.globalBit b = true := by
  obtain ⟨evs, rfl⟩ := h
  exact (globalBit_orEvents_iff hm evs b).mpr (.inl hb)

/-- A worker's small step writes the stream by an event, or not at all (R56, R174). -/
theorem Worker.smallStep_growsTo {p : Config.Params} {w w' : Worker} {m m' : Memory} (h : w.smallStep p m = some (w', m')) :
    m.GrowsTo m' := by
  obtain ⟨-, ⟨-, -, rfl⟩ | ⟨ev, evs, -, -, -, rfl⟩⟩ := Worker.smallStep_cases h
  · exact .refl m'
  · exact m.growsTo_orEvents [ev]

/-- A whole run of a worker writes the stream by events alone, whether it completes or gets stuck (R54). -/
theorem Worker.run_growsTo (p : Config.Params) (fuel : Nat) (w : Worker) (m : Memory) : m.GrowsTo (w.run p fuel m).2 := by
  induction fuel generalizing w m with
  | zero => exact .refl m
  | succ fuel ih =>
    cases hb : w.busy with
    | false => rw [Worker.run_idle hb]; exact .refl m
    | true =>
      obtain ⟨made, -, hmem, -, -⟩ := performEvents_spec p.streamWords w.pending m
      have hperform : m.GrowsTo (performEvents p.streamWords w.pending m).1 := ⟨made, hmem⟩
      by_cases hleft : (performEvents p.streamWords w.pending m).2 = []
      · rw [Worker.run_succ_of_inRange hb hleft]
        exact hperform.trans (ih _ _)
      · rw [Worker.run_succ_of_stuck hb hleft]
        exact hperform

theorem runToCompletion_growsTo (i : Nat) (s : State) : s.stream.GrowsTo (runToCompletion i s).stream := by
  cases hw : s.workers[i]? with
  | none => simpa [runToCompletion, hw] using Memory.GrowsTo.refl s.stream
  | some w => rw [runToCompletion_stream hw]; exact Worker.run_growsTo ..

/-! ### Going past a worker -/

/-- From `s` to `t` worker `j` stays as it is, and the stream changes by events alone. -/
structure State.GoesPast (j : Nat) (s t : State) : Prop where
  worker : t.workers[j]? = s.workers[j]?
  stream : s.stream.GrowsTo t.stream

theorem State.GoesPast.refl (j : Nat) (s : State) : s.GoesPast j s := ⟨rfl, .refl _⟩

theorem State.GoesPast.trans {j : Nat} {s t u : State} (h : s.GoesPast j t) (h' : t.GoesPast j u) : s.GoesPast j u :=
  ⟨h'.worker.trans h.worker, h.stream.trans h'.stream⟩

/-- A change of another worker, and of the stream by events. -/
theorem State.goesPast_replace {i j : Nat} (s : State) (w' : Worker) {m : Memory} (hij : i ≠ j) (hm : s.stream.GrowsTo m) :
    s.GoesPast j ((s.setWorker i w').setStream m) :=
  ⟨List.getElem?_set_ne hij, hm⟩

theorem State.goesPast_runToCompletion {i j : Nat} (s : State) (hij : i ≠ j) : s.GoesPast j (runToCompletion i s) := by
  obtain ⟨-, -, -, -, hothers⟩ := runToCompletion_frame i s
  exact ⟨hothers j hij.symm, runToCompletion_growsTo i s⟩

/-! ### A stuck worker -/

/-- Worker `j` of a state is stuck (R54, R243). -/
def State.StuckAt (s : State) (j : Nat) : Prop := ∃ w, s.workers[j]? = some w ∧ w.IsStuck s.params

theorem Worker.IsStuck.smallStep_eq_none {p : Config.Params} {w : Worker} (h : w.IsStuck p) (m : Memory) : w.smallStep p m = none :=
  Worker.smallStep_none.mpr (.inr h.2)

/-- A stuck worker has no step (R243). -/
theorem State.StuckAt.workerStep_eq_none {s : State} {j : Nat} (h : s.StuckAt j) : s.workerStep j = none := by
  obtain ⟨w, hw, hstuck⟩ := h
  simp [State.workerStep, hw, hstuck.smallStep_eq_none]

/-- A worker that can take a command is not the stuck one: that one is busy (R278). -/
theorem State.StuckAt.ne_port {s : State} {j : Nat} (h : s.StuckAt j) {w : Worker} (hw : Accepts s w) : s.port.worker ≠ j := by
  rintro rfl
  obtain ⟨v, hv, hbusy, -⟩ := h
  obtain ⟨hport, hidle⟩ := hw
  obtain rfl : v = w := Option.some.inj (hv.symm.trans hport)
  exact Bool.false_ne_true (hidle.symm.trans hbusy)

/-- With a stuck worker a command is in flight (R66). -/
theorem State.StuckAt.not_allIdle {s : State} {j : Nat} (h : s.StuckAt j) : ¬ allIdle s.workers = true := by
  obtain ⟨w, hw, hbusy, -⟩ := h
  intro hidle
  have hnot := List.all_eq_true.mp hidle w (List.mem_of_getElem? hw)
  rw [hbusy] at hnot
  cases hnot

/-- A step of a worker is one of another worker than the stuck one. -/
theorem State.StuckAt.goesPast_workerStep {s t : State} {i j : Nat} (h : s.StuckAt j) (hstep : s.workerStep i = some t) :
    s.GoesPast j t := by
  have hij : i ≠ j := by
    rintro rfl
    rw [h.workerStep_eq_none] at hstep
    cases hstep
  obtain ⟨w, w', m, -, hsmall, rfl⟩ := State.workerStep_some hstep
  exact s.goesPast_replace w' hij (Worker.smallStep_growsTo hsmall)

theorem State.StuckAt.goesPast_moveWorker {s t : State} {i j : Nat} (h : s.StuckAt j) (hmove : moveWorker i s = .next t) :
    s.GoesPast j t := by
  obtain ⟨-, hstep | ⟨-, rfl⟩⟩ := moveWorker_next hmove
  · exact h.goesPast_workerStep hstep
  · exact .refl j t

theorem State.StuckAt.goesPast_someWorkerSteps {s : State} {j : Nat} (h : s.StuckAt j) : s.GoesPast j (someWorkerSteps s) := by
  obtain ⟨i, hstep⟩ | hsame := someWorkerSteps_cases s
  · exact h.goesPast_workerStep hstep
  · rw [hsame]; exact .refl j s

/-- A command is issued to another worker than the stuck one (R278). -/
theorem State.StuckAt.goesPast_issueCommand {s t : State} {j : Nat} (h : s.StuckAt j) {kind : Kind} {dims : BitVec 2}
    {maxbits : BitVec 16} {blockIdx : BitVec 32} (hissue : issueCommand kind dims maxbits blockIdx s = .next t) :
    s.port.worker ≠ j ∧ s.GoesPast j t := by
  obtain ⟨w, haccepts, -, rfl⟩ := issueCommand_next hissue
  exact ⟨h.ne_port haccepts, s.goesPast_replace _ (h.ne_port haccepts) (.refl s.stream)⟩

theorem State.StuckAt.goesPast_exec {s t : State} {j : Nat} (h : s.StuckAt j) {i : Instr} (hexec : exec i s = .next t) :
    s.GoesPast j t := by
  rw [exec_eq_runCommand] at hexec
  obtain ⟨u, hissue, rfl⟩ := runCommand_next hexec
  obtain ⟨hport, hpast⟩ := h.goesPast_issueCommand hissue
  exact hpast.trans (u.goesPast_runToCompletion hport)

/-- `HOST.ZERO` has no next state while a worker is stuck (R66, log 9). -/
theorem State.StuckAt.hostZero_ne_next {s : State} {j : Nat} (h : s.StuckAt j) (words : Nat) (t : State) :
    hostZero words s ≠ .next t := by
  rw [hostZero, if_neg h.not_allIdle]
  split <;> exact nofun

/-- Every move but a reset goes past a stuck worker (R243). -/
theorem State.StuckAt.goesPast_moveStep {s t : State} {j : Nat} (h : s.StuckAt j) {mv : Move} (hmv : mv ≠ .reset)
    (hmove : moveStep mv s = .next t) : s.GoesPast j t := by
  cases mv with
  | encode d =>
    rw [moveStep] at hmove
    cases hd : decodeWord d with
    | command i => rw [hd] at hmove; exact h.goesPast_exec hmove
    | reserved r => rw [hd] at hmove; cases hmove
  | issue d =>
    rw [moveStep, issueDescriptor] at hmove
    cases hd : decodeWord d with
    | command i => rw [hd] at hmove; exact (h.goesPast_issueCommand hmove).2
    | reserved r => rw [hd] at hmove; cases hmove
  | present worker block =>
    obtain rfl := Host.Outcome.next.inj hmove
    exact ⟨rfl, .refl _⟩
  | worker i => exact h.goesPast_moveWorker hmove
  | zero words => exact absurd hmove (h.hostZero_ne_next words t)
  | wait =>
    obtain rfl := Host.Outcome.next.inj hmove
    exact .refl j s
  | read addr =>
    obtain ⟨w, rfl⟩ := hostRead_next hmove
    exact ⟨rfl, .refl _⟩
  | reset => exact absurd rfl hmv

/-- Every step but one whose move is a reset goes past a stuck worker (R243). -/
theorem State.StuckAt.goesPast_step {s t : State} {j : Nat} (h : s.StuckAt j) (hreset : ∀ rest, s.agenda ≠ .reset :: rest)
    (hstep : step s = .next t) : s.GoesPast j t := by
  obtain ⟨mv, rest, hagenda, hmove⟩ | hgo := step_cases s
  · have hrest : (s.setAgenda rest).StuckAt j := h
    have hmv : mv ≠ .reset := fun hmv => hreset rest (hmv ▸ hagenda)
    have hpast := hrest.goesPast_moveStep hmv (hmove.symm.trans hstep)
    exact ⟨hpast.worker, hpast.stream⟩
  · obtain rfl := Host.Outcome.next.inj (hgo.symm.trans hstep)
    exact h.goesPast_someWorkerSteps

/-! ### A reset -/

/-- A reset gives every worker the registers of the reset state (R37, R38). -/
theorem getElem?_workers_resetCore {s : State} {j : Nat} {w : Worker} (hw : s.workers[j]? = some w) :
    (resetCore s).workers[j]? = some Worker.reset := by
  rw [resetCore, State.setWorkers_workers, List.getElem?_map, hw, Option.map_some]

/-- The step at a state whose next move is a reset (R38). -/
theorem step_reset {s : State} {rest : List Move} (h : s.agenda = .reset :: rest) :
    step s = .next (resetCore (s.setAgenda rest)) :=
  step_move h nofun

end Sys2Proof.Machine

namespace Sys2Proof

open Machine

/-- Settles O14: a stuck worker is busy at an event that has no step, and every agent's move but a reset goes past such a worker. -/
theorem stuckWorkerNeverMovesUntilReset : Obligations.StuckWorkerNeverMovesUntilReset := by
  intro s j w hs hw hstuck
  have hat : s.StuckAt j := ⟨w, hw, hstuck⟩
  refine ⟨hat.workerStep_eq_none, (hs.workers w (List.mem_of_getElem? hw)).unsignalled hstuck.1, fun agenda t hreset hstep => ?_,
    resetCore ((s.setAgenda [.reset]).setAgenda []), Worker.reset, step_reset rfl, getElem?_workers_resetCore hw, rfl, rfl⟩
  have hagenda : (s.setAgenda agenda).StuckAt j := hat
  have hpast := hagenda.goesPast_step hreset hstep
  exact ⟨hpast.worker.trans hw, fun p hp => hpast.stream.globalBit hs.canonical hp⟩

end Sys2Proof

/-! Which words are commands (R89, R279). The decoder names the first check of R89 that a descriptor fails; one that passes them all is a
command, because each kind has one for every dimension but 0. -/

namespace Sys2Proof

/-- The values of a `dims` field that are a dimension (R279). -/
theorem dims_ne_zero_iff (d : BitVec 2) : d ≠ 0 ↔ d = 1 ∨ d = 2 ∨ d = 3 := by
  revert d
  decide

/-- The checks of R89, which a valid form passes (R279). -/
theorem Descriptor.wellFormed_iff (d : Descriptor) : d.wellFormed = true ↔ d.dims ≠ 0 ∧ d.rsv0 = 0 ∧ d.rsv1 = 0 := by
  rw [Descriptor.wellFormed, Descriptor.reject]
  split_ifs with hdims hrsv0 hrsv1
  · exact iff_of_false nofun fun ⟨h, _, _⟩ => h hdims
  · exact iff_of_false nofun fun ⟨_, h, _⟩ => hrsv0 h
  · exact iff_of_false nofun fun ⟨_, _, h⟩ => hrsv1 h
  · exact iff_of_true rfl ⟨hdims, not_not.mp hrsv0, not_not.mp hrsv1⟩

/-- Every kind has a command for each of the three dimensions (R88). -/
theorem exists_commandOf {dims : BitVec 2} (h : dims ≠ 0) (kind : Kind) (maxbits : BitVec 16) (blockIdx : BitVec 32) :
    ∃ i, commandOf kind dims maxbits blockIdx = some i := by
  obtain rfl | rfl | rfl := (dims_ne_zero_iff dims).mp h <;> cases kind <;> exact ⟨_, rfl⟩

/-- The decoder reads the valid forms as commands, and no other word (R88, R89, R279). -/
theorem exists_decodeWord_command_iff (w : Word) :
    (∃ i, decodeWord w = .command i) ↔ (Descriptor.ofWord w).wellFormed = true := by
  rw [decodeWord]
  cases hreject : (Descriptor.ofWord w).reject with
  | some r => simp [Descriptor.wellFormed, hreject]
  | none =>
    have hwf : (Descriptor.ofWord w).wellFormed = true := by rw [Descriptor.wellFormed, hreject]; rfl
    obtain ⟨hdims, -, -⟩ := (Descriptor.wellFormed_iff _).mp hwf
    obtain ⟨i, hi⟩ := exists_commandOf hdims (Descriptor.ofWord w).kind (Descriptor.ofWord w).maxbits (Descriptor.ofWord w).blockIdx
    simp [hi, hwf]

/-- A word that is no command is reserved, with a reason (R89). -/
theorem decodeWord_reserved_of_not_command {w : Word} (h : ¬ ∃ i, decodeWord w = .command i) :
    ∃ r, decodeWord w = .reserved r := by
  cases hd : decodeWord w with
  | command i => exact absurd ⟨i, hd⟩ h
  | reserved r => exact ⟨r, rfl⟩

end Sys2Proof

namespace Sys2Proof.Machine

/-- A reserved descriptor is refused for its reason by the move that runs a whole command (R89). -/
theorem moveStep_encode_of_reserved {w : Word} {r : Reject} (h : decodeWord w = .reserved r) (s : State) :
    moveStep (.encode w) s = .refused (.reservedDescriptor r) := by
  rw [moveStep, h]

/-- And by the move that only issues it (R89). -/
theorem moveStep_issue_of_reserved {w : Word} {r : Reject} (h : decodeWord w = .reserved r) (s : State) :
    moveStep (.issue w) s = .refused (.reservedDescriptor r) := by
  rw [moveStep, issueDescriptor, h]

end Sys2Proof.Machine

namespace Sys2Proof

open Machine

/-- Settles O3: the decoder's checks are the conditions on the three fields, and what they reject stops the step at either move. -/
theorem descriptorIsACommandIffNotReserved : Obligations.DescriptorIsACommandIffNotReserved := by
  intro w
  refine ⟨?_, fun s rest hno hagenda => ?_⟩
  · rw [exists_decodeWord_command_iff, Descriptor.wellFormed_iff, dims_ne_zero_iff]
    rfl
  · obtain ⟨r, hr⟩ := decodeWord_reserved_of_not_command hno
    refine ⟨r, ?_⟩
    obtain h | h := hagenda
    · rw [step_move h nofun, moveStep_encode_of_reserved hr]
    · rw [step_move h nofun, moveStep_issue_of_reserved hr]

end Sys2Proof

/-! The descriptor as a word (R81, R88): its six fields stand side by side, so reading the fields back and writing them out undo each
other, and a command's descriptor is the word whose reserved fields are zero. -/

namespace Sys2Proof

/-- The number of a descriptor's word: the fields at their places (R81). -/
def Descriptor.number (d : Descriptor) : Nat :=
  d.blockIdx.toNat * 2 ^ 32 + d.rsv1.toNat * 2 ^ 24 + d.maxbits.toNat * 2 ^ 8 + d.rsv0.toNat * 2 ^ 4 + d.dims.toNat * 2 ^ 2 +
    (fieldOfKind d.kind).toNat

theorem kindOfField_fieldOfKind (kind : Kind) : kindOfField (fieldOfKind kind) = kind := by cases kind <;> rfl

theorem fieldOfKind_kindOfField (f : BitVec 2) : fieldOfKind (kindOfField f) = f := by revert f; decide

/-- The fields of a word, written out again, give the word (R81). -/
theorem Descriptor.number_ofWord (w : Word) : (Descriptor.ofWord w).number = w.toNat := by
  simp only [Descriptor.number, Descriptor.ofWord, fieldOfKind_kindOfField, BitVec.extractLsb'_toNat, Nat.shiftRight_eq_div_pow]
  omega

/-- A field is read where the descriptor's number has it (R81). -/
theorem extractLsb'_eq_of_number {w : Word} {d : Descriptor} (h : w.toNat = d.number) :
    w.extractLsb' 0 2 = fieldOfKind d.kind ∧ w.extractLsb' 2 2 = d.dims ∧ w.extractLsb' 4 4 = d.rsv0 ∧
      w.extractLsb' 8 16 = d.maxbits ∧ w.extractLsb' 24 8 = d.rsv1 ∧ w.extractLsb' 32 32 = d.blockIdx := by
  rw [Descriptor.number] at h
  refine ⟨?_, ?_, ?_, ?_, ?_, ?_⟩ <;> apply BitVec.eq_of_toNat_eq <;>
    rw [BitVec.extractLsb'_toNat, Nat.shiftRight_eq_div_pow] <;> omega

/-- The word of a descriptor is read as that descriptor (R81). -/
theorem Descriptor.ofWord_of_number {w : Word} {d : Descriptor} (h : w.toNat = d.number) : Descriptor.ofWord w = d := by
  obtain ⟨hkind, hdims, hrsv0, hmaxbits, hrsv1, hblockIdx⟩ := extractLsb'_eq_of_number h
  rw [Descriptor.ofWord, hkind, hdims, hrsv0, hmaxbits, hrsv1, hblockIdx, kindOfField_fieldOfKind]

/-- Fields put at their places do not overlap, so their OR is their sum. -/
theorem or_of_fields (b : Nat) {m d k : Nat} (hm : m < 2 ^ 16) (hd : d < 2 ^ 2) (hk : k < 2 ^ 2) :
    b <<< 32 ||| m <<< 8 ||| d <<< 2 ||| k = b * 2 ^ 32 + m * 2 ^ 8 + d * 2 ^ 2 + k := by
  have hlow : d <<< 2 + k < 2 ^ 8 := by rw [Nat.shiftLeft_eq]; omega
  have hmid : m <<< 8 + (d <<< 2 + k) < 2 ^ 32 := by rw [Nat.shiftLeft_eq, Nat.shiftLeft_eq]; omega
  rw [Nat.or_assoc, Nat.or_assoc, ← Nat.shiftLeft_add_eq_or_of_lt hk, ← Nat.shiftLeft_add_eq_or_of_lt hlow,
    ← Nat.shiftLeft_add_eq_or_of_lt hmid]
  simp only [Nat.shiftLeft_eq]
  omega

/-- A field shifted to a place inside the word loses no bit. -/
theorem toNat_setWidth_shiftLeft {n k : Nat} (v : BitVec n) (h : n + k ≤ 64) : (v.setWidth 64 <<< k).toNat = v.toNat <<< k := by
  have hlt : v.toNat <<< k < 2 ^ 64 := by
    rw [Nat.shiftLeft_eq]
    calc v.toNat * 2 ^ k < 2 ^ n * 2 ^ k := Nat.mul_lt_mul_of_pos_right v.isLt (by positivity)
      _ ≤ 2 ^ 64 := by rw [← pow_add]; exact Nat.pow_le_pow_right (by norm_num) h
  rw [BitVec.toNat_shiftLeft, BitVec.toNat_setWidth_of_le (by omega), Nat.mod_eq_of_lt hlt]

/-- The encoder's word holds the command's fields, the reserved ones zero (R88). -/
theorem toNat_encode (i : Instr) : (encode i).toNat = i.descriptor.number := by
  rw [encode, BitVec.toNat_or, BitVec.toNat_or, BitVec.toNat_or, toNat_setWidth_shiftLeft _ (by omega),
    toNat_setWidth_shiftLeft _ (by omega), toNat_setWidth_shiftLeft _ (by omega), BitVec.toNat_setWidth_of_le (by omega),
    or_of_fields _ i.maxbits.isLt i.dims.isLt (fieldOfKind i.kind).isLt]
  simp [Descriptor.number, Instr.descriptor]

/-- The command of a command's own kind, dimension and fields is that command (R88). -/
theorem commandOf_eq_self (i : Instr) : commandOf i.kind i.dims i.maxbits i.blockIdx = some i := by cases i <;> rfl

/-- A command has the kind, dimension and fields it was looked up by (R88). -/
theorem fields_of_commandOf {kind : Kind} {dims : BitVec 2} {maxbits : BitVec 16} {blockIdx : BitVec 32} {i : Instr}
    (h : commandOf kind dims maxbits blockIdx = some i) :
    i.kind = kind ∧ i.dims = dims ∧ i.maxbits = maxbits ∧ i.blockIdx = blockIdx := by
  have hdims : dims ≠ 0 := by rintro rfl; cases kind <;> cases h
  obtain rfl | rfl | rfl := (dims_ne_zero_iff dims).mp hdims <;> cases kind <;> cases h <;> exact ⟨rfl, rfl, rfl, rfl⟩

/-- Every command passes the checks of R89: its constructor fixes what they look at. -/
theorem Instr.wellFormed_eq_true (i : Instr) : i.wellFormed = true :=
  (Descriptor.wellFormed_iff _).mpr ⟨Machine.dims_ne_zero i, rfl, rfl⟩

theorem decodeWord_of_ofWord {w : Word} {i : Instr} (h : Descriptor.ofWord w = i.descriptor) : decodeWord w = .command i := by
  have hreject : i.descriptor.reject = none := Option.isNone_iff_eq_none.mp i.wellFormed_eq_true
  rw [decodeWord, h, hreject]
  simp [Instr.descriptor, commandOf_eq_self]

/-- The fields of a word that is read as a command are that command's (R81, R89). -/
theorem ofWord_of_decodeWord {w : Word} {i : Instr} (h : decodeWord w = .command i) : Descriptor.ofWord w = i.descriptor := by
  obtain ⟨-, hrsv0, hrsv1⟩ := (Descriptor.wellFormed_iff _).mp ((exists_decodeWord_command_iff w).mp ⟨i, h⟩)
  rw [decodeWord] at h
  split at h
  · cases h
  · split at h
    · rename_i j hj
      cases h
      obtain ⟨hkind, hdims, hmaxbits, hblockIdx⟩ := fields_of_commandOf hj
      rw [Instr.descriptor, hkind, hdims, hmaxbits, hblockIdx, ← hrsv0, ← hrsv1]
    · cases h

/-- Reading back the descriptor of a command gives the command (R88). -/
theorem decodeWord_encode (i : Instr) : decodeWord (encode i) = .command i :=
  decodeWord_of_ofWord (Descriptor.ofWord_of_number (toNat_encode i))

/-- Settles O1: the encoder puts the command's fields where the decoder reads them. -/
theorem decodeOfEncodeIsTheCommand : Obligations.DecodeOfEncodeIsTheCommand := fun i _ => decodeWord_encode i

/-- Settles O2: the word and the encoder's have the same fields, the reserved ones zero, and a word is the number of its fields. -/
theorem encodeOfDecodeIsTheDescriptor : Obligations.EncodeOfDecodeIsTheDescriptor := by
  intro w i h
  apply BitVec.eq_of_toNat_eq
  rw [toNat_encode, ← ofWord_of_decodeWord h, Descriptor.number_ofWord]

/-- Settles O4: each word has the fields of the command printed beside it. -/
theorem writtenOutDescriptorsDecode : Obligations.WrittenOutDescriptorsDecode := by
  unfold Obligations.WrittenOutDescriptorsDecode
  decide

end Sys2Proof

/-! What the issue of a command comes to (R242, R240): which worker stands at the port, whether it is idle, whether the block is
finite. -/

namespace Sys2Proof.Machine

/-- The issue of a command to a worker number that does not exist (log 8). -/
theorem issueCommand_of_no_worker {kind : Kind} {dims : BitVec 2} {maxbits : BitVec 16} {blockIdx : BitVec 32} {s : State}
    (h : s.workers[s.port.worker]? = none) :
    issueCommand kind dims maxbits blockIdx s = .refused (.noSuchWorker s.port.worker) := by
  rw [issueCommand, h]

/-- The issue of a command to a busy worker (R242, R278). -/
theorem issueCommand_of_busy {kind : Kind} {dims : BitVec 2} {maxbits : BitVec 16} {blockIdx : BitVec 32} {s : State} {w : Worker}
    (hw : s.workers[s.port.worker]? = some w) (hb : w.busy = true) :
    issueCommand kind dims maxbits blockIdx s = .refused (.workerBusy s.port.worker) := by
  rw [issueCommand, hw]
  exact if_pos hb

/-- The issue of a float command whose block is not finite (R135, R242). -/
theorem issueCommand_of_not_finite {kind : Kind} {dims : BitVec 2} {maxbits : BitVec 16} {blockIdx : BitVec 32} {s : State}
    {w : Worker} (hw : Accepts s w) (hk : isFloat kind = true) (hf : ¬ OperandFinite s kind dims) :
    issueCommand kind dims maxbits blockIdx s = .refused .notFinite := by
  rw [OperandFinite, Bool.not_eq_true] at hf
  rw [issueCommand, hw.1]
  simp [hw.2, hk, hf]

/-- The four outcomes of the issue of a command (R242, log 8). -/
theorem issueCommand_cases (kind : Kind) (dims : BitVec 2) (maxbits : BitVec 16) (blockIdx : BitVec 32) (s : State) :
    (∃ t, issueCommand kind dims maxbits blockIdx s = .next t) ∨ issueCommand kind dims maxbits blockIdx s = .refused .notFinite ∨
      issueCommand kind dims maxbits blockIdx s = .refused (.workerBusy s.port.worker) ∨
      issueCommand kind dims maxbits blockIdx s = .refused (.noSuchWorker s.port.worker) := by
  cases hw : s.workers[s.port.worker]? with
  | none => exact .inr (.inr (.inr (issueCommand_of_no_worker hw)))
  | some w =>
    cases hb : w.busy with
    | true => exact .inr (.inr (.inl (issueCommand_of_busy hw hb)))
    | false =>
      by_cases hf : isFloat kind = true → OperandFinite s kind dims
      · exact .inl ⟨_, issueCommand_of_accepts ⟨hw, hb⟩ hf⟩
      · obtain ⟨hk, hf⟩ := Classical.not_imp.mp hf
        exact .inr (.inl (issueCommand_of_not_finite ⟨hw, hb⟩ hk hf))

/-- A command whose issue has a next state: its worker then runs. -/
theorem exec_of_issueCommand_next {i : Instr} {s t : State} (h : issueCommand i.kind i.dims i.maxbits i.blockIdx s = .next t) :
    exec i s = .next (runToCompletion s.port.worker t) := by
  rw [exec_eq_runCommand, runCommand, h]

/-- A command whose issue is refused is refused for the same reason (R242). -/
theorem exec_of_issueCommand_refused {i : Instr} {s : State} {r : Refusal}
    (h : issueCommand i.kind i.dims i.maxbits i.blockIdx s = .refused r) : exec i s = .refused r := by
  rw [exec_eq_runCommand, runCommand, h]

theorem moveStep_encode_of_command {d : Word} {i : Instr} (h : decodeWord d = .command i) (s : State) :
    moveStep (.encode d) s = exec i s := by
  rw [moveStep, h]

theorem moveStep_issue_of_command {d : Word} {i : Instr} (h : decodeWord d = .command i) (s : State) :
    moveStep (.issue d) s = issueCommand i.kind i.dims i.maxbits i.blockIdx s := by
  rw [moveStep, issueDescriptor, h]

/-- The step at a state whose next move issues a command. -/
theorem step_issue_encode (i : Instr) (s : State) (rest : List Move) :
    step (s.setAgenda (.issue (encode i) :: rest)) = issueCommand i.kind i.dims i.maxbits i.blockIdx (s.setAgenda rest) := by
  rw [step_move (mv := .issue (encode i)) rfl nofun, moveStep_issue_of_command (decodeWord_encode i)]
  rfl

theorem decodeWord_of_decodeTableWord {nbits w : Nat} {i : Instr} (h : decodeTableWord nbits w = some i) :
    decodeWord (tableWord nbits w) = .command i := by
  rw [decodeTableWord] at h
  split at h
  · rw [decodeCommand] at h
    split at h
    · rename_i j hj
      rw [hj, Option.some.inj h]
    · cases h
  · cases h

/-! ### Finite blocks -/

/-- The fields of a scalar lie in the `N` bits a command reads (R85, R86). -/
theorem exponentField_lowBits {kind : Kind} (hk : isFloat kind = true) (c : Word) :
    exponentField kind (lowBits (width kind) c) = exponentField kind c := by
  have hc := c.isLt
  cases kind <;> simp_all [isFloat, exponentField, lowBits, width, fbits, ebits] <;> omega

/-- The scalars a command reads, one by one. -/
theorem mem_operandBlock {kind : Kind} {size : Nat} {space : List Word} {p : Word} :
    p ∈ operandBlock kind size space ↔ ∃ j < size, lowBits (width kind) (cell space j) = p := by
  simp [operandBlock, blockCells]

/-- Which operand blocks are not acceptable to a float command (R135, R277). -/
theorem not_operandFinite_iff {s : State} {kind : Kind} (hk : isFloat kind = true) (dims : BitVec 2) :
    ¬ OperandFinite s kind dims ↔ ∃ j < blockSize dims, exponentField kind (cell s.port.block j) = 2 ^ ebits kind - 1 := by
  rw [OperandFinite, isFiniteBlock, List.all_eq_true]
  simp only [mem_operandBlock, isFiniteScalar, bne_iff_ne]
  constructor
  · intro h
    push Not at h
    obtain ⟨p, ⟨j, hj, rfl⟩, hp⟩ := h
    exact ⟨j, hj, (exponentField_lowBits hk _).symm.trans hp⟩
  · rintro ⟨j, hj, he⟩ h
    exact h _ ⟨j, hj, rfl⟩ ((exponentField_lowBits hk _).trans he)

end Sys2Proof.Machine

namespace Sys2Proof

open Machine

/-- Settles O5: the step takes the move off and decodes its word; the word of a table is decoded the same way. -/
theorem stepRunsTheDecodedCommand : Obligations.StepRunsTheDecodedCommand := by
  refine ⟨fun s d rest i hagenda hd _ => ?_, fun s nbits w i hd => ?_⟩
  · rw [step_move hagenda nofun, moveStep_encode_of_command hd]
  · rw [State.withFetchWord, step_move (mv := .encode (tableWord nbits w)) rfl nofun,
      moveStep_encode_of_command (decodeWord_of_decodeTableWord hd)]
    rfl

/-- Settles O11: the worker's state is checked before the block, by the one issue that both moves make. -/
theorem busyWorkerRefusesEveryCommand : Obligations.BusyWorkerRefusesEveryCommand := by
  intro i s w hw hb
  refine ⟨exec_of_issueCommand_refused (issueCommand_of_busy hw hb), fun rest => ?_⟩
  rw [step_issue_encode]
  exact issueCommand_of_busy (s := s.setAgenda rest) hw hb

/-- Settles O12: a command has a next state where its issue has one, and is refused where that is. -/
theorem commandsNeverFault : Obligations.CommandsNeverFault := by
  intro i s
  obtain ⟨t, h⟩ | h | h | h := issueCommand_cases i.kind i.dims i.maxbits i.blockIdx s
  · exact .inl ⟨_, exec_of_issueCommand_next h⟩
  · exact .inr (.inl (exec_of_issueCommand_refused h))
  · exact .inr (.inr (.inl (exec_of_issueCommand_refused h)))
  · exact .inr (.inr (.inr (exec_of_issueCommand_refused h)))

/-- Settles O10: of an idle worker the block is the only check left, made of the float kinds alone. -/
theorem commandIsRefusedForItsBlockIffNotFinite : Obligations.CommandIsRefusedForItsBlockIffNotFinite := by
  intro i s w hw
  by_cases hf : isFloat i.kind = true → OperandFinite s i.kind i.dims
  · rw [exec_of_issueCommand_next (issueCommand_of_accepts hw hf)]
    refine iff_of_false nofun fun ⟨hk, hj⟩ => (not_operandFinite_iff hk _).mpr hj (hf hk)
  · obtain ⟨hk, hf⟩ := Classical.not_imp.mp hf
    rw [exec_of_issueCommand_refused (issueCommand_of_not_finite hw hk hf)]
    exact iff_of_true rfl ⟨hk, (not_operandFinite_iff hk _).mp hf⟩

end Sys2Proof

/-! The stream as its bits (R51): two canonical memories with the same global bits are the same data, so that an equation between streams
is one between bits, where events are ORs (R56, R58). -/

namespace Sys2Proof.Machine

/-- Bit `r` of byte `x` is global bit `8x + r` (R51, R55). -/
theorem Memory.getLsbD_readByte_eq_globalBit (m : Memory) (x : Nat) {r : Nat} (hr : r < 8) :
    (m.readByte x).getLsbD r = m.globalBit (8 * x + r) := by
  have h := m.getLsbD_readWord ((8 * x + r) / 64) ((8 * x + r) % 64) (by omega)
  rw [Memory.globalBit, Config.wordBits, h]
  congr 2 <;> omega

/-- Canonical memories with the same global bits are equal. -/
theorem Memory.ext_of_globalBit {m m' : Memory} (h : m.wf = true) (h' : m'.wf = true)
    (hbits : ∀ p, m.globalBit p = true ↔ m'.globalBit p = true) : m = m' :=
  Memory.ext_of_readByte h h' fun x => BitVec.eq_of_getLsbD_eq fun r hr => by
    rw [Memory.getLsbD_readByte_eq_globalBit _ _ hr, Memory.getLsbD_readByte_eq_globalBit _ _ hr, Bool.eq_iff_iff, hbits]

/-- Events whose bits are already set change nothing (R58). -/
theorem orEvents_eq_self {m : Memory} (h : m.wf = true) {evs : List Event} (hset : ∀ p, SomeSets evs p → m.globalBit p = true) :
    orEvents m evs = m :=
  Memory.ext_of_globalBit (orEvents_wf h evs) h fun p => by
    rw [globalBit_orEvents_iff h]
    exact ⟨fun hp => hp.elim id (hset p), .inl⟩

/-- The stream does not tell in which order events were made, nor how often (R58, R62). -/
theorem orEvents_congr {m : Memory} (h : m.wf = true) {evs evs' : List Event} (hsame : ∀ p, SomeSets evs p ↔ SomeSets evs' p) :
    orEvents m evs = orEvents m evs' :=
  Memory.ext_of_globalBit (orEvents_wf h evs) (orEvents_wf h evs') fun p => by
    rw [globalBit_orEvents_iff h, globalBit_orEvents_iff h, hsame]

theorem someSets_singleton (ev : Event) (p : Nat) : SomeSets [ev] p ↔ ev.sets p = true := by simp [SomeSets]

theorem someSets_cons (ev : Event) (evs : List Event) (p : Nat) : SomeSets (ev :: evs) p ↔ ev.sets p = true ∨ SomeSets evs p := by
  simp [SomeSets]

theorem orEvents_nil (m : Memory) : orEvents m [] = m := rfl

theorem orEvents_cons (m : Memory) (ev : Event) (evs : List Event) : orEvents m (ev :: evs) = orEvents (m.atomicOr ev) evs := by
  rw [orEvents, List.foldl_cons, orEvents]

/-- An event of value 0 sets no bit (R173). -/
theorem not_sets_of_value_zero {ev : Event} (h : ev.value = 0) (p : Nat) : ¬ ev.sets p = true := by simp [Event.sets, h]

/-- After `HOST.ZERO words=n` the first `n` words are zero and the others as before (R90). -/
theorem Memory.readWord_zeroWords {m : Memory} (h : m.wf = true) (n a : Nat) :
    (m.zeroWords n).readWord a = if a < n then 0 else m.readWord a := by
  apply BitVec.eq_of_getLsbD_eq
  intro j hj
  rw [Memory.getLsbD_readWord _ _ _ hj, Memory.readByte_zeroWords h]
  by_cases ha : a < n
  · rw [if_pos (by omega), if_pos ha, BitVec.ofNat_eq_ofNat, BitVec.ofNat_eq_ofNat, BitVec.getLsbD_zero, BitVec.getLsbD_zero]
  · rw [if_neg (by omega), if_neg ha, Memory.getLsbD_readWord _ _ _ hj]

end Sys2Proof.Machine

namespace Sys2Proof

open Machine

/-- Settles O38: the word is `readWord_atomicOr`; the three equations hold because the events on both sides set the same bits. -/
theorem atomicOrIsAnIdempotentCommutingOr : Obligations.AtomicOrIsAnIdempotentCommutingOr := by
  intro m e₁ e₂ hwf
  have hcomm : orEvents m [e₁, e₂] = orEvents m [e₂, e₁] :=
    orEvents_congr hwf fun p => by rw [someSets_cons, someSets_singleton, someSets_cons, someSets_singleton, or_comm]
  have htwice : orEvents m [e₁, e₁] = orEvents m [e₁] :=
    orEvents_congr hwf fun p => by rw [someSets_cons, someSets_singleton, or_self]
  have hnone : e₁.value = 0 → orEvents m [e₁] = m := fun hzero =>
    orEvents_eq_self hwf fun p hp => absurd ((someSets_singleton e₁ p).mp hp) (not_sets_of_value_zero hzero p)
  simp only [orEvents_cons, orEvents_nil] at hcomm htwice hnone
  exact ⟨Memory.readWord_atomicOr hwf e₁, hcomm, htwice, hnone⟩

end Sys2Proof

/-! The host's moves and the frame of every step (R7, R82, R90): what a step leaves alone, and what each move of the host answers. -/

namespace Sys2Proof.Machine

/-! ### What every step leaves alone -/

/-- The parameters and the number of workers of two states are the same (R7, R21). -/
structure State.SameMachine (s t : State) : Prop where
  params : t.params = s.params
  workers : t.workers.length = s.workers.length

theorem State.SameMachine.refl (s : State) : s.SameMachine s := ⟨rfl, rfl⟩

theorem State.sameMachine_replace (s : State) (i : Nat) (w : Worker) (m : Memory) :
    s.SameMachine ((s.setWorker i w).setStream m) := ⟨rfl, List.length_set ..⟩

/-- What a worker's step leaves alone: all but that worker and the stream (R32). -/
theorem State.workerStep_frame {s t : State} {i : Nat} (h : s.workerStep i = some t) :
    s.SameMachine t ∧ t.port = s.port ∧ t.agenda = s.agenda ∧ t.reads = s.reads := by
  obtain ⟨w, w', m, -, -, rfl⟩ := State.workerStep_some h
  exact ⟨s.sameMachine_replace i w' m, rfl, rfl, rfl⟩

/-- What a worker's move leaves alone, a step or none (R32, log 7). -/
theorem moveWorker_frame {s t : State} {i : Nat} (h : moveWorker i s = .next t) :
    s.SameMachine t ∧ t.port = s.port ∧ t.agenda = s.agenda ∧ t.reads = s.reads := by
  obtain ⟨-, hstep | ⟨-, rfl⟩⟩ := moveWorker_next h
  · exact State.workerStep_frame hstep
  · exact ⟨.refl t, rfl, rfl, rfl⟩

theorem State.sameMachine_someWorkerSteps (s : State) : s.SameMachine (someWorkerSteps s) := by
  obtain ⟨i, hstep⟩ | hsame := someWorkerSteps_cases s
  · exact (State.workerStep_frame hstep).1
  · rw [hsame]; exact .refl s

theorem State.sameMachine_issueCommand {kind : Kind} {dims : BitVec 2} {maxbits : BitVec 16} {blockIdx : BitVec 32} {s t : State}
    (h : issueCommand kind dims maxbits blockIdx s = .next t) : s.SameMachine t := by
  obtain ⟨w, -, -, rfl⟩ := issueCommand_next h
  exact s.sameMachine_replace s.port.worker _ s.stream

theorem State.sameMachine_runToCompletion (i : Nat) (s : State) : s.SameMachine (runToCompletion i s) := by
  rw [runToCompletion]
  split
  · exact .refl s
  · exact s.sameMachine_replace i _ _

theorem State.sameMachine_exec {i : Instr} {s t : State} (h : exec i s = .next t) : s.SameMachine t := by
  rw [exec_eq_runCommand] at h
  obtain ⟨u, hissue, rfl⟩ := runCommand_next h
  have hu := State.sameMachine_issueCommand hissue
  have ht := u.sameMachine_runToCompletion s.port.worker
  exact ⟨ht.params.trans hu.params, ht.workers.trans hu.workers⟩

/-- All that `HOST.ZERO` can do: it zeroes its words, with no command in flight (R66, R90). -/
theorem hostZero_next {s t : State} {n : Nat} (h : hostZero n s = .next t) :
    n ≤ s.params.streamWords ∧ allIdle s.workers = true ∧ t = s.setStream (s.stream.zeroWords n) := by
  rw [hostZero] at h
  split at h
  · cases h
  · rename_i hle
    split at h
    · rename_i hidle
      exact ⟨not_lt.mp hle, hidle, (Host.Outcome.next.inj h).symm⟩
    · cases h

/-- No move changes a parameter or the number of workers (R7, R21). -/
theorem State.sameMachine_moveStep {s t : State} {mv : Move} (h : moveStep mv s = .next t) : s.SameMachine t := by
  cases mv with
  | encode d =>
    cases hd : decodeWord d with
    | command i => rw [moveStep_encode_of_command hd] at h; exact State.sameMachine_exec h
    | reserved r => rw [moveStep_encode_of_reserved hd] at h; cases h
  | issue d =>
    cases hd : decodeWord d with
    | command i => rw [moveStep_issue_of_command hd] at h; exact State.sameMachine_issueCommand h
    | reserved r => rw [moveStep_issue_of_reserved hd] at h; cases h
  | present worker block => obtain rfl := Host.Outcome.next.inj h; exact ⟨rfl, rfl⟩
  | worker i => exact (moveWorker_frame h).1
  | zero n => obtain ⟨-, -, rfl⟩ := hostZero_next h; exact ⟨rfl, rfl⟩
  | wait => obtain rfl := Host.Outcome.next.inj h; exact .refl s
  | read addr => obtain ⟨w, rfl⟩ := hostRead_next h; exact ⟨rfl, rfl⟩
  | reset => obtain rfl := Host.Outcome.next.inj h; exact ⟨rfl, List.length_map _⟩

/-! ### The move of no agent -/

/-- Where no worker from `i` on has a step, none is found. -/
theorem workerStep_of_firstStepFrom_eq_none {s : State} {fuel i : Nat} (h : firstStepFrom s fuel i = none) :
    ∀ j, i ≤ j → j < i + fuel → s.workerStep j = none := by
  induction fuel generalizing i with
  | zero => intro j hi hj; omega
  | succ fuel ih =>
    rw [firstStepFrom] at h
    split at h
    · cases h
    · rename_i hi
      intro j hij hj
      by_cases hji : j = i
      · exact hji ▸ hi
      · exact ih h j (by omega) (by omega)

/-- With no agent named a worker that has a step takes one, and where none has nothing happens (R67, log 4). -/
theorem someWorkerSteps_spec (s : State) :
    (∃ j, s.workerStep j = some (someWorkerSteps s)) ∨ (someWorkerSteps s = s ∧ ∀ j, s.workerStep j = none) := by
  cases hfirst : firstStepFrom s s.workers.length 0 with
  | some t => exact .inl (by rw [someWorkerSteps, hfirst]; exact firstStepFrom_some hfirst)
  | none =>
    refine .inr ⟨by rw [someWorkerSteps, hfirst], fun j => ?_⟩
    by_cases hj : j < s.workers.length
    · exact workerStep_of_firstStepFrom_eq_none hfirst j (Nat.zero_le j) (by omega)
    · rw [State.workerStep, List.getElem?_eq_none (by omega)]

/-! ### After a reset -/

/-- A step of an agenda whose next move is a worker's. -/
theorem step_worker_cons {s : State} {i : Nat} {rest : List Move} (h : s.agenda = .worker i :: rest) :
    step s = moveWorker i (s.setAgenda rest) := step_move h nofun

/-- With every worker idle no worker has a step (R20). -/
theorem State.workerStep_of_allIdle {s : State} (h : allIdle s.workers = true) (i : Nat) : s.workerStep i = none := by
  rw [State.workerStep]
  split
  · rfl
  · rename_i w hw
    have hidle : w.busy = false := by simpa using List.all_eq_true.mp h w (List.mem_of_getElem? hw)
    rw [Worker.smallStep_none.mpr (.inl hidle)]

/-- With every worker idle the workers' moves change nothing but the agenda. -/
theorem run_workers_of_allIdle {s u : State} (hidle : allIdle s.workers = true) (hmoves : ∀ mv ∈ s.agenda, ∃ i, mv = .worker i)
    (h : Sys2Proof.core.run s.agenda.length s = .next u) : u.stream = s.stream := by
  generalize hagenda : s.agenda = moves at hmoves h
  induction moves generalizing s with
  | nil => rw [← Host.Outcome.next.inj h]
  | cons mv moves ih =>
    obtain ⟨⟨i, rfl⟩, hrest⟩ := List.forall_mem_cons.mp hmoves
    obtain ⟨t, hstep, hrun⟩ : ∃ t, step s = .next t ∧ Sys2Proof.core.run moves.length t = .next u := run_succ_next h
    rw [step_worker_cons hagenda] at hstep
    obtain ⟨-, hsome | ⟨-, rfl⟩⟩ := moveWorker_next hstep
    · rw [State.workerStep_of_allIdle (s := s.setAgenda moves) hidle] at hsome
      cases hsome
    · exact ih (s := s.setAgenda moves) hidle rfl hrest hrun

/-- Every worker of a machine just reset holds the registers of the reset state (R37, R38). -/
theorem eq_reset_of_mem_resetCore {s : State} {w : Worker} (h : w ∈ (resetCore s).workers) : w = Worker.reset := by
  obtain ⟨-, -, rfl⟩ := List.mem_map.mp h
  rfl

theorem allIdle_resetCore (s : State) : allIdle (resetCore s).workers = true :=
  List.all_eq_true.mpr fun w hw => by rw [eq_reset_of_mem_resetCore hw]; rfl

end Sys2Proof.Machine

namespace Sys2Proof

open Machine

/-- Settles O24: no move touches the parameters or the number of workers, and neither do the workers at a wait. -/
theorem parametersAndWorkerCountNeverChange : Obligations.ParametersAndWorkerCountNeverChange := by
  intro s t h
  obtain ⟨mv, rest, -, hmove⟩ | hgo := step_cases s
  · have hsame := State.sameMachine_moveStep (hmove.symm.trans h)
    exact ⟨hsame.params, hsame.workers⟩
  · obtain rfl := Host.Outcome.next.inj (hgo.symm.trans h)
    exact ⟨s.sameMachine_someWorkerSteps.params, s.sameMachine_someWorkerSteps.workers⟩

/-- Settles O33: a reset gives every worker the registers of the reset state, where it is idle, and an idle worker has no step. -/
theorem resetAbandonsCommandsInFlight : Obligations.ResetAbandonsCommandsInFlight := by
  intro s rest hagenda
  refine ⟨_, step_reset hagenda, rfl, List.length_map _, fun w hw => ?_, rfl, rfl, rfl, rfl, fun moves u hmoves hrun => ?_⟩
  · rw [eq_reset_of_mem_resetCore hw]
    exact ⟨rfl, rfl, rfl⟩
  · refine run_workers_of_allIdle (s := (resetCore (s.setAgenda rest)).setAgenda moves) (allIdle_resetCore _) (fun mv hmv => ?_) hrun
    obtain ⟨i, -, rfl⟩ := hmoves mv hmv
    exact ⟨i, rfl⟩

/-- Settles O34: the presented elements, cut to the 64 of the space, are written over its leading ones. -/
theorem hostPresentLoadsThePort : Obligations.HostPresentLoadsThePort := by
  intro s j block rest hagenda hlen
  refine ⟨(hostPresent j block s).port, step_move hagenda nofun, rfl, ?_, fun i hi => ?_⟩
  · rw [hostPresent, State.setPort_port, length_rewriteFile, List.length_take, hlen, Config.fileCells]
    omega
  · rw [hostPresent, State.setPort_port, cell_rewriteFile, List.length_take, Config.fileCells]
    simp only [lt_min_iff, hi, true_and, cell, List.getD_eq_getElem?_getD, List.getElem?_take_of_lt hi]

/-- Settles O35: the two checks of the move, and the words of the memory it leaves. -/
theorem hostZeroClearsExactlyItsWords : Obligations.HostZeroClearsExactlyItsWords := by
  intro s n rest hagenda hwf
  have hstep : step s = hostZero n (s.setAgenda rest) := step_move hagenda nofun
  rw [hstep, hostZero, State.setAgenda_params, State.setAgenda_workers]
  refine ⟨fun hle hidle => ⟨_, (if_neg hle.not_gt).trans (if_pos hidle), rfl, fun a => ?_⟩, fun hle hbusy => ?_, fun hlt => if_pos hlt⟩
  · exact Memory.readWord_zeroWords hwf n a
  · rw [if_neg hle.not_gt]
    exact if_neg (by simp [hbusy])

/-- Settles O36: the two branches of the move. -/
theorem hostReadAnswersTheWord : Obligations.HostReadAnswersTheWord := by
  intro s a rest hagenda
  have hstep : step s = hostRead a (s.setAgenda rest) := step_move hagenda nofun
  rw [hstep, hostRead]
  exact ⟨fun hlt => if_pos hlt, fun hle => if_neg hle.not_gt⟩

/-- Settles O37: at a wait with a command in flight no agent is named, and a worker's step leaves the agenda as it is. -/
theorem hostWaitHoldsUntilNoCommandIsInFlight : Obligations.HostWaitHoldsUntilNoCommandIsInFlight := by
  intro s rest hagenda
  rw [step_wait hagenda]
  refine ⟨fun hidle => if_pos hidle, fun hbusy => ⟨someWorkerSteps s, if_neg (by simp [hbusy]), ?_, someWorkerSteps_spec s⟩⟩
  obtain ⟨j, hstep⟩ | ⟨hsame, -⟩ := someWorkerSteps_spec s
  · obtain ⟨-, -, hkeep, -⟩ := State.workerStep_frame hstep
    rw [hkeep, hagenda]
  · rw [hsame, hagenda]

end Sys2Proof

/-! The phases of a worker (R34) and the issue of a command (R82), register by register. -/

namespace Sys2Proof.Machine

/-- Only `EXPONENT` and `PLANES` call the writer; every other action leaves the pending events as they are (R34). -/
theorem Worker.advance_pending {p : Config.Params} {w : Worker} (he : w.phase ≠ .exponent) (hp : w.phase ≠ .planes) :
    (w.advance p).pending = w.pending := by
  cases h : w.phase with
  | exponent => exact absurd h he
  | planes => exact absurd h hp
  | idle => simp [Worker.advance, h]
  | setup => rw [Worker.advance_setup h, setupPhase_pending]
  | header => rw [Worker.advance_header h, Worker.enter_pending]
  | cast => rw [Worker.advance_cast h, castPhase]
  | xform => rw [Worker.advance_xform h, xformPhase]
  | order => rw [Worker.advance_order h, orderPhase]
  | done => rw [Worker.advance_done h, Worker.signalDone_pending]

theorem setupPhase_phase (w : Worker) : (setupPhase w).phase = if isFloat w.kind then .exponent else .xform := by
  rw [setupPhase]
  split <;> rfl

/-- `EXPONENT` completes a block that is dropped, without an event, and else calls the writer for the header (R205 steps 5, 6). -/
theorem exponentPhase_cases (p : Config.Params) (w : Worker) :
    ((exponentPhase p w).e = 0 ∧ (exponentPhase p w).phase = .done ∧ (exponentPhase p w).pending = w.pending) ∨
      ((exponentPhase p w).e ≠ 0 ∧ (exponentPhase p w).phase = .header) := by
  by_cases h : commandExponent p w.kind (blockCells (blockSize w.dims) w.fblk) = 0
  · rw [exponentPhase_of_zero h]
    exact .inl ⟨h, rfl, rfl⟩
  · rw [exponentPhase_of_ne_zero h]
    exact .inr ⟨h, rfl⟩

theorem PlaneRegs.more_iff (r : PlaneRegs) : r.more = true ↔ 0 < r.bits ∧ r.kmin < r.k := by simp [PlaneRegs.more]

/-- `PLANES` codes a plane and stays, or ends without an event (R189). -/
theorem planesPhase_cases (w : Worker) :
    (w.planes.more = true ∧ (planesPhase w).phase = w.phase) ∨
      (w.planes.more = false ∧ (planesPhase w).phase = .done ∧ (planesPhase w).pending = w.pending) := by
  cases h : w.planes.more with
  | true => rw [planesPhase_of_more h]; exact .inl ⟨rfl, rfl⟩
  | false => rw [planesPhase_of_not_more h]; exact .inr ⟨rfl, rfl, rfl⟩

/-- Cell `j` of the block a command reads (R85). -/
theorem cell_operandBlock {kind : Kind} {size j : Nat} (space : List Word) (hj : j < size) :
    cell (operandBlock kind size space) j = lowBits (width kind) (cell space j) := by
  simp [operandBlock, blockCells, cell, hj]

end Sys2Proof.Machine

namespace Sys2Proof

open Machine

/-- Settles O25: phase by phase; the writer is called by `EXPONENT` where it enters `HEADER`, and by `PLANES` where it stays. -/
theorem phasesFollowTheSequence : Obligations.PhasesFollowTheSequence := by
  intro p w hpending
  have hquiet : w.phase ≠ .exponent → w.phase ≠ .planes → ¬ (w.advance p).pending ≠ [] := fun he hp hne =>
    hne ((Worker.advance_pending he hp).trans hpending)
  cases h : w.phase with
  | idle => exact ⟨by simp [Worker.advance, h], fun hne => absurd hne (hquiet (by simp [h]) (by simp [h]))⟩
  | setup => exact ⟨by rw [Worker.advance_setup h]; exact setupPhase_phase w, fun hne => absurd hne (hquiet (by simp [h]) (by simp [h]))⟩
  | exponent =>
    rw [Worker.advance_exponent h]
    obtain ⟨he, hphase, hkeep⟩ | ⟨he, hphase⟩ := exponentPhase_cases p w
    · exact ⟨by simp [he, hphase], fun hne => absurd (hkeep.trans hpending) hne⟩
    · exact ⟨by simp [he, hphase], fun _ => .inl hphase⟩
  | header => exact ⟨by simp [Worker.advance_header h], fun hne => absurd hne (hquiet (by simp [h]) (by simp [h]))⟩
  | cast => exact ⟨by simp [Worker.advance_cast h, castPhase], fun hne => absurd hne (hquiet (by simp [h]) (by simp [h]))⟩
  | xform => exact ⟨by simp [Worker.advance_xform h, xformPhase], fun hne => absurd hne (hquiet (by simp [h]) (by simp [h]))⟩
  | order => exact ⟨by simp [Worker.advance_order h, orderPhase], fun hne => absurd hne (hquiet (by simp [h]) (by simp [h]))⟩
  | planes =>
    rw [Worker.advance_planes h]
    obtain ⟨hmore, hphase⟩ | ⟨hmore, hphase, hkeep⟩ := planesPhase_cases w
    · exact ⟨by simp [(PlaneRegs.more_iff _).mp hmore, hphase, h], fun _ => .inr (hphase.trans h)⟩
    · refine ⟨?_, fun hne => absurd (hkeep.trans hpending) hne⟩
      dsimp only
      rw [hphase, if_neg (mt (PlaneRegs.more_iff _).mpr (by simp [hmore]))]
  | done => exact ⟨by simp [Worker.advance_done h], fun hne => absurd hne (hquiet (by simp [h]) (by simp [h]))⟩

/-- Settles O26: the issue loads the port's worker; its file is rewritten over the cells of the block. -/
theorem issueLoadsTheWorker : Obligations.IssueLoadsTheWorker := by
  intro i s w rest hw hf
  refine ⟨_, w.load i.kind i.dims i.maxbits i.blockIdx s.port.block, ?_, rfl, rfl, fun j hj => ?_, fun j hj => ?_⟩
  · rw [step_issue_encode]
    exact issueCommand_of_accepts (s := s.setAgenda rest) hw hf
  · rw [Worker.load_fblk, cell_rewriteFile, length_operandBlock, if_pos hj, cell_operandBlock _ hj]
  · rw [Worker.load_fblk, cell_rewriteFile, length_operandBlock, if_neg hj.not_gt]

/-- Settles O27: the worker found is the one just loaded, which owes the listing of what it was loaded with. -/
theorem issuedWorkerOwesTheCommandsEvents : Obligations.IssuedWorkerOwesTheCommandsEvents := by
  intro i s t w h hw
  obtain ⟨v, hv, -, rfl⟩ := issueCommand_next h
  rw [State.setWorker_getElem?_self _ hv.1] at hw
  obtain rfl := Option.some.inj hw
  exact Worker.remaining_load s.params v i.kind (dims_ne_zero i) i.maxbits i.blockIdx s.port.block

end Sys2Proof

/-! The registers a command leaves (R205, R207): a worker of which no event is out of range goes through its phases with the stream
aside, and what it ends with is computed phase by phase, from the last to the first, as what it owes was. -/

namespace Sys2Proof.Machine

/-! ### A worker's end -/

/-- The registers a worker ends with where no event holds it up, the first argument bounding the sequencer's actions. -/
def Worker.finish (p : Config.Params) : Nat → Worker → Worker
  | 0, w => w
  | fuel + 1, w => if w.busy then Worker.finish p fuel ({ w with pending := [] }.advance p) else w

theorem Worker.finish_of_idle {p : Config.Params} {fuel : Nat} {w : Worker} (h : w.phase = .idle) : w.finish p fuel = w := by
  cases fuel <;> simp [Worker.finish, h]

theorem Worker.finish_succ_of_busy {p : Config.Params} {fuel : Nat} {w : Worker} (hb : w.phase ≠ .idle) :
    w.finish p (fuel + 1) = Worker.finish p fuel ({ w with pending := [] }.advance p) := by
  rw [Worker.finish, if_pos ((Worker.busy_iff w).mpr hb)]

theorem Worker.futureEvents_succ_of_busy {p : Config.Params} {fuel : Nat} {w : Worker} (hb : w.phase ≠ .idle) :
    w.futureEvents p (fuel + 1) = w.pending ++ Worker.futureEvents p fuel ({ w with pending := [] }.advance p) := by
  rw [Worker.futureEvents, if_pos ((Worker.busy_iff w).mpr hb)]

/-- The next action brings a busy worker nearer to its end, so one less of the bound suffices. -/
theorem Worker.actionsLeft_advance_le {p : Config.Params} {fuel : Nat} {w : Worker} (hb : w.phase ≠ .idle)
    (h : w.actionsLeft ≤ fuel + 1) : (Worker.advance p { w with pending := [] }).actionsLeft ≤ fuel :=
  Nat.le_of_lt_succ ((Worker.actionsLeft_advance (w := { w with pending := [] }) p hb).trans_le h)

theorem Worker.phase_eq_idle_of_actionsLeft_le_zero {w : Worker} (h : w.actionsLeft ≤ 0) : w.phase = .idle :=
  Worker.phase_of_actionsLeft_eq_zero (Nat.le_zero.mp h)

/-- A bound that covers the actions left is enough: a larger one gives the same end. -/
theorem Worker.finish_succ_of_le {p : Config.Params} {fuel : Nat} {w : Worker} (h : w.actionsLeft ≤ fuel) :
    w.finish p (fuel + 1) = w.finish p fuel := by
  induction fuel generalizing w with
  | zero =>
    have hidle := Worker.phase_eq_idle_of_actionsLeft_le_zero h
    rw [Worker.finish_of_idle hidle, Worker.finish_of_idle hidle]
  | succ fuel ih =>
    by_cases hb : w.phase = .idle
    · rw [Worker.finish_of_idle hb, Worker.finish_of_idle hb]
    · rw [Worker.finish_succ_of_busy hb, ih (Worker.actionsLeft_advance_le hb h), ← Worker.finish_succ_of_busy hb]

/-- Only the action of `DONE` returns a worker to `IDLE` (R35). -/
theorem Worker.phase_of_advance_idle {p : Config.Params} {w : Worker} (hb : w.phase ≠ .idle) (h : (w.advance p).phase = .idle) :
    w.phase = .done := by
  cases hp : w.phase with
  | idle => exact absurd hp hb
  | setup => rw [Worker.advance_setup hp, setupPhase_phase] at h; split at h <;> cases h
  | exponent =>
    rw [Worker.advance_exponent hp] at h
    obtain ⟨-, hphase, -⟩ | ⟨-, hphase⟩ := exponentPhase_cases p w <;> cases hphase.symm.trans h
  | header => rw [Worker.advance_header hp] at h; cases h
  | cast => rw [Worker.advance_cast hp] at h; cases h
  | xform => rw [Worker.advance_xform hp] at h; cases h
  | order => rw [Worker.advance_order hp] at h; cases h
  | planes =>
    rw [Worker.advance_planes hp] at h
    obtain ⟨-, hphase⟩ | ⟨-, hphase, -⟩ := planesPhase_cases w
    · cases (hphase.trans hp).symm.trans h
    · cases hphase.symm.trans h
  | done => rfl

/-- A busy worker ends idle, its completion signalled and nothing pending (R35). -/
theorem Worker.finish_done {p : Config.Params} {fuel : Nat} {w : Worker} (hb : w.phase ≠ .idle) (h : w.actionsLeft ≤ fuel) :
    (w.finish p fuel).phase = .idle ∧ (w.finish p fuel).done = true ∧ (w.finish p fuel).pending = [] := by
  induction fuel generalizing w with
  | zero => exact absurd (Worker.phase_eq_idle_of_actionsLeft_le_zero h) hb
  | succ fuel ih =>
    rw [Worker.finish_succ_of_busy hb]
    by_cases hnext : (Worker.advance p { w with pending := [] }).phase = .idle
    · have hdone : w.phase = .done := Worker.phase_of_advance_idle (w := { w with pending := [] }) hb hnext
      rw [Worker.finish_of_idle hnext, Worker.advance_done (w := { w with pending := [] }) hdone]
      exact ⟨rfl, rfl, rfl⟩
    · exact ih hnext (Worker.actionsLeft_advance_le hb h)

/-- All that a run of a worker can do, its bound covering the actions left: the events it owes are made up to the first one out of
range; with none left over the worker is at its end, else it is stuck at that one, without a completion signal (R54, R243). -/
theorem Worker.run_spec {p : Config.Params} {fuel : Nat} {w : Worker} (m : Memory) (h : w.actionsLeft ≤ fuel) :
    ∃ made left, w.futureEvents p fuel = made ++ left ∧ (∀ ev ∈ made, ev.addr < p.streamWords) ∧
      (w.run p fuel m).2 = orEvents m made ∧ (left = [] → (w.run p fuel m).1 = w.finish p fuel) ∧
      ∀ ev ∈ left.head?, p.streamWords ≤ ev.addr ∧ (w.run p fuel m).1.IsStuck p ∧ (w.run p fuel m).1.done = w.done ∧
        (w.run p fuel m).1.pending.head? = some ev := by
  induction fuel generalizing w m with
  | zero =>
    rw [Worker.futureEvents_of_idle _ (Worker.phase_eq_idle_of_actionsLeft_le_zero h)]
    exact ⟨[], [], rfl, by simp, rfl, fun _ => rfl, by simp⟩
  | succ fuel ih =>
    by_cases hb : w.phase = .idle
    · rw [Worker.futureEvents_of_idle _ hb, Worker.run_idle ((Worker.not_busy_iff w).mpr hb), Worker.finish_of_idle hb]
      exact ⟨[], [], rfl, by simp, rfl, fun _ => rfl, by simp⟩
    · have hbusy := (Worker.busy_iff w).mpr hb
      obtain ⟨made, hsplit, hmem, hrange, hout⟩ := performEvents_spec p.streamWords w.pending m
      rw [Worker.futureEvents_succ_of_busy hb]
      by_cases hleft : (performEvents p.streamWords w.pending m).2 = []
      · rw [hleft, List.append_nil] at hsplit
        obtain ⟨made', left, hfuture, hrange', hstream, hend, hstuck⟩ :=
          ih (performEvents p.streamWords w.pending m).1 (Worker.actionsLeft_advance_le (p := p) hb h)
        rw [Worker.run_succ_of_inRange hbusy hleft, Worker.finish_succ_of_busy hb]
        refine ⟨made ++ made', left, by rw [hfuture, hsplit, List.append_assoc], ?_, ?_, hend, fun ev hev => ?_⟩
        · exact List.forall_mem_append.mpr ⟨hrange, hrange'⟩
        · rw [hstream, hmem]; exact (List.foldl_append ..).symm
        · obtain ⟨haddr, hat, hdone, hhead⟩ := hstuck ev hev
          refine ⟨haddr, hat, hdone.trans (Worker.advance_keeps_done (w := { w with pending := [] }) fun hp => ?_), hhead⟩
          have hidle : (Worker.advance p { w with pending := [] }).phase = .idle := by
            rw [Worker.advance_done (w := { w with pending := [] }) hp]; rfl
          rw [Worker.run_idle ((Worker.not_busy_iff _).mpr hidle)] at hat
          exact (Worker.busy_iff _).mp hat.1 hidle
      · rw [Worker.run_succ_of_stuck hbusy hleft]
        refine ⟨made, (performEvents p.streamWords w.pending m).2 ++ _, by rw [← List.append_assoc, ← hsplit], hrange, hmem,
          fun hnil => absurd (List.append_eq_nil_iff.mp hnil).1 hleft, fun ev hev => ?_⟩
        obtain ⟨ev', evs', hcons⟩ := List.exists_cons_of_ne_nil hleft
        rw [hcons] at hev hout ⊢
        obtain rfl : ev' = ev := by simpa using hev
        exact ⟨hout ev' rfl, ⟨hbusy, ev', rfl, hout ev' rfl⟩, rfl, rfl⟩

/-- A worker of which every event is in range runs to its end, and its events are all in the stream (R53). -/
theorem Worker.run_of_inRange {p : Config.Params} {fuel : Nat} {w : Worker} (m : Memory) (h : w.actionsLeft ≤ fuel)
    (hrange : ∀ ev ∈ w.futureEvents p fuel, ev.addr < p.streamWords) :
    w.run p fuel m = (w.finish p fuel, orEvents m (w.futureEvents p fuel)) := by
  obtain ⟨made, left, hsplit, -, hstream, hend, hstuck⟩ := Worker.run_spec (p := p) m h
  have hnil : left = [] := by
    cases left with
    | nil => rfl
    | cons ev left =>
      have hlt := hrange ev (by simp [hsplit])
      have hge := (hstuck ev rfl).1
      omega
  rw [hnil, List.append_nil] at hsplit
  exact Prod.ext (hend hnil) (by rw [hstream, hsplit])

/-! ### The end of a command, phase by phase -/

/-- The registers a worker ends with where no event holds it up. -/
def Worker.final (p : Config.Params) (w : Worker) : Worker := w.finish p sequencerBound

theorem Worker.final_of_busy {p : Config.Params} {w : Worker} (hb : w.phase ≠ .idle) (hle : w.actionsLeft ≤ sequencerBound) :
    w.final p = (Worker.advance p { w with pending := [] }).final p := by
  have hnext : (Worker.advance p { w with pending := [] }).actionsLeft ≤ 79 := Worker.actionsLeft_advance_le hb hle
  rw [Worker.final, Worker.final, sequencerBound, Worker.finish_succ_of_busy hb, ← Worker.finish_succ_of_le hnext]

/-- The pending events are no part of a worker's end. -/
theorem Worker.final_clear {p : Config.Params} {w : Worker} (hb : w.phase ≠ .idle) (hle : w.actionsLeft ≤ sequencerBound) :
    w.final p = Worker.final p { w with pending := [] } := by
  rw [Worker.final_of_busy hb hle, Worker.final_of_busy (w := { w with pending := [] }) hb hle]

/-- With nothing pending the end is that after the sequencer's next action. -/
theorem Worker.final_advance {p : Config.Params} {w : Worker} (hb : w.phase ≠ .idle) (hp : w.pending = [])
    (hle : w.actionsLeft ≤ sequencerBound) : w.final p = (w.advance p).final p := by
  have hclear : { w with pending := [] } = w := by rw [← hp]
  rw [Worker.final_of_busy hb hle, hclear]

theorem Worker.final_of_phase {p : Config.Params} {w : Worker} {ph : Phase} (h : w.phase = ph) (hp : w.pending = [])
    (hph : ph ≠ .idle ∧ ph ≠ .planes) : w.final p = (w.advance p).final p := by
  subst h
  exact Worker.final_advance hph.1 hp (Worker.actionsLeft_le hph.2)

theorem Worker.final_of_done {p : Config.Params} {w : Worker} (h : w.phase = .done) (hp : w.pending = []) :
    w.final p = w.signalDone := by
  rw [Worker.final_of_phase h hp (by decide), Worker.advance_done h]
  exact Worker.finish_of_idle rfl

/-- The registers after some planes: those of the encoder, and the cursor moved on by their calls (R189). -/
def Worker.withCode (w : Worker) (r : PlaneRegs × List Call) : Worker :=
  { w with planes := r.1, cursor := cursorAfter w.cursor r.2 }

/-- The registers after the plane loop and the completion (R189, R35). -/
def Worker.afterPlanes (w : Worker) (r : PlaneRegs × List Call) : Worker := (w.withCode r).signalDone

theorem Worker.afterPlanes_withCode (w : Worker) (r r' : PlaneRegs × List Call) :
    (w.withCode r).afterPlanes r' = w.afterPlanes (r'.1, r.2 ++ r'.2) := by
  simp only [Worker.afterPlanes, Worker.withCode, cursorAfter_append]

/-- At the end of the plane loop (R189, R194). -/
theorem Worker.final_of_not_more {p : Config.Params} {w : Worker} (h : w.phase = .planes) (hp : w.pending = [])
    (hle : w.actionsLeft ≤ sequencerBound) (hmore : w.planes.more = false) : w.final p = w.afterPlanes (w.planes, []) := by
  rw [Worker.final_advance (by simp [h]) hp hle, Worker.advance_planes h, planesPhase_of_not_more hmore,
    Worker.final_of_done (w := w.enter .done) rfl hp]
  rfl

/-- Before a pass of the plane loop (R189). -/
theorem Worker.final_of_more {p : Config.Params} {w : Worker} (h : w.phase = .planes) (hp : w.pending = [])
    (hle : w.actionsLeft ≤ sequencerBound) (hmore : w.planes.more = true) :
    w.final p = (w.withCode (codePlane (blockSize w.dims) w.ublk w.planes)).final p := by
  have hleft := Worker.actionsLeft_advance p (w := w) (by simp [h])
  rw [Worker.advance_planes h, planesPhase_of_more hmore] at hleft
  rw [Worker.final_advance (by simp [h]) hp hle, Worker.advance_planes h, planesPhase_of_more hmore,
    Worker.final_clear (by simp [h]) (by omega)]
  simp [hp, Worker.callWriter, Worker.withCode]

/-- The end of a worker in `PLANES` is that of its plane loop (R189). -/
theorem Worker.final_of_planes {p : Config.Params} {fuel : Nat} {w : Worker} (h : w.phase = .planes) (hp : w.pending = [])
    (hk : w.planes.k ≤ fuel) (hle : w.actionsLeft ≤ sequencerBound) :
    w.final p = w.afterPlanes (planeLoop (blockSize w.dims) w.ublk fuel w.planes) := by
  induction fuel generalizing w with
  | zero => exact Worker.final_of_not_more h hp hle (by simp [PlaneRegs.more]; omega)
  | succ fuel ih =>
    cases hmore : w.planes.more with
    | false => rw [Worker.final_of_not_more h hp hle hmore, planeLoop, hmore]; rfl
    | true =>
      have hcount : (codePlane (blockSize w.dims) w.ublk w.planes).1.k = w.planes.k - 1 := (codePlane_counts _ _ _).1
      have hk' : (w.withCode (codePlane (blockSize w.dims) w.ublk w.planes)).planes.k ≤ fuel := by
        rw [Worker.withCode, hcount]; omega
      have hle' : (w.withCode (codePlane (blockSize w.dims) w.ublk w.planes)).actionsLeft ≤ sequencerBound := by
        have hbound : w.planes.k + 2 ≤ sequencerBound := by rwa [Worker.actionsLeft_of_planes h] at hle
        exact Eq.trans_le (Worker.actionsLeft_of_planes h) (by rw [Worker.withCode, hcount]; omega)
      rw [Worker.final_of_more h hp hle hmore, ih (w := w.withCode _) h hp hk' hle', planeLoop, if_pos hmore,
        Worker.afterPlanes_withCode]
      rfl

/-- The registers after the code of a reordered block, written into `ublk`, and the completion (R156, R189). -/
def Worker.afterCode (w : Worker) (reordered : List Word) : Worker :=
  { w with ublk := rewriteFile reordered w.ublk }.afterPlanes (planeLoop (blockSize w.dims) reordered (width w.kind)
    (PlaneRegs.start (width w.kind) (commandBudget w.kind w.maxbits.toNat) w.maxprec))

/-- The end of a worker in `ORDER` (R156). -/
theorem Worker.final_of_order {p : Config.Params} {w : Worker} (h : w.phase = .order) (hp : w.pending = []) (hd : w.dims ≠ 0) :
    w.final p = w.afterCode (fwdOrder (width w.kind) w.dims.toNat w.ints) := by
  have hsize : (fwdOrder (width w.kind) w.dims.toNat w.ints).length = blockSize w.dims := by
    rw [length_fwdOrder, length_permutation_dims hd]
  have hcells : blockCells (blockSize w.dims) (orderPhase w).ublk =
      blockCells (blockSize w.dims) (fwdOrder (width w.kind) w.dims.toNat w.ints) := by
    rw [blockCells_of_length hsize]
    exact blockCells_rewriteFile_of_length hsize w.ublk
  have hleft : (orderPhase w).actionsLeft ≤ sequencerBound := by
    have := width_le w.kind
    simp [Worker.actionsLeft, orderPhase, PlaneRegs.start, sequencerBound]
    omega
  calc w.final p
      = (orderPhase w).final p := by rw [Worker.final_of_phase h hp (by decide), Worker.advance_order h]
    _ = (orderPhase w).afterPlanes (planeLoop (blockSize w.dims) (orderPhase w).ublk (width w.kind) (orderPhase w).planes) :=
        Worker.final_of_planes (w := orderPhase w) rfl hp le_rfl hleft
    _ = _ := by
        rw [planeLoop_congr hcells]
        rfl

/-- The registers after the transform and the code of an `Int_N` block, and the completion (R149, R156, R189). -/
def Worker.afterInts (w : Worker) (ints : List Int) : Worker :=
  { w with iblk := rewriteFile ((fwdXform (width w.kind) w.dims.toNat ints).map cellOfInt) w.iblk }.afterCode
    (reorderedBlock w.kind w.dims ints)

/-- The end of a worker in `XFORM` (R149). -/
theorem Worker.final_of_xform {p : Config.Params} {w : Worker} (h : w.phase = .xform) (hp : w.pending = []) (hd : w.dims ≠ 0) :
    w.final p = w.afterInts w.ints := by
  have hints : (xformPhase w).ints = fwdXform (width w.kind) w.dims.toNat w.ints :=
    Worker.ints_of_rewriteFile (w := xformPhase w) rfl ((length_fwdXform _ _ _).trans w.length_ints)
      (fwdXform_isInt (width_pos _) _ w.ints_isInt)
  rw [Worker.final_of_phase h hp (by decide), Worker.advance_xform h, Worker.final_of_order (w := xformPhase w) rfl hp hd, hints]
  rfl

/-- The cells of an `Int_N` block that the transform overwrites leave no trace. -/
theorem Worker.afterInts_of_rewritten {w : Worker} {vs ints : List Int} (h : vs.length = ints.length) :
    Worker.afterInts { w with iblk := rewriteFile (vs.map cellOfInt) w.iblk } ints = w.afterInts ints := by
  have hlen : ((fwdXform (width w.kind) w.dims.toNat ints).map cellOfInt).length = (vs.map cellOfInt).length := by simp [h]
  rw [Worker.afterInts, Worker.afterInts, rewriteFile_rewriteFile hlen]

/-- The end of a worker in `CAST` (R130). -/
theorem Worker.final_of_cast {p : Config.Params} {w : Worker} (h : w.phase = .cast) (hp : w.pending = []) (hd : w.dims ≠ 0)
    (hk : isFloat w.kind = true) (he : w.emax = maxExponent w.kind (blockCells (blockSize w.dims) w.fblk)) :
    w.final p = w.afterInts (integerBlock w.kind (blockCells (blockSize w.dims) w.fblk)) := by
  have hblock : integerBlock w.kind (blockCells (blockSize w.dims) w.fblk) =
      (blockCells (blockSize w.dims) w.fblk).map (castScalar w.kind w.emax) := by rw [integerBlock, if_pos hk, he]
  have hcast : castPhase w = { w with
      iblk := rewriteFile ((integerBlock w.kind (blockCells (blockSize w.dims) w.fblk)).map cellOfInt) w.iblk, phase := .xform } := by
    rw [castPhase, hblock, List.map_map]
    rfl
  have hints : (castPhase w).ints = integerBlock w.kind (blockCells (blockSize w.dims) w.fblk) := by
    refine Worker.ints_of_rewriteFile (old := w.iblk) (by rw [hcast]) (by simp [hblock, castPhase]) fun v hv => ?_
    rw [hblock, he] at hv
    obtain ⟨c, hc, rfl⟩ := List.mem_map.mp hv
    exact castScalar_isInt hk hc
  rw [Worker.final_of_phase h hp (by decide), Worker.advance_cast h, Worker.final_of_xform (w := castPhase w) rfl hp hd, hints, hcast,
    Worker.afterInts_of_rewritten (w := { w with phase := .xform }) rfl]
  rfl

/-- The end of a worker in `HEADER` (R34). -/
theorem Worker.final_of_header {p : Config.Params} {w : Worker} (h : w.phase = .header) (hp : w.pending = []) (hd : w.dims ≠ 0)
    (hk : isFloat w.kind = true) (he : w.emax = maxExponent w.kind (blockCells (blockSize w.dims) w.fblk)) :
    w.final p = w.afterInts (integerBlock w.kind (blockCells (blockSize w.dims) w.fblk)) := by
  rw [Worker.final_of_phase h hp (by decide), Worker.advance_header h, Worker.final_of_cast (w := w.enter .cast) rfl hp hd hk he]
  rfl

/-- The end in `EXPONENT` of a block that is dropped (R205 step 5). -/
theorem Worker.final_of_exponent_of_zero {p : Config.Params} {w : Worker} (h : w.phase = .exponent) (hp : w.pending = [])
    (he : commandExponent p w.kind (blockCells (blockSize w.dims) w.fblk) = 0) : w.final p = (w.measured p).signalDone := by
  rw [Worker.final_of_phase h hp (by decide), Worker.advance_exponent h, exponentPhase_of_zero he]
  exact Worker.final_of_done (w := (w.measured p).enter .done) rfl hp

/-- The end in `EXPONENT` of a block that is coded (R205 steps 6 to 10). -/
theorem Worker.final_of_exponent_of_ne_zero {p : Config.Params} {w : Worker} (h : w.phase = .exponent) (hp : w.pending = [])
    (hd : w.dims ≠ 0) (hk : isFloat w.kind = true) (he : commandExponent p w.kind (blockCells (blockSize w.dims) w.fblk) ≠ 0) :
    w.final p = Worker.afterInts { w.measured p with
      cursor := cursorAfter w.cursor
        [headerCall w.kind w.maxbits.toNat (commandExponent p w.kind (blockCells (blockSize w.dims) w.fblk))] }
      (integerBlock w.kind (blockCells (blockSize w.dims) w.fblk)) := by
  rw [Worker.final_of_phase h hp (by decide), Worker.advance_exponent h, exponentPhase_of_ne_zero he,
    Worker.final_clear (by simp) (Worker.actionsLeft_le (by simp)),
    Worker.final_of_header (w := { ((w.measured p).callWriter _).enter .header with pending := [] }) rfl rfl hd hk rfl]
  simp only [Worker.afterInts, Worker.afterCode, Worker.afterPlanes, Worker.withCode, Worker.signalDone, Worker.measured,
    Worker.enter, Worker.callWriter, hp]

/-- `SETUP` of an integer command (R207). -/
theorem setupPhase_of_not_float {w : Worker} (hk : isFloat w.kind = false) :
    setupPhase w = { w with
      cursor := Cursor.construct w.blockIdx.toNat w.maxbits.toNat
      iblk := rewriteFile (((blockCells (blockSize w.dims) w.fblk).map (intOfCell w.kind)).map cellOfInt) w.iblk
      maxprec := width w.kind
      phase := .xform } := by
  rw [setupPhase, if_neg (by simp [hk]), List.map_map]
  rfl

/-- `SETUP` of a float command (R165). -/
theorem setupPhase_of_float {w : Worker} (hk : isFloat w.kind = true) :
    setupPhase w = { w with cursor := Cursor.construct w.blockIdx.toNat w.maxbits.toNat, phase := .exponent } := if_pos hk

/-- The end of an integer command in `SETUP` (R207). -/
theorem Worker.final_of_setup_of_not_float {p : Config.Params} {w : Worker} (h : w.phase = .setup) (hp : w.pending = [])
    (hd : w.dims ≠ 0) (hk : isFloat w.kind = false) :
    w.final p = Worker.afterInts { w with
        cursor := Cursor.construct w.blockIdx.toNat w.maxbits.toNat, maxprec := width w.kind }
      ((blockCells (blockSize w.dims) w.fblk).map (intOfCell w.kind)) := by
  have hints : (setupPhase w).ints = (blockCells (blockSize w.dims) w.fblk).map (intOfCell w.kind) := by
    rw [setupPhase_of_not_float hk]
    refine Worker.ints_of_rewriteFile (old := w.iblk) rfl (by simp) fun v hv => ?_
    obtain ⟨c, -, rfl⟩ := List.mem_map.mp hv
    exact intOfCell_isInt _ _
  rw [Worker.final_of_phase h hp (by decide), Worker.advance_setup h, Worker.final_of_xform (by rw [setupPhase_of_not_float hk])
    ((setupPhase_pending w).trans hp) (by rwa [setupPhase_of_not_float hk]), hints, setupPhase_of_not_float hk]
  exact Worker.afterInts_of_rewritten (w := { w with cursor := _, maxprec := _, phase := .xform }) rfl

/-- The registers that the listing leaves of a command that is coded: those of the header, where there is one, and of the code after it
(R205, R207). -/
theorem completedWorker_of_not_dropped {p : Config.Params} {kind : Kind} {dims : BitVec 2} {space : List Word}
    (h : isDropped p kind (operandBlock kind (blockSize dims) space) = false) (maxbits : BitVec 16) (blockIdx : BitVec 32) (w : Worker) :
    completedWorker p kind dims maxbits blockIdx space w =
      Worker.afterInts { w.load kind dims maxbits blockIdx space with
          cursor := cursorAfter (Cursor.construct blockIdx.toNat maxbits.toNat)
            (if isFloat kind then [headerCall kind maxbits.toNat
              (commandExponent p kind (operandBlock kind (blockSize dims) space))] else [])
          maxprec := commandPrecision p kind (operandBlock kind (blockSize dims) space)
          emax := if isFloat kind then maxExponent kind (operandBlock kind (blockSize dims) space) else w.emax
          e := if isFloat kind then commandExponent p kind (operandBlock kind (blockSize dims) space) else w.e }
        (integerBlock kind (operandBlock kind (blockSize dims) space)) := by
  simp only [completedWorker, commandCalls, h, Bool.false_eq_true, if_false, cursorAfter_append]
  rfl

/-- The registers that the listing leaves of a float command that is dropped (R205 step 5). -/
theorem completedWorker_of_dropped {p : Config.Params} {kind : Kind} {dims : BitVec 2} {space : List Word}
    (h : isDropped p kind (operandBlock kind (blockSize dims) space) = true) (maxbits : BitVec 16) (blockIdx : BitVec 32) (w : Worker) :
    completedWorker p kind dims maxbits blockIdx space w =
      Worker.signalDone { w.load kind dims maxbits blockIdx space with
          cursor := Cursor.construct blockIdx.toNat maxbits.toNat
          maxprec := commandPrecision p kind (operandBlock kind (blockSize dims) space)
          emax := if isFloat kind then maxExponent kind (operandBlock kind (blockSize dims) space) else w.emax
          e := if isFloat kind then commandExponent p kind (operandBlock kind (blockSize dims) space) else w.e } := by
  simp only [completedWorker, commandCalls, h, if_true]
  rfl

/-- The registers a command's worker ends with are those of its listing (R205, R207). -/
theorem Worker.final_load (p : Config.Params) (w : Worker) (kind : Kind) {dims : BitVec 2} (hd : dims ≠ 0) (maxbits : BitVec 16)
    (blockIdx : BitVec 32) (space : List Word) :
    (w.load kind dims maxbits blockIdx space).final p = completedWorker p kind dims maxbits blockIdx space w := by
  have hblock : blockCells (blockSize dims) (w.load kind dims maxbits blockIdx space).fblk = operandBlock kind (blockSize dims) space :=
    blockCells_rewriteFile_of_length (length_operandBlock ..) _
  cases hk : isFloat kind with
  | false =>
    rw [Worker.final_of_setup_of_not_float (w := w.load kind dims maxbits blockIdx space) rfl rfl hd hk,
      completedWorker_of_not_dropped (by simp [isDropped, hk])]
    simp only [Worker.load_dims, Worker.load_kind, hblock, integerBlock, hk, commandPrecision]
    rfl
  | true =>
    rw [Worker.final_of_phase (w := w.load kind dims maxbits blockIdx space) (ph := .setup) rfl rfl (by decide),
      Worker.advance_setup (w := w.load kind dims maxbits blockIdx space) rfl,
      setupPhase_of_float (w := w.load kind dims maxbits blockIdx space) hk]
    by_cases he : commandExponent p kind (operandBlock kind (blockSize dims) space) = 0
    · rw [Worker.final_of_exponent_of_zero rfl rfl (by rw [← hblock] at he; exact he),
        completedWorker_of_dropped (by simp [isDropped, hk, he])]
      simp only [Worker.measured, Worker.load_dims, Worker.load_kind, hblock, hk, commandPrecision]
      rfl
    · rw [Worker.final_of_exponent_of_ne_zero rfl rfl hd hk (by rw [← hblock] at he; exact he),
        completedWorker_of_not_dropped (by simp [isDropped, hk, he])]
      simp only [Worker.measured, Worker.load_dims, Worker.load_kind, hblock, hk, commandPrecision]
      rfl

end Sys2Proof.Machine

/-! What a whole command does to the machine (R54, R205 to R208, R222): its worker runs from the issue, the events of its listing are
made up to the first one out of range, and the bits of those lie in the block's region. -/

namespace Sys2Proof.Machine

/-! ### The outcome of a command -/

theorem runToCompletion_eq {s : State} {i : Nat} {w : Worker} (hw : s.workers[i]? = some w) :
    runToCompletion i s =
      (s.setWorker i (w.run s.params sequencerBound s.stream).1).setStream (w.run s.params sequencerBound s.stream).2 := by
  rw [runToCompletion, hw]

theorem State.setWorker_setWorker (s : State) (i : Nat) (w w' : Worker) : (s.setWorker i w).setWorker i w' = s.setWorker i w' := by
  simp [State.setWorker]

/-- The port's worker right after the issue of a command (R82). -/
def State.loaded (s : State) (i : Instr) (w : Worker) : Worker := w.load i.kind i.dims i.maxbits i.blockIdx s.port.block

theorem State.loaded_busy (s : State) (i : Instr) (w : Worker) : (s.loaded i w).phase ≠ .idle := by simp [State.loaded]

theorem State.actionsLeft_loaded (s : State) (i : Instr) (w : Worker) : (s.loaded i w).actionsLeft ≤ sequencerBound :=
  Worker.actionsLeft_le (by simp [State.loaded])

/-- A loaded worker owes the events of its command's listing (R62). -/
theorem State.futureEvents_loaded (s : State) (i : Instr) (w : Worker) :
    (s.loaded i w).futureEvents s.params sequencerBound = s.eventsOf i :=
  Worker.remaining_load s.params w i.kind (dims_ne_zero i) i.maxbits i.blockIdx s.port.block

/-- The outcome of an accepted command of an acceptable block: the port's worker, loaded, has run. -/
theorem exec_of_accepts {i : Instr} {s : State} {w : Worker} (hw : Accepts s w)
    (hf : isFloat i.kind = true → OperandFinite s i.kind i.dims) :
    exec i s = .next ((s.setWorker s.port.worker ((s.loaded i w).run s.params sequencerBound s.stream).1).setStream
      ((s.loaded i w).run s.params sequencerBound s.stream).2) := by
  rw [exec_of_issueCommand_next (issueCommand_of_accepts hw hf), runToCompletion_eq (State.setWorker_getElem?_self _ hw.1),
    State.setWorker_setWorker]
  rfl

/-- A command with a next state was accepted, with an acceptable block (R242). -/
theorem accepts_of_exec_next {i : Instr} {s t : State} (h : exec i s = .next t) :
    ∃ w, Accepts s w ∧ (isFloat i.kind = true → OperandFinite s i.kind i.dims) := by
  rw [exec_eq_runCommand] at h
  obtain ⟨u, hissue, -⟩ := runCommand_next h
  obtain ⟨w, hw, hf, -⟩ := issueCommand_next hissue
  exact ⟨w, hw, hf⟩

/-- An accepted command of which every event is in range completes as its listing says (R205, R207). -/
theorem exec_eq_completedState {i : Instr} {s : State} {w : Worker} (hw : Accepts s w)
    (hf : isFloat i.kind = true → OperandFinite s i.kind i.dims) (hrange : ∀ ev ∈ s.eventsOf i, ev.addr < s.params.streamWords) :
    exec i s = .next (completedState i.kind i.dims i.maxbits i.blockIdx w s) := by
  rw [← s.futureEvents_loaded i w] at hrange
  rw [exec_of_accepts hw hf, Worker.run_of_inRange s.stream (s.actionsLeft_loaded i w) hrange, s.futureEvents_loaded i w,
    ← Worker.final, State.loaded, Worker.final_load s.params w i.kind (dims_ne_zero i)]
  rfl

/-- Every command completes as its listing says where its region fits the stream (R53, R205, R207). -/
theorem completesAsListed (i : Instr) : CompletesAsListed i := fun _ _ hw hf hfits =>
  exec_eq_completedState hw hf (commandEvents_inRange hfits _ _ _)

/-- All that an accepted command can do, whatever the size of the stream: its events are made up to the first one out of range, at which
its worker is then stuck (R54, R243). -/
theorem exec_spec {i : Instr} {s : State} {w : Worker} (hw : Accepts s w) (hf : isFloat i.kind = true → OperandFinite s i.kind i.dims) :
    ∃ t w' made left, exec i s = .next t ∧ t = (s.setWorker s.port.worker w').setStream (orEvents s.stream made) ∧
      s.eventsOf i = made ++ left ∧ (∀ ev ∈ made, ev.addr < s.params.streamWords) ∧
      (left = [] → w'.phase = .idle ∧ w'.done = true ∧ w'.pending = []) ∧
      ∀ ev ∈ left.head?, s.params.streamWords ≤ ev.addr ∧ w'.IsStuck s.params ∧ w'.done = false ∧ w'.pending.head? = some ev := by
  obtain ⟨made, left, hsplit, hrange, hstream, hend, hstuck⟩ := Worker.run_spec (p := s.params) s.stream (s.actionsLeft_loaded i w)
  refine ⟨_, _, made, left, exec_of_accepts hw hf, by rw [hstream], (s.futureEvents_loaded i w).symm.trans hsplit, hrange,
    fun hnil => ?_, hstuck⟩
  rw [hend hnil]
  exact Worker.finish_done (s.loaded_busy i w) (s.actionsLeft_loaded i w)

/-! ### The region of a command -/

/-- Bits laid from the first bit of a region on, no more than its size, lie in the region (R52). -/
theorem inRegion_of_laidAt {maxbits blockIdx p : Nat} {written : List Bool} (hlen : written.length ≤ maxbits)
    (h : LaidAt (blockIdx * maxbits) written p) : InRegion maxbits blockIdx p := by
  obtain ⟨hfirst, hbit⟩ := h
  have hlt : p - blockIdx * maxbits < written.length := by
    by_contra hge
    rw [List.getD_eq_default _ _ (by omega)] at hbit
    cases hbit
  rw [InRegion, Nat.add_mul]
  omega

/-- The bits that a command's events set lie in its block's region (R222). -/
theorem inRegion_of_someSets {p : Config.Params} {kind : Kind} {dims : BitVec 2} {maxbits : BitVec 16} {blockIdx : BitVec 32}
    {block : List Word} {q : Nat} (h : SomeSets (commandEvents p kind dims maxbits blockIdx block) q) :
    InRegion maxbits.toNat blockIdx.toNat q :=
  inRegion_of_laidAt (length_commandBits_le ..) ((someSets_commandEvents ..).mp h)

/-- A byte outside a region has no bit in it. -/
theorem not_inRegion_of_byteOutside {maxbits blockIdx a r : Nat} (h : ByteOutside maxbits blockIdx a) (hr : r < 8) :
    ¬ InRegion maxbits blockIdx (8 * a + r) := by
  rw [ByteOutside] at h
  rw [InRegion]
  omega

theorem SomeSets.append_right {made : List Event} {q : Nat} (h : SomeSets made q) (left : List Event) : SomeSets (made ++ left) q :=
  (someSets_append made left q).mpr (.inl h)

/-! ### The registers of a completed command -/

theorem completedWorker_idle (p : Config.Params) (kind : Kind) (dims : BitVec 2) (maxbits : BitVec 16) (blockIdx : BitVec 32)
    (space : List Word) (w : Worker) :
    (completedWorker p kind dims maxbits blockIdx space w).phase = .idle ∧
      (completedWorker p kind dims maxbits blockIdx space w).done = true ∧
      (completedWorker p kind dims maxbits blockIdx space w).pending = [] := by
  rw [completedWorker]
  dsimp only
  split <;> exact ⟨rfl, rfl, rfl⟩

theorem completedWorker_cursor (p : Config.Params) (kind : Kind) (dims : BitVec 2) (maxbits : BitVec 16) (blockIdx : BitVec 32)
    (space : List Word) (w : Worker) :
    (completedWorker p kind dims maxbits blockIdx space w).cursor =
      cursorAfter (Cursor.construct blockIdx.toNat maxbits.toNat)
        (commandCalls p kind dims maxbits.toNat (operandBlock kind (blockSize dims) space)) := by
  rw [completedWorker]
  dsimp only
  split <;> rfl

theorem completedWorker_float {kind : Kind} (hk : isFloat kind = true) (p : Config.Params) (dims : BitVec 2) (maxbits : BitVec 16)
    (blockIdx : BitVec 32) (space : List Word) (w : Worker) :
    (completedWorker p kind dims maxbits blockIdx space w).e = commandExponent p kind (operandBlock kind (blockSize dims) space) ∧
      (completedWorker p kind dims maxbits blockIdx space w).emax = maxExponent kind (operandBlock kind (blockSize dims) space) := by
  simp only [completedWorker, hk, if_true]
  split <;> exact ⟨rfl, rfl⟩

theorem sum_length_calls (calls : List Call) : (calls.map Call.length).sum = (calls.flatMap Call.written).length := by
  simp [List.length_flatMap, Call.length_written]

/-- A completed command has counted the bits it wrote (R176). -/
theorem completedWorker_currentBit (p : Config.Params) (kind : Kind) (dims : BitVec 2) (maxbits : BitVec 16) (blockIdx : BitVec 32)
    (space : List Word) (w : Worker) :
    (completedWorker p kind dims maxbits blockIdx space w).cursor.currentBit =
      (commandBits p kind dims maxbits.toNat (operandBlock kind (blockSize dims) space)).length := by
  rw [completedWorker_cursor, cursorAfter_eq, sum_length_calls]
  simp [Cursor.construct, commandBits]

/-- The port's worker in the state a completed command leaves. -/
theorem getElem?_completedState {s : State} {w : Worker} (hw : Accepts s w) (kind : Kind) (dims : BitVec 2) (maxbits : BitVec 16)
    (blockIdx : BitVec 32) :
    (completedState kind dims maxbits blockIdx w s).workers[s.port.worker]? =
      some (completedWorker s.params kind dims maxbits blockIdx s.port.block w) :=
  State.setWorker_getElem?_self _ hw.1

theorem workerDone_completedState {s : State} {w : Worker} (hw : Accepts s w) (kind : Kind) (dims : BitVec 2) (maxbits : BitVec 16)
    (blockIdx : BitVec 32) : WorkerDone (completedState kind dims maxbits blockIdx w s) s.port.worker :=
  ⟨_, getElem?_completedState hw .., completedWorker_idle ..⟩

/-! ### Blocks of zeros -/

theorem magnitudeField_lowBits {kind : Kind} (hk : isFloat kind = true) (c : Word) :
    magnitudeField kind (lowBits (width kind) c) = magnitudeField kind c := by
  have hc := c.isLt
  cases kind <;> simp_all [isFloat, magnitudeField, lowBits, width]

theorem operandBlock_ne_nil (kind : Kind) (dims : BitVec 2) (space : List Word) : operandBlock kind (blockSize dims) space ≠ [] := by
  refine List.ne_nil_of_length_pos ?_
  rw [length_operandBlock, blockSize]
  positivity

/-- `max_exponent` of a block of zeros of either sign (R124). -/
theorem maxExponent_of_zeros {kind : Kind} (hk : isFloat kind = true) {block : List Word} (hne : block ≠ [])
    (h : ∀ p ∈ block, magnitudeField kind p = 0) : maxExponent kind block = -ebias kind := by
  obtain ⟨p, hp, hmax⟩ := exists_largest_magnitudeField kind hne
  rw [maxExponent_of_largest hk hp hmax, exponentOf_of_zero hk (h p hp)]

/-- A block of zeros is dropped, whatever the parameters (R208 (b)). -/
theorem commandExponent_of_zeros {kind : Kind} (hk : isFloat kind = true) (p : Config.Params) {block : List Word} (hne : block ≠ [])
    (h : ∀ q ∈ block, magnitudeField kind q = 0) : commandExponent p kind block = 0 := by
  rw [commandExponent, biasedExponent, maxExponent_of_zeros hk hne h, neg_add_cancel, Int.toNat_zero, ite_self]

/-- Zeros are finite (R86). -/
theorem isFiniteBlock_of_zeros {kind : Kind} (hk : isFloat kind = true) {block : List Word}
    (h : ∀ q ∈ block, magnitudeField kind q = 0) : isFiniteBlock kind block = true := by
  refine List.all_eq_true.mpr fun q hq => ?_
  obtain ⟨hE, -⟩ := (magnitudeField_eq_zero_iff hk q).mp (h q hq)
  rw [isFiniteScalar, hE]
  cases kind <;> simp_all [isFloat, ebits]

theorem commandEvents_of_dropped {kind : Kind} (hk : isFloat kind = true) {p : Config.Params} {block : List Word}
    (h : commandExponent p kind block = 0) (dims : BitVec 2) (maxbits : BitVec 16) (blockIdx : BitVec 32) :
    commandEvents p kind dims maxbits blockIdx block = [] := by
  rw [commandEvents, commandCalls_of_zero hk h]
  rfl

end Sys2Proof.Machine

namespace Sys2Proof

open Machine

/-- Settles O6: the three commands are those of one run, with `e = 0` or the header first. -/
theorem encF32CommandsCompleteAsListed : Obligations.EncF32CommandsCompleteAsListed :=
  fun _ _ => ⟨completesAsListed _, completesAsListed _, completesAsListed _⟩

/-- Settles O7: the three commands are those of one run, with `e = 0` or the header first. -/
theorem encF64CommandsCompleteAsListed : Obligations.EncF64CommandsCompleteAsListed :=
  fun _ _ => ⟨completesAsListed _, completesAsListed _, completesAsListed _⟩

/-- Settles O8: the three commands are those of one run, which takes its integers from the block as it stands. -/
theorem encI32CommandsCompleteAsListed : Obligations.EncI32CommandsCompleteAsListed :=
  fun _ _ => ⟨completesAsListed _, completesAsListed _, completesAsListed _⟩

/-- Settles O9: the three commands are those of one run, which takes its integers from the block as it stands. -/
theorem encI64CommandsCompleteAsListed : Obligations.EncI64CommandsCompleteAsListed :=
  fun _ _ => ⟨completesAsListed _, completesAsListed _, completesAsListed _⟩

/-- Settles O13: the run of the loaded worker makes its events up to the first one out of range, and touches no other worker. -/
theorem stuckCommandKeepsItsEarlierEvents : Obligations.StuckCommandKeepsItsEarlierEvents := by
  intro i s w hw hf
  obtain ⟨t, w', made, left, hexec, rfl, hsplit, hrange, hend, hstuck⟩ := exec_spec hw hf
  have hself : ((s.setWorker s.port.worker w').setStream (orEvents s.stream made)).workers[s.port.worker]? = some w' :=
    State.setWorker_getElem?_self w' hw.1
  refine ⟨_, made, left, hexec, hsplit, hrange, rfl, fun hnil => ⟨w', hself, hend hnil⟩, rfl, rfl, rfl, rfl,
    fun l hl => List.getElem?_set_ne hl.symm, fun ev hev => ?_⟩
  obtain ⟨haddr, hat, hdone, hhead⟩ := hstuck ev hev
  exact ⟨haddr, w', hself, hat, hdone, hhead⟩

/-- Settles O16: the events set the bits the command writes, no more than `maxbits` from the region's first bit on. -/
theorem eventsOfACommandStayInItsRegion : Obligations.EventsOfACommandStayInItsRegion := by
  intro p kind dims maxbits blockIdx block
  refine ⟨fun ev hev q hq => inRegion_of_someSets ⟨ev, hev, hq⟩, ?_⟩
  intro kind' dims' maxbits' blockIdx' block' hdisjoint ev hev ev' hev' q ⟨hq, hq'⟩
  exact hdisjoint q ⟨inRegion_of_someSets ⟨ev, hev, hq⟩, inRegion_of_someSets ⟨ev', hev', hq'⟩⟩

/-- Settles O15: the stream is the old one ORed with some of the command's events, and those set bits of the region only. -/
theorem commandSetsOnlyBitsOfItsRegion : Obligations.CommandSetsOnlyBitsOfItsRegion := by
  intro i s t hwf hexec
  obtain ⟨w, hw, hf⟩ := accepts_of_exec_next hexec
  obtain ⟨u, w', made, left, hexec', rfl, hsplit, -⟩ := exec_spec hw hf
  obtain rfl := Host.Outcome.next.inj (hexec.symm.trans hexec')
  have hregion : ∀ q, SomeSets made q → InRegion i.maxbits.toNat i.blockIdx.toNat q := fun q hq =>
    inRegion_of_someSets (show SomeSets (s.eventsOf i) q from hsplit ▸ hq.append_right left)
  have hbits : ∀ q, (orEvents s.stream made).globalBit q ≠ s.stream.globalBit q →
      InRegion i.maxbits.toNat i.blockIdx.toNat q ∧ s.stream.globalBit q = false := fun q hq => by
    have hiff := globalBit_orEvents_iff hwf made q
    cases hold : s.stream.globalBit q with
    | true => exact absurd ((hiff.mpr (.inl hold)).trans hold.symm) hq
    | false =>
      rw [hold, Bool.ne_false_iff, hiff, hold] at hq
      exact ⟨hregion q (hq.resolve_left Bool.false_ne_true), rfl⟩
  refine ⟨hbits, fun a ha => BitVec.eq_of_getLsbD_eq fun r hr => ?_⟩
  rw [Memory.getLsbD_readByte_eq_globalBit _ _ hr, Memory.getLsbD_readByte_eq_globalBit _ _ hr]
  by_contra hne
  exact not_inRegion_of_byteOutside ha hr (hbits _ hne).1

/-- Settles O18: without a budget the listing has no event, so every event is in range whatever the stream's size. -/
theorem zeroBudgetCommandWritesNothing : Obligations.ZeroBudgetCommandWritesNothing := by
  intro i s w hzero hw hf
  have hnone : s.eventsOf i = [] := by rw [State.eventsOf, hzero, commandEvents_of_no_budget]
  refine ⟨_, exec_eq_completedState hw hf (by simp [hnone]), ?_, workerDone_completedState hw .., fun w' hw' => ?_⟩
  · exact congrArg (orEvents s.stream) hnone
  · rw [getElem?_completedState hw] at hw'
    rw [← Option.some.inj hw', completedWorker_currentBit]
    exact Nat.le_zero.mp ((length_commandBits_le ..).trans_eq (by simp [hzero]))

/-- Settles O19: the exponent of a block of zeros is `-EBIAS`, so `e` is 0 and the block is dropped. -/
theorem zeroFloatBlockWritesNothing : Obligations.ZeroFloatBlockWritesNothing := by
  intro i s w hk hw hzeros
  have hblock : ∀ q ∈ operandBlock i.kind (blockSize i.dims) s.port.block, magnitudeField i.kind q = 0 := fun q hq => by
    obtain ⟨j, hj, rfl⟩ := mem_operandBlock.mp hq
    rw [magnitudeField_lowBits hk, hzeros j hj]
  have he := commandExponent_of_zeros hk s.params (operandBlock_ne_nil _ _ _) hblock
  have hnone : s.eventsOf i = [] := commandEvents_of_dropped hk he ..
  refine ⟨_, exec_eq_completedState hw (fun _ => isFiniteBlock_of_zeros hk hblock) (by simp [hnone]), ?_,
    workerDone_completedState hw .., fun w' hw' => ?_⟩
  · exact congrArg (orEvents s.stream) hnone
  · rw [getElem?_completedState hw] at hw'
    obtain ⟨hwe, hwemax⟩ := completedWorker_float hk s.params i.dims i.maxbits i.blockIdx s.port.block w
    rw [← Option.some.inj hw', completedWorker_currentBit, hwe, hwemax, commandBits, commandCalls_of_zero hk he]
    exact ⟨rfl, he, maxExponent_of_zeros hk (operandBlock_ne_nil _ _ _) hblock⟩

/-- Settles O21: the first command has completed, since its worker took another, so all its bits are set; the second one sets some of
the same bits. -/
theorem repeatingACommandChangesNothing : Obligations.RepeatingACommandChangesNothing := by
  intro i s t u hwf hfirst hsecond
  obtain ⟨w, hw, hf⟩ := accepts_of_exec_next hfirst
  obtain ⟨w₂, hw₂, hf₂⟩ := accepts_of_exec_next hsecond
  obtain ⟨t', w', made, left, hexec, rfl, hsplit, -, -, hstuck⟩ := exec_spec hw hf
  obtain rfl := Host.Outcome.next.inj (hfirst.symm.trans hexec)
  obtain ⟨u', w₂', made₂, left₂, hexec₂, rfl, hsplit₂, -⟩ := exec_spec hw₂ hf₂
  obtain rfl := Host.Outcome.next.inj (hsecond.symm.trans hexec₂)
  have hself : w' = w₂ := Option.some.inj ((State.setWorker_getElem?_self w' hw.1).symm.trans hw₂.1)
  have hnil : left = [] := List.head?_eq_none_iff.mp <| Option.eq_none_iff_forall_not_mem.mpr fun ev hev => by
    obtain ⟨-, ⟨hbusy, -⟩, -⟩ := hstuck ev hev
    exact Bool.false_ne_true (hw₂.2.symm.trans (hself ▸ hbusy))
  rw [hnil, List.append_nil] at hsplit
  refine orEvents_eq_self (orEvents_wf hwf made) fun q hq => (globalBit_orEvents_iff hwf made q).mpr (.inr ?_)
  have hsame : s.eventsOf i = made₂ ++ left₂ := hsplit₂
  rw [← hsplit, hsame]
  exact hq.append_right left₂

end Sys2Proof

/-! A command in small steps (R20, R61): the moves of one worker alone make its run, at most one for each event and one for each action
of the sequencer; and whatever the workers' moves are, they neither lose nor add a bit. -/

namespace Sys2Proof.Machine

/-! ### Moves of one worker -/

/-- Small steps of a worker, one after the other; one that has no step stays as it is (R20, log 7). -/
def Worker.smallSteps (p : Config.Params) : Nat → Worker → Memory → Worker × Memory
  | 0, w, m => (w, m)
  | k + 1, w, m =>
    match w.smallStep p m with
    | some r => Worker.smallSteps p k r.1 r.2
    | none => (w, m)

theorem Worker.smallSteps_succ_of_some {p : Config.Params} {k : Nat} {w w' : Worker} {m m' : Memory}
    (h : w.smallStep p m = some (w', m')) : w.smallSteps p (k + 1) m = w'.smallSteps p k m' := by
  rw [Worker.smallSteps, h]

theorem Worker.smallSteps_of_none {p : Config.Params} (k : Nat) {w : Worker} {m : Memory} (h : w.smallStep p m = none) :
    w.smallSteps p k m = (w, m) := by
  cases k <;> simp [Worker.smallSteps, h]

/-- The first pending events, all in range, are performed in as many steps (R54). -/
theorem Worker.smallSteps_perform {p : Config.Params} {made left : List Event} {w : Worker} (hb : w.phase ≠ .idle)
    (hp : w.pending = made ++ left) (hrange : ∀ ev ∈ made, ev.addr < p.streamWords) (k : Nat) (m : Memory) :
    w.smallSteps p (made.length + k) m = Worker.smallSteps p k { w with pending := left } (orEvents m made) := by
  induction made generalizing w m with
  | nil =>
    have hsame : { w with pending := left } = w := by rw [← List.nil_append left, ← hp]
    rw [hsame, List.length_nil, Nat.zero_add]
    rfl
  | cons ev made ih =>
    obtain ⟨hev, hmade⟩ := List.forall_mem_cons.mp hrange
    have hstep : w.smallStep p m = some ({ w with pending := made ++ left }, m.atomicOr ev) := by
      rw [Worker.smallStep, if_pos ((Worker.busy_iff w).mpr hb), hp]
      exact if_pos hev
    rw [List.length_cons, Nat.add_right_comm, Worker.smallSteps_succ_of_some hstep,
      ih (w := { w with pending := made ++ left }) hb rfl hmade, orEvents_cons]

/-- A worker's run is made by its small steps, at most one for each action of the sequencer and one for each event it owes. -/
theorem Worker.exists_smallSteps_eq_run (p : Config.Params) (fuel : Nat) (w : Worker) (m : Memory) :
    ∃ k ≤ fuel + (w.futureEvents p fuel).length, w.smallSteps p k m = w.run p fuel m := by
  induction fuel generalizing w m with
  | zero => exact ⟨0, Nat.zero_le _, rfl⟩
  | succ fuel ih =>
    by_cases hb : w.phase = .idle
    · exact ⟨0, Nat.zero_le _, by rw [Worker.run_idle ((Worker.not_busy_iff w).mpr hb)]; rfl⟩
    · have hbusy := (Worker.busy_iff w).mpr hb
      obtain ⟨made, hsplit, hmem, hrange, -⟩ := performEvents_spec p.streamWords w.pending m
      have hperform := Worker.smallSteps_perform hb hsplit hrange
      rw [Worker.futureEvents_succ_of_busy hb, List.length_append]
      by_cases hleft : (performEvents p.streamWords w.pending m).2 = []
      · obtain ⟨k, hk, hrun⟩ := ih (Worker.advance p { w with pending := [] }) (orEvents m made)
        have hlen : w.pending.length = made.length := by rw [hsplit, hleft, List.append_nil]
        refine ⟨made.length + (k + 1), by omega, ?_⟩
        rw [hperform, hleft, Worker.smallSteps_succ_of_some (Worker.smallStep_of_no_pending (w := { w with pending := [] }) _ hb rfl),
          hrun, Worker.run_succ_of_inRange hbusy hleft, hmem]
      · have hlen : made.length ≤ w.pending.length := by rw [hsplit, List.length_append]; exact Nat.le_add_right _ _
        refine ⟨made.length + 0, by omega, ?_⟩
        rw [hperform, Worker.run_succ_of_stuck hbusy hleft, hmem]
        rfl

theorem State.setWorker_self {s : State} {i : Nat} {w : Worker} (hw : s.workers[i]? = some w) : s.setWorker i w = s := by
  obtain ⟨hi, rfl⟩ := List.getElem?_eq_some_iff.mp hw
  simp [State.setWorker]

/-- The move of a worker that has a step. -/
theorem moveWorker_of_smallStep {s : State} {i : Nat} {w w' : Worker} {m : Memory} (hw : s.workers[i]? = some w)
    (h : w.smallStep s.params s.stream = some (w', m)) : moveWorker i s = .next ((s.setWorker i w').setStream m) := by
  rw [moveWorker, if_pos (List.getElem?_eq_some_iff.mp hw).1, State.workerStep_of_smallStep hw h]

/-- The move of a worker that has none (R243, log 7). -/
theorem moveWorker_of_no_smallStep {s : State} {i : Nat} {w : Worker} (hw : s.workers[i]? = some w)
    (h : w.smallStep s.params s.stream = none) : moveWorker i s = .next s := by
  have hnone : s.workerStep i = none := by simp [State.workerStep, hw, h]
  rw [moveWorker, if_pos (List.getElem?_eq_some_iff.mp hw).1, hnone]

/-- A run whose first step has a next state runs on from it. -/
theorem coreRun_succ_of_next {s t : State} (n : Nat) (h : step s = .next t) :
    Sys2Proof.core.run (n + 1) s = Sys2Proof.core.run n t := by
  have hstep : Sys2Proof.core.step s = .next t := h
  simp only [Host.Core.run, hstep]

/-- A run whose first step is refused is refused. -/
theorem coreRun_succ_of_refused {s : State} {r : Refusal} (n : Nat) (h : step s = .refused r) :
    Sys2Proof.core.run (n + 1) s = .refused r := by
  have hstep : Sys2Proof.core.step s = .refused r := h
  simp only [Host.Core.run, hstep]

/-- Moves of one worker, and no other, make its small steps. -/
theorem run_workerMoves {s : State} {j : Nat} {w : Worker} (hw : s.workers[j]? = some w) (k : Nat) :
    Sys2Proof.core.run k (s.setAgenda (workerMoves j k)) =
      .next (((s.setWorker j (w.smallSteps s.params k s.stream).1).setStream (w.smallSteps s.params k s.stream).2).setAgenda []) := by
  induction k generalizing s w with
  | zero =>
    rw [Worker.smallSteps, State.setWorker_self hw]
    rfl
  | succ k ih =>
    have hstep : step (s.setAgenda (workerMoves j (k + 1))) = moveWorker j (s.setAgenda (workerMoves j k)) :=
      step_worker_cons (s := s.setAgenda (workerMoves j (k + 1))) rfl
    cases hsmall : w.smallStep s.params s.stream with
    | none =>
      have hmove := hstep.trans (moveWorker_of_no_smallStep (s := s.setAgenda (workerMoves j k)) hw hsmall)
      have hsame := ih hw
      rw [Worker.smallSteps_of_none k hsmall] at hsame
      rw [Worker.smallSteps_of_none (k + 1) hsmall]
      exact (coreRun_succ_of_next k hmove).trans hsame
    | some r =>
      have hmove := hstep.trans (moveWorker_of_smallStep (s := s.setAgenda (workerMoves j k)) hw hsmall)
      have hnext := ih (s := (s.setWorker j r.1).setStream r.2) (State.setWorker_getElem?_self r.1 hw)
      have hset : ((s.setWorker j r.1).setStream r.2).setWorker j (r.1.smallSteps s.params k r.2).1 =
          (s.setWorker j (r.1.smallSteps s.params k r.2).1).setStream r.2 := by simp [State.setWorker, State.setStream]
      rw [Worker.smallSteps_succ_of_some hsmall]
      refine (coreRun_succ_of_next k hmove).trans (hnext.trans ?_)
      rw [State.setStream_params, State.setStream_stream, State.setWorker_params, hset]
      rfl

theorem length_workerMoves (j k : Nat) : (workerMoves j k).length = k := List.length_replicate

/-- The run of an agenda after its first step. -/
theorem runAgenda_cons_of_next {s t : State} {mv : Move} {rest : List Move} (h : step (s.setAgenda (mv :: rest)) = .next t) :
    runAgenda (s.setAgenda (mv :: rest)) = Sys2Proof.core.run rest.length t :=
  coreRun_succ_of_next rest.length h

theorem runAgenda_cons_of_refused {s : State} {mv : Move} {rest : List Move} {r : Refusal}
    (h : step (s.setAgenda (mv :: rest)) = .refused r) : runAgenda (s.setAgenda (mv :: rest)) = .refused r :=
  coreRun_succ_of_refused rest.length h

/-! ### Schedules -/

/-- In a state of the invariant the bound of `remaining` covers every worker (R29, log 24). -/
theorem Worker.Inv.actionsLeft_le {w : Worker} (hw : w.Inv) : w.actionsLeft ≤ sequencerBound := by
  by_cases h : w.phase = .planes
  · have hk := hw.fits.k
    rw [Worker.actionsLeft_of_planes h, sequencerBound]
    omega
  · exact Worker.actionsLeft_le h

/-- A state of the invariant of which the moves to come leave the stream to the workers. -/
theorem State.Inv.conserving_of_moves {s : State} (hs : s.Inv) (hmoves : ∀ mv ∈ s.agenda, mv.leavesStreamToWorkers = true) :
    s.Conserving := ⟨hs.canonical, fun w hw => (hs.workers w hw).actionsLeft_le, hmoves⟩

/-- A run of workers' moves issues no command. -/
theorem eventsOfRun_of_workers {s : State} (h : ∀ mv ∈ s.agenda, ∃ i, mv = .worker i) (n : Nat) (hn : n ≤ s.agenda.length) :
    eventsOfRun n s = [] := by
  induction n generalizing s with
  | zero => rfl
  | succ n ih =>
    cases hagenda : s.agenda with
    | nil => simp [hagenda] at hn
    | cons mv rest =>
      rw [hagenda] at h hn
      obtain ⟨⟨i, rfl⟩, hrest⟩ := List.forall_mem_cons.mp h
      rw [eventsOfRun, issuedEvents, hagenda, List.nil_append]
      cases hstep : step s with
      | fault r => rfl
      | refused r => rfl
      | next t =>
        rw [step_worker_cons hagenda] at hstep
        obtain ⟨-, -, hkeep, -⟩ := moveWorker_frame hstep
        rw [State.setAgenda_agenda] at hkeep
        exact ih (s := t) (by rwa [hkeep]) (by rw [hkeep]; exact Nat.le_of_succ_le_succ hn)

/-- After a schedule that brings every command to its end the stream has the bits that were set or owed before it (R62). -/
theorem globalBit_of_schedule {s t : State} {moves : List Move} (hs : s.Inv) (hmoves : IsSchedule s moves)
    (hrun : runAgenda (s.setAgenda moves) = .next t) (hidle : allIdle t.workers = true) :
    t.stream.wf = true ∧ ∀ p, t.stream.globalBit p = true ↔ s.WillSet p := by
  have hworkers : ∀ mv ∈ moves, ∃ i, mv = .worker i := fun mv hmv => by
    obtain ⟨i, -, rfl⟩ := hmoves mv hmv
    exact ⟨i, rfl⟩
  have hinv : (s.setAgenda moves).Inv := ⟨hs.canonical, hs.bounded, hs.port, hs.workers⟩
  have hconserving := hinv.conserving_of_moves fun mv hmv => by
    obtain ⟨i, rfl⟩ := hworkers mv hmv
    rfl
  have hadds := hconserving.adds_run hrun
  rw [eventsOfRun_of_workers hworkers _ le_rfl] at hadds
  refine ⟨hadds.conserving.canonical, fun p => ?_⟩
  rw [← State.willSet_of_allIdle hidle, hadds.bits, or_iff_left (not_someSets_nil p)]
  rfl

end Sys2Proof.Machine

namespace Sys2Proof

open Machine

/-- Settles O29: both streams have exactly the bits set or owed at the start, and are canonical. -/
theorem anyTwoSchedulesLeaveTheSameStream : Obligations.AnyTwoSchedulesLeaveTheSameStream := by
  intro s t₁ t₂ moves₁ moves₂ hs _ hmoves₁ hmoves₂ hrun₁ hrun₂ hidle₁ hidle₂
  obtain ⟨hwf₁, hbits₁⟩ := globalBit_of_schedule hs hmoves₁ hrun₁ hidle₁
  obtain ⟨hwf₂, hbits₂⟩ := globalBit_of_schedule hs hmoves₂ hrun₂ hidle₂
  exact Memory.ext_of_globalBit hwf₁ hwf₂ fun p => (hbits₁ p).trans (hbits₂ p).symm

/-- Settles O30: after the issue the worker's small steps make its run; where the issue is refused no move is needed. -/
theorem wholeCommandIsIssueThenWorkerMoves : Obligations.WholeCommandIsIssueThenWorkerMoves := by
  intro i s
  obtain ⟨t, hissue⟩ | hissue | hissue | hissue := issueCommand_cases i.kind i.dims i.maxbits i.blockIdx (s.setAgenda [])
  · obtain ⟨w, hw, hf, -⟩ := issueCommand_next hissue
    obtain ⟨k, -, hk⟩ := Worker.exists_smallSteps_eq_run s.params sequencerBound (s.loaded i w) s.stream
    have hstep := (step_issue_encode i s (workerMoves s.port.worker k)).trans
      (issueCommand_of_accepts (s := s.setAgenda (workerMoves s.port.worker k)) hw hf)
    have hrun := run_workerMoves (s := s.setWorker s.port.worker (s.loaded i w)) (State.setWorker_getElem?_self _ hw.1) k
    refine ⟨k, ?_⟩
    rw [runAgenda_cons_of_next hstep, length_workerMoves, exec_of_accepts hw hf]
    refine hrun.trans ?_
    rw [State.setWorker_setWorker, State.setWorker_params, State.setWorker_stream, hk]
    rfl
  all_goals
    refine ⟨0, ?_⟩
    rw [exec_of_issueCommand_refused hissue]
    exact runAgenda_cons_of_refused ((step_issue_encode i s []).trans hissue)

/-- Settles O31: the worker's run, all its events in range, ends with the command completed; its small steps make that run. -/
theorem commandInFlightCompletes : Obligations.CommandInFlightCompletes := by
  intro s j w hs hw hb hrange
  have hle := (hs.workers w (List.mem_of_getElem? hw)).actionsLeft_le
  obtain ⟨k, hk, hsteps⟩ := Worker.exists_smallSteps_eq_run s.params sequencerBound w s.stream
  have hrun := run_workerMoves hw k
  rw [hsteps, Worker.run_of_inRange s.stream hle hrange] at hrun
  refine ⟨k, _, hk, Eq.trans ?_ hrun, ⟨_, State.setWorker_getElem?_self _ hw, Worker.finish_done ((Worker.busy_iff w).mp hb) hle⟩, rfl⟩
  rw [runAgenda, State.setAgenda_agenda, length_workerMoves]

end Sys2Proof

/-! The invariant (R20, R29, R34, R165, R175): each action of the sequencer keeps it for its worker, an event keeps the stream's form, and
so every move of every agent keeps it for the machine. -/

namespace Sys2Proof.Machine

/-! ### The stream stays in its form -/

/-- The stream is canonical and lists no byte outside its words (R36). -/
structure Memory.Sound (m : Memory) (streamWords : Nat) : Prop where
  canonical : m.wf = true
  bounded : ∀ c ∈ m, c.1 < 8 * streamWords

theorem Memory.mem_orBytes {m : Memory} {a n : Nat} {v : Word} {c : Host.Cell} (h : c ∈ m.orBytes a v n) :
    c ∈ m ∨ c.1 < 8 * a + n := by
  induction n with
  | zero => exact .inl h
  | succ n ih =>
    obtain rfl | h := Memory.mem_writeByte h
    · exact .inr (Nat.lt_succ_self _)
    · exact (ih h).imp_right fun hlt => hlt.trans (Nat.lt_succ_self _)

/-- An event in range keeps the stream's form (R54, R56). -/
theorem Memory.Sound.atomicOr {m : Memory} {streamWords : Nat} (h : m.Sound streamWords) {ev : Event} (hev : ev.addr < streamWords) :
    (m.atomicOr ev).Sound streamWords where
  canonical := Memory.atomicOr_wf h.canonical ev
  bounded c hc := by
    obtain hc | hlt := Memory.mem_orBytes hc
    · exact h.bounded c hc
    · omega

theorem Memory.Sound.orEvents {m : Memory} {streamWords : Nat} (h : m.Sound streamWords) {evs : List Event}
    (hevs : ∀ ev ∈ evs, ev.addr < streamWords) : (orEvents m evs).Sound streamWords :=
  List.foldlRecOn evs _ (motive := fun m => Memory.Sound m streamWords) h fun _ hm ev hev => hm.atomicOr (hevs ev hev)

theorem Memory.Sound.zeroWords {m : Memory} {streamWords : Nat} (h : m.Sound streamWords) (n : Nat) :
    (m.zeroWords n).Sound streamWords :=
  ⟨Memory.zeroWords_wf h.canonical n, fun c hc => h.bounded c (Memory.mem_zeroWords.mp hc).1⟩

/-! ### Ranges of the registers -/

/-- A block's cells written over a register file keep its length (R26). -/
theorem length_rewriteFile_eq {new old : List Word} (hnew : new.length ≤ 64) (hold : old.length = Config.fileCells) :
    (rewriteFile new old).length = Config.fileCells := by
  rw [length_rewriteFile, hold, Config.fileCells]
  omega

theorem headerBits_le (kind : Kind) (maxbits : Nat) : headerBits kind maxbits ≤ maxbits := by
  rw [headerBits]
  split
  · exact Nat.min_le_right _ _
  · exact Nat.zero_le _

theorem headerBits_le_word (kind : Kind) (maxbits : Nat) : headerBits kind maxbits ≤ 64 := by
  cases kind <;> simp [headerBits, isFloat, ebits]

/-- `emax` of a finite block fits its register (R27, R123). -/
theorem maxExponent_range {kind : Kind} (hk : isFloat kind = true) {block : List Word} (hne : block ≠ [])
    (hf : isFiniteBlock kind block = true) : -1023 ≤ maxExponent kind block ∧ maxExponent kind block ≤ 1024 := by
  obtain ⟨q, hq, hmax⟩ := exists_largest_magnitudeField kind hne
  have hrange := exponentOf_range hk (List.all_eq_true.mp hf q hq)
  have hbias : 0 ≤ ebias kind ∧ ebias kind ≤ 1023 := by cases kind <;> decide
  rw [maxExponent_of_largest hk hq hmax]
  omega

/-- `e` of a finite block fits its register (R27, R123). -/
theorem commandExponent_le {kind : Kind} (hk : isFloat kind = true) (p : Config.Params) {block : List Word}
    (hf : isFiniteBlock kind block = true) : commandExponent p kind block ≤ 2047 := by
  by_cases he : commandExponent p kind block = 0
  · omega
  · have hlt := maxExponent_lt_of_finite hk hf
    have heq := commandExponent_eq_of_ne_zero he
    have hpow : (2 : Int) ^ ebits kind ≤ 2048 := by cases kind <;> decide
    omega

theorem maxPrecision_le (p : Config.Params) (kind : Kind) (emax : Int) : maxPrecision p kind emax ≤ 64 :=
  (Nat.min_le_left _ _).trans (width_le kind)

/-! ### The plane register -/

theorem writeBitsRest_le (x : Word) (n : Nat) : (writeBitsRest x n).toNat ≤ x.toNat := by
  rw [writeBitsRest]
  split
  · exact Nat.zero_le _
  · rw [BitVec.toNat_ushiftRight, Nat.shiftRight_eq_div_pow]
    exact Nat.div_le_self _ _

theorem Coder.stepOver_x_le (c : Coder) : c.stepOver.x.toNat ≤ c.x.toNat := by
  rw [Coder.stepOver_x, BitVec.toNat_ushiftRight, Nat.shiftRight_eq_div_pow]
  exact Nat.div_le_self _ _

/-- The loops only shift the plane register down (R189). -/
theorem unaryLoop_x_le (size fuel : Nat) (c : Coder) : (unaryLoop size fuel c).1.x.toNat ≤ c.x.toNat := by
  induction fuel generalizing c with
  | zero => exact le_rfl
  | succ fuel ih =>
    rw [unaryLoop]
    split_ifs
    · exact le_rfl
    · exact (ih c.spend.stepOver).trans c.spend.stepOver_x_le
    · exact le_rfl

theorem groupLoop_x_le (size fuel : Nat) (c : Coder) : (groupLoop size fuel c).1.x.toNat ≤ c.x.toNat := by
  induction fuel generalizing c with
  | zero => exact le_rfl
  | succ fuel ih =>
    rw [groupLoop]
    split_ifs
    · exact le_rfl
    · exact ((ih _).trans (Coder.stepOver_x_le _)).trans (unaryLoop_x_le size size c.spend)
    · exact le_rfl

theorem planeNumber_lt (k : Nat) (us : List Word) : planeNumber k us < 2 ^ us.length := by
  induction us with
  | nil => simp [planeNumber]
  | cons u us ih =>
    have hbit := (u.getLsbD k).toNat_lt
    rw [planeNumber, List.length_cons, pow_succ]
    omega

/-- The bits of the plane register at or above `BlockSize` are 0 after every plane (R29). -/
theorem codePlane_x_lt (size : Nat) (ublk : List Word) (r : PlaneRegs) : (codePlane size ublk r).1.x.toNat < 2 ^ size :=
  calc (codePlane size ublk r).1.x.toNat
      ≤ (r.coder size ublk).afterRaw.x.toNat := groupLoop_x_le size size _
    _ ≤ (planeWord size (r.k - 1) ublk).toNat := writeBitsRest_le _ _
    _ ≤ planeNumber (r.k - 1) (blockCells size ublk) := by
        rw [planeWord, BitVec.toNat_ofNat]
        exact Nat.mod_le _ _
    _ < 2 ^ size := (planeNumber_lt _ _).trans_eq (by rw [length_blockCells])

/-! ### The events of the writer -/

/-- The events of calls that stay within `maxbits` bits of their block lie in its region (R52, R175). -/
theorem inRegion_of_mem_callEvents {c : Cursor} {calls : List Call} {maxbits blockIdx : Nat} (hlen : ∀ call ∈ calls, call.length ≤ 64)
    (hplaced : 64 * c.wordIndex + c.startBit = blockIdx * maxbits) (hsum : c.currentBit + (calls.map Call.length).sum ≤ maxbits)
    {ev : Event} (hev : ev ∈ callEvents c calls) {q : Nat} (hq : ev.sets q = true) : InRegion maxbits blockIdx q := by
  obtain ⟨hfirst, hbit⟩ := (someSets_callEvents hlen c q).mp ⟨ev, hev, hq⟩
  have hpos : c.globalPos = blockIdx * maxbits + c.currentBit := by rw [Cursor.globalPos, Cursor.pos]; omega
  have hlt : q - c.globalPos < (calls.flatMap Call.written).length := by
    by_contra hge
    rw [List.getD_eq_default _ _ (by omega)] at hbit
    cases hbit
  rw [← sum_length_calls] at hlt
  rw [InRegion, Nat.add_mul]
  omega

/-! ### Each action of the sequencer keeps the invariant -/

/-- What no action of a command in flight changes: its descriptor registers, its block, the completion signal (R23, R24). -/
structure Worker.SameCommand (w w' : Worker) : Prop where
  kind : w'.kind = w.kind
  dims : w'.dims = w.dims
  maxbits : w'.maxbits = w.maxbits
  blockIdx : w'.blockIdx = w.blockIdx
  fblk : w'.fblk = w.fblk
  done : w'.done = w.done

/-- What is left to show after an action of a command in flight, the rest of the invariant being about what it does not change. -/
theorem Worker.Inv.of_sameCommand {w w' : Worker} (hw : w.Inv) (hb : w.busy = true) (hsame : w.SameCommand w') (hfits : w'.Fits)
    (hfloat : w'.phase = .exponent ∨ w'.phase = .header ∨ w'.phase = .cast → isFloat w'.kind = true)
    (hplaced : 64 * w'.cursor.wordIndex + w'.cursor.startBit = w'.blockIdx.toNat * w'.maxbits.toNat)
    (haccounted : w'.Accounted) (htail : w'.phase = .planes → w'.planes.x.toNat < 2 ^ blockSize w'.dims)
    (hquiet : w'.phase ≠ .header → w'.phase ≠ .planes → w'.pending = [])
    (hcontained : ∀ ev ∈ w'.pending, ∀ p, ev.sets p = true → InRegion w'.maxbits.toNat w'.blockIdx.toNat p) : w'.Inv where
  fits := hfits
  command _ := by rw [hsame.dims]; exact hw.command hb
  unsignalled _ := by rw [hsame.done]; exact hw.unsignalled hb
  finite _ := by rw [hsame.kind, hsame.dims, hsame.fblk]; exact hw.finite hb
  floatPhase := hfloat
  placed _ _ := hplaced
  accounted := haccounted
  tail := htail
  quiet := hquiet
  contained := hcontained

/-- Performing pending events keeps the invariant of a worker. -/
theorem Worker.Inv.withPending {w : Worker} (hw : w.Inv) {evs : List Event} (hsub : ∀ ev ∈ evs, ev ∈ w.pending) :
    Worker.Inv { w with pending := evs } where
  fits := { hw.fits with }
  command := hw.command
  unsignalled := hw.unsignalled
  finite := hw.finite
  floatPhase := hw.floatPhase
  placed := hw.placed
  accounted := hw.accounted
  tail := hw.tail
  quiet hh hp := List.eq_nil_iff_forall_not_mem.mpr fun ev hev => by
    have hmem := hsub ev hev
    rw [hw.quiet hh hp] at hmem
    cases hmem
  contained ev hev := hw.contained ev (hsub ev hev)

/-- Construction places the cursor at the first bit of the block (R165). -/
theorem construct_placed (w : Worker) :
    64 * (Cursor.construct w.blockIdx.toNat w.maxbits.toNat).wordIndex + (Cursor.construct w.blockIdx.toNat w.maxbits.toNat).startBit =
      w.blockIdx.toNat * w.maxbits.toNat := Nat.div_add_mod _ 64

/-- `SETUP` keeps the invariant: construction places the cursor within its registers (R165). -/
theorem Worker.Inv.after_setup {w : Worker} (hw : w.Inv) (h : w.phase = .setup) (hp : w.pending = []) : (setupPhase w).Inv := by
  have hb : w.busy = true := by simp [h]
  have hword : w.blockIdx.toNat * w.maxbits.toNat / 64 < 2 ^ 42 :=
    Nat.div_lt_of_lt_mul (blockIdx_mul_maxbits_lt w.blockIdx w.maxbits)
  have hstart : w.blockIdx.toNat * w.maxbits.toNat % 64 < 64 := Nat.mod_lt _ (by norm_num)
  cases hk : isFloat w.kind with
  | true =>
    rw [setupPhase_of_float hk]
    exact hw.of_sameCommand hb ⟨rfl, rfl, rfl, rfl, rfl, rfl⟩
      { hw.fits with wordIndex := hword, startBit := hstart, currentBit := by simp [Cursor.construct] } (fun _ => hk)
      (construct_placed w) rfl nofun (fun _ _ => hp) (by simp [hp])
  | false =>
    rw [setupPhase_of_not_float hk]
    exact hw.of_sameCommand hb ⟨rfl, rfl, rfl, rfl, rfl, rfl⟩
      { hw.fits with
        wordIndex := hword, startBit := hstart, currentBit := by simp [Cursor.construct]
        iblk := length_rewriteFile_eq (by simp [blockSize_le]) hw.fits.iblk, maxprec := width_le w.kind } (by simp)
      (construct_placed w) (by simp [Worker.Accounted, Cursor.construct, headerBits, hk]) nofun (fun _ _ => hp) (by simp [hp])

theorem blockCells_ne_nil (dims : BitVec 2) (l : List Word) : blockCells (blockSize dims) l ≠ [] := by
  refine List.ne_nil_of_length_pos ?_
  rw [length_blockCells, blockSize]
  positivity

/-- The exponent unit's registers fit (R27, R123). -/
theorem Worker.Inv.measured_fits {w : Worker} (hw : w.Inv) (hb : w.busy = true) (hk : isFloat w.kind = true) (p : Config.Params) :
    (w.measured p).Fits :=
  { hw.fits with
    emax := maxExponent_range hk (blockCells_ne_nil w.dims w.fblk) (hw.finite hb hk)
    maxprec := maxPrecision_le p w.kind _
    e := commandExponent_le hk p (hw.finite hb hk) }

/-- `EXPONENT` keeps the invariant: the header, where there is one, is of at most `maxbits` bits (R205, R206). -/
theorem Worker.Inv.after_exponent {w : Worker} (hw : w.Inv) (h : w.phase = .exponent) (hp : w.pending = []) (p : Config.Params) :
    (exponentPhase p w).Inv := by
  have hb : w.busy = true := by simp [h]
  have hk : isFloat w.kind = true := hw.floatPhase (.inl h)
  have hplaced := hw.placed hb (by simp [h])
  have hzero : w.cursor.currentBit = 0 := by simpa [Worker.Accounted, h] using hw.accounted
  have hfits := hw.measured_fits hb hk p
  by_cases he : commandExponent p w.kind (blockCells (blockSize w.dims) w.fblk) = 0
  · rw [exponentPhase_of_zero he]
    exact hw.of_sameCommand hb ⟨rfl, rfl, rfl, rfl, rfl, rfl⟩ { hfits with } (fun _ => hk) hplaced
      (hzero.trans_le (Nat.zero_le _)) nofun (fun _ _ => hp) (by simp [Worker.measured, hp])
  · have hbits : cursorAfter w.cursor [headerCall w.kind w.maxbits.toNat
        (commandExponent p w.kind (blockCells (blockSize w.dims) w.fblk))] = w.cursor.forward (headerBits w.kind w.maxbits.toNat) := rfl
    have hle := headerBits_le w.kind w.maxbits.toNat
    have hmax := w.maxbits.isLt
    rw [exponentPhase_of_ne_zero he]
    refine hw.of_sameCommand hb ⟨rfl, rfl, rfl, rfl, rfl, rfl⟩ { hfits with currentBit := ?_ } (fun _ => hk) hplaced
      ?_ nofun (fun hne => absurd rfl hne) fun ev hev q hq => ?_
    · show w.cursor.currentBit + headerBits w.kind w.maxbits.toNat < 2 ^ 17
      omega
    · show w.cursor.currentBit + headerBits w.kind w.maxbits.toNat = headerBits w.kind w.maxbits.toNat
      omega
    · have hev' : ev ∈ callEvents w.cursor [headerCall w.kind w.maxbits.toNat
          (commandExponent p w.kind (blockCells (blockSize w.dims) w.fblk))] := by simpa [Worker.measured, hp] using hev
      refine inRegion_of_mem_callEvents ?_ hplaced ?_ hev' hq
      · simpa [headerCall, Call.length] using headerBits_le_word w.kind w.maxbits.toNat
      · simpa [headerCall, Call.length, hzero] using hle

/-- `HEADER`, its events performed, `CAST`, `XFORM`: the cursor stands still (R206). -/
theorem Worker.Inv.after_header {w : Worker} (hw : w.Inv) (h : w.phase = .header) (hp : w.pending = []) : (w.enter .cast).Inv := by
  have hb : w.busy = true := by simp [h]
  have haccounted : w.cursor.currentBit = headerBits w.kind w.maxbits.toNat := by simpa [Worker.Accounted, h] using hw.accounted
  exact hw.of_sameCommand hb ⟨rfl, rfl, rfl, rfl, rfl, rfl⟩ { hw.fits with } (fun _ => hw.floatPhase (.inr (.inl h)))
    (hw.placed hb (by simp [h])) haccounted nofun (fun _ _ => hp) (by simp [hp])

theorem Worker.Inv.after_cast {w : Worker} (hw : w.Inv) (h : w.phase = .cast) (hp : w.pending = []) : (castPhase w).Inv := by
  have hb : w.busy = true := by simp [h]
  have haccounted : w.cursor.currentBit = headerBits w.kind w.maxbits.toNat := by simpa [Worker.Accounted, h] using hw.accounted
  exact hw.of_sameCommand hb ⟨rfl, rfl, rfl, rfl, rfl, rfl⟩
    { hw.fits with iblk := length_rewriteFile_eq (by simp [blockSize_le]) hw.fits.iblk } (by simp [castPhase])
    (hw.placed hb (by simp [h])) haccounted nofun (fun _ _ => hp) (by simp [castPhase, hp])

theorem Worker.Inv.after_xform {w : Worker} (hw : w.Inv) (h : w.phase = .xform) (hp : w.pending = []) : (xformPhase w).Inv := by
  have hb : w.busy = true := by simp [h]
  have haccounted : w.cursor.currentBit = headerBits w.kind w.maxbits.toNat := by simpa [Worker.Accounted, h] using hw.accounted
  exact hw.of_sameCommand hb ⟨rfl, rfl, rfl, rfl, rfl, rfl⟩
    { hw.fits with iblk := length_rewriteFile_eq (by simp [blockSize_le]) hw.fits.iblk } (by simp [xformPhase])
    (hw.placed hb (by simp [h])) haccounted nofun (fun _ _ => hp) (by simp [xformPhase, hp])

/-- `ORDER` keeps the invariant: what the header has left of `maxbits` is the budget (R185, R206). -/
theorem Worker.Inv.after_order {w : Worker} (hw : w.Inv) (h : w.phase = .order) (hp : w.pending = []) : (orderPhase w).Inv := by
  have hb : w.busy = true := by simp [h]
  have haccounted : w.cursor.currentBit = headerBits w.kind w.maxbits.toNat := by simpa [Worker.Accounted, h] using hw.accounted
  have hle := headerBits_le w.kind w.maxbits.toNat
  have hmax := w.maxbits.isLt
  have hwidth := width_le w.kind
  have hsize : (permutation w.dims.toNat).length ≤ 64 := (length_permutation_dims (hw.command hb)).trans_le (blockSize_le w.dims)
  refine hw.of_sameCommand hb ⟨rfl, rfl, rfl, rfl, rfl, rfl⟩
    { hw.fits with
      ublk := length_rewriteFile_eq (by simpa using hsize) hw.fits.ublk
      k := hwidth, kmin := (Nat.sub_le _ _).trans hwidth, n := Nat.zero_le _
      bits := (Nat.sub_le _ _).trans_lt hmax } (by simp [orderPhase])
    (hw.placed hb (by simp [h])) ?_ (fun _ => ?_) (fun _ _ => hp) (by simp [orderPhase, hp])
  · show w.cursor.currentBit + (w.maxbits.toNat - headerBits w.kind w.maxbits.toNat) ≤ w.maxbits.toNat
    omega
  · show (0#64).toNat < 2 ^ blockSize w.dims
    simp

/-- `PLANES` keeps the invariant: every bit a plane writes is paid for (R175, R192). -/
theorem Worker.Inv.after_planes {w : Worker} (hw : w.Inv) (h : w.phase = .planes) (hp : w.pending = []) : (planesPhase w).Inv := by
  have hb : w.busy = true := by simp [h]
  have hplaced := hw.placed hb (by simp [h])
  have haccounted : w.cursor.currentBit + w.planes.bits ≤ w.maxbits.toNat := by simpa [Worker.Accounted, h] using hw.accounted
  have hmax := w.maxbits.isLt
  cases hmore : w.planes.more with
  | false =>
    rw [planesPhase_of_not_more hmore]
    exact hw.of_sameCommand hb ⟨rfl, rfl, rfl, rfl, rfl, rfl⟩ { hw.fits with } (by simp) hplaced
      ((Nat.le_add_right _ _).trans haccounted) nofun (fun _ _ => hp) (by simp [hp])
  | true =>
    obtain ⟨hk, hkmin, -, hn, hbits⟩ := codePlane_counts (blockSize w.dims) w.ublk w.planes
    have hsize := blockSize_le w.dims
    have hfits := hw.fits
    have hcursor : (cursorAfter w.cursor (codePlane (blockSize w.dims) w.ublk w.planes).2).currentBit =
        w.cursor.currentBit + ((codePlane (blockSize w.dims) w.ublk w.planes).2.map Call.length).sum := by rw [cursorAfter_eq]
    have hword : (cursorAfter w.cursor (codePlane (blockSize w.dims) w.ublk w.planes).2).wordIndex = w.cursor.wordIndex ∧
        (cursorAfter w.cursor (codePlane (blockSize w.dims) w.ublk w.planes).2).startBit = w.cursor.startBit := by
      rw [cursorAfter_eq]; exact ⟨rfl, rfl⟩
    have hk64 := hfits.k
    have hn64 := hfits.n
    have hbits16 := hfits.bits
    rw [planesPhase_of_more hmore]
    refine hw.of_sameCommand hb ⟨rfl, rfl, rfl, rfl, rfl, rfl⟩
      { hfits with
        wordIndex := hword.1.trans_lt hfits.wordIndex, startBit := hword.2.trans_lt hfits.startBit
        currentBit := hcursor.trans_lt (by omega)
        k := hk.trans_le (by omega), kmin := hkmin.trans_le hfits.kmin, n := hn.trans (by omega)
        bits := (show (codePlane (blockSize w.dims) w.ublk w.planes).1.bits < 2 ^ 16 by omega) }
      (by simp [h]) ?_ ?_ (fun _ => codePlane_x_lt ..) (fun _ hne => absurd h hne) fun ev hev q hq => ?_
    · rw [Worker.callWriter_cursor, hword.1, hword.2]
      exact hplaced
    · rw [Worker.Accounted, Worker.callWriter_phase]
      dsimp only
      rw [h]
      dsimp only
      rw [Worker.callWriter_cursor, hcursor]
      show _ + (codePlane (blockSize w.dims) w.ublk w.planes).1.bits ≤ w.maxbits.toNat
      omega
    · have hev' : ev ∈ callEvents w.cursor (codePlane (blockSize w.dims) w.ublk w.planes).2 := by simpa [hp] using hev
      refine inRegion_of_mem_callEvents (fun call hcall => ?_) hplaced (by omega) hev' hq
      have hlen := length_of_mem_codePlane hcall
      omega

/-- `DONE` keeps the invariant: the worker is idle again (R35). -/
theorem Worker.Inv.after_done {w : Worker} (hw : w.Inv) (hp : w.pending = []) : w.signalDone.Inv where
  fits := { hw.fits with }
  command := nofun
  unsignalled := nofun
  finite := nofun
  floatPhase := by simp
  placed := nofun
  accounted := trivial
  tail := nofun
  quiet _ _ := hp
  contained := by simp [hp]

/-- Every action of the sequencer keeps the invariant (R34). -/
theorem Worker.Inv.advance {w : Worker} (hw : w.Inv) (hp : w.pending = []) (p : Config.Params) : (w.advance p).Inv := by
  cases h : w.phase with
  | idle => rwa [Worker.advance, h]
  | setup => rw [Worker.advance_setup h]; exact hw.after_setup h hp
  | exponent => rw [Worker.advance_exponent h]; exact hw.after_exponent h hp p
  | header => rw [Worker.advance_header h]; exact hw.after_header h hp
  | cast => rw [Worker.advance_cast h]; exact hw.after_cast h hp
  | xform => rw [Worker.advance_xform h]; exact hw.after_xform h hp
  | order => rw [Worker.advance_order h]; exact hw.after_order h hp
  | planes => rw [Worker.advance_planes h]; exact hw.after_planes h hp
  | done => rw [Worker.advance_done h]; exact hw.after_done hp

/-- The issue of a command with an acceptable block keeps the invariant (R82, R135). -/
theorem Worker.Inv.load {w : Worker} (hw : w.Inv) {kind : Kind} {dims : BitVec 2} (hd : dims ≠ 0) (maxbits : BitVec 16)
    (blockIdx : BitVec 32) {space : List Word}
    (hf : isFloat kind = true → isFiniteBlock kind (operandBlock kind (blockSize dims) space) = true) :
    (w.load kind dims maxbits blockIdx space).Inv where
  fits := { hw.fits with fblk := length_rewriteFile_eq (by simp [blockSize_le]) hw.fits.fblk }
  command _ := hd
  unsignalled _ := rfl
  finite _ hk := by
    rw [Worker.load_fblk, Worker.load_dims, blockCells_rewriteFile_of_length (length_operandBlock ..)]
    exact hf hk
  floatPhase := by simp
  placed _ hne := absurd rfl hne
  accounted := trivial
  tail := nofun
  quiet _ _ := rfl
  contained := by simp

/-- The registers of the reset state meet the invariant (R37, log 2). -/
theorem Worker.reset_inv : Worker.reset.Inv where
  fits := by constructor <;> decide
  command := nofun
  unsignalled := nofun
  finite := nofun
  floatPhase := by simp [Worker.reset]
  placed := nofun
  accounted := trivial
  tail := nofun
  quiet _ _ := rfl
  contained := by simp [Worker.reset]

/-! ### Every move keeps the invariant -/

theorem State.Inv.sound {s : State} (hs : s.Inv) : s.stream.Sound s.params.streamWords := ⟨hs.canonical, hs.bounded⟩

theorem State.Inv.worker {s : State} (hs : s.Inv) {i : Nat} {w : Worker} (hw : s.workers[i]? = some w) : w.Inv :=
  hs.workers w (List.mem_of_getElem? hw)

/-- A change of one worker and of the stream. -/
theorem State.Inv.replace {s : State} (hs : s.Inv) (i : Nat) {w : Worker} (hw : w.Inv) {m : Memory}
    (hm : m.Sound s.params.streamWords) : ((s.setWorker i w).setStream m).Inv :=
  ⟨hm.canonical, hm.bounded, hs.port, forall_mem_set hs.workers hw⟩

theorem State.Inv.setAgenda {s : State} (hs : s.Inv) (agenda : List Move) : (s.setAgenda agenda).Inv :=
  ⟨hs.canonical, hs.bounded, hs.port, hs.workers⟩

/-- A worker's small step keeps the invariant of the worker and the form of the stream. -/
theorem Worker.Inv.smallStep {p : Config.Params} {w w' : Worker} {m m' : Memory} (hw : w.Inv) (hm : m.Sound p.streamWords)
    (h : w.smallStep p m = some (w', m')) : w'.Inv ∧ m'.Sound p.streamWords := by
  obtain ⟨-, ⟨hp, rfl, rfl⟩ | ⟨ev, evs, hp, hev, rfl, rfl⟩⟩ := Worker.smallStep_cases h
  · exact ⟨hw.advance hp p, hm⟩
  · exact ⟨hw.withPending fun e he => by rw [hp]; exact List.mem_cons_of_mem ev he, hm.atomicOr hev⟩

/-- So does a worker's whole run. -/
theorem Worker.Inv.run {p : Config.Params} (fuel : Nat) {w : Worker} {m : Memory} (hw : w.Inv) (hm : m.Sound p.streamWords) :
    (w.run p fuel m).1.Inv ∧ (w.run p fuel m).2.Sound p.streamWords := by
  induction fuel generalizing w m with
  | zero => exact ⟨hw, hm⟩
  | succ fuel ih =>
    cases hb : w.busy with
    | false => rw [Worker.run_idle hb]; exact ⟨hw, hm⟩
    | true =>
      obtain ⟨made, hsplit, hmem, hrange, -⟩ := performEvents_spec p.streamWords w.pending m
      have hm' : (performEvents p.streamWords w.pending m).1.Sound p.streamWords := hmem ▸ hm.orEvents hrange
      by_cases hleft : (performEvents p.streamWords w.pending m).2 = []
      · rw [Worker.run_succ_of_inRange hb hleft]
        exact ih ((hw.withPending (evs := []) (by simp)).advance rfl p) hm'
      · rw [Worker.run_succ_of_stuck hb hleft]
        exact ⟨hw.withPending fun ev hev => by rw [hsplit]; exact List.mem_append_right made hev, hm'⟩

theorem State.Inv.after_workerStep {s t : State} (hs : s.Inv) {i : Nat} (h : s.workerStep i = some t) : t.Inv := by
  obtain ⟨w, w', m, hw, hsmall, rfl⟩ := State.workerStep_some h
  obtain ⟨hw', hm⟩ := (hs.worker hw).smallStep hs.sound hsmall
  exact hs.replace i hw' hm

theorem State.Inv.after_moveWorker {s t : State} (hs : s.Inv) {i : Nat} (h : moveWorker i s = .next t) : t.Inv := by
  obtain ⟨-, hstep | ⟨-, rfl⟩⟩ := moveWorker_next h
  · exact hs.after_workerStep hstep
  · exact hs

theorem State.Inv.after_someWorkerSteps {s : State} (hs : s.Inv) : (someWorkerSteps s).Inv := by
  obtain ⟨i, hstep⟩ | hsame := someWorkerSteps_cases s
  · exact hs.after_workerStep hstep
  · rwa [hsame]

theorem State.Inv.loaded {s : State} (hs : s.Inv) {i : Instr} {w : Worker} (hw : Accepts s w)
    (hf : isFloat i.kind = true → OperandFinite s i.kind i.dims) : (s.loaded i w).Inv :=
  (hs.worker hw.1).load (dims_ne_zero i) i.maxbits i.blockIdx hf

theorem State.Inv.after_issueCommand {s t : State} (hs : s.Inv) {i : Instr}
    (h : issueCommand i.kind i.dims i.maxbits i.blockIdx s = .next t) : t.Inv := by
  obtain ⟨w, hw, hf, rfl⟩ := issueCommand_next h
  exact hs.replace s.port.worker (hs.loaded hw hf) hs.sound

theorem State.Inv.after_exec {s t : State} (hs : s.Inv) {i : Instr} (h : exec i s = .next t) : t.Inv := by
  obtain ⟨w, hw, hf⟩ := accepts_of_exec_next h
  obtain rfl := Host.Outcome.next.inj (h.symm.trans (exec_of_accepts hw hf))
  obtain ⟨hw', hm⟩ := (hs.loaded hw hf).run sequencerBound hs.sound
  exact hs.replace s.port.worker hw' hm

/-- Presented elements are cut to the space, which keeps its 64 (R85, log 12). -/
theorem State.Inv.after_hostPresent {s : State} (hs : s.Inv) (worker : Nat) (block : List Word) : (hostPresent worker block s).Inv :=
  ⟨hs.canonical, hs.bounded, length_rewriteFile_eq (by simp [Config.fileCells]) hs.port, hs.workers⟩

theorem State.Inv.after_resetCore {s : State} (hs : s.Inv) : (resetCore s).Inv :=
  ⟨hs.canonical, hs.bounded, hs.port, fun _ hw => eq_reset_of_mem_resetCore hw ▸ Worker.reset_inv⟩

/-- Every move of every agent keeps the invariant. -/
theorem State.Inv.after_moveStep {s t : State} (hs : s.Inv) {mv : Move} (h : moveStep mv s = .next t) : t.Inv := by
  cases mv with
  | encode d =>
    cases hd : decodeWord d with
    | command i => rw [moveStep_encode_of_command hd] at h; exact hs.after_exec h
    | reserved r => rw [moveStep_encode_of_reserved hd] at h; cases h
  | issue d =>
    cases hd : decodeWord d with
    | command i => rw [moveStep_issue_of_command hd] at h; exact hs.after_issueCommand h
    | reserved r => rw [moveStep_issue_of_reserved hd] at h; cases h
  | present worker block => obtain rfl := Host.Outcome.next.inj h; exact hs.after_hostPresent worker block
  | worker i => exact hs.after_moveWorker h
  | zero n =>
    obtain ⟨-, -, rfl⟩ := hostZero_next h
    have hm := hs.sound.zeroWords n
    exact ⟨hm.canonical, hm.bounded, hs.port, hs.workers⟩
  | wait => obtain rfl := Host.Outcome.next.inj h; exact hs
  | read addr => obtain ⟨w, rfl⟩ := hostRead_next h; exact ⟨hs.canonical, hs.bounded, hs.port, hs.workers⟩
  | reset => obtain rfl := Host.Outcome.next.inj h; exact hs.after_resetCore

end Sys2Proof.Machine

namespace Sys2Proof

open Machine

/-- Settles O22: every worker holds the reset registers, and nothing stands in the stream. -/
theorem resetStateIsIdleAndMeetsTheInvariant : Obligations.ResetStateIsIdleAndMeetsTheInvariant := by
  have hworkers : ∀ w ∈ State.reset.workers, w = Worker.reset := fun w hw => List.eq_of_mem_replicate hw
  refine ⟨fun w hw => ?_, rfl, by simp [State.reset], rfl, fun w hw => hworkers w hw ▸ Worker.reset_inv⟩
  rw [hworkers w hw]
  exact ⟨rfl, rfl⟩

/-- Settles O23: every move keeps the invariant, and so do the workers at a wait. -/
theorem everyStepKeepsTheInvariant : Obligations.EveryStepKeepsTheInvariant := by
  intro s t hs h
  obtain ⟨mv, rest, -, hmove⟩ | hgo := step_cases s
  · exact (hs.setAgenda rest).after_moveStep (hmove.symm.trans h)
  · obtain rfl := Host.Outcome.next.inj (hgo.symm.trans h)
    exact hs.after_someWorkerSteps

end Sys2Proof

/-! The negabinary map as base -2 (R111): `M` has its ones at the odd places, so flipping them turns the digits of base -2 into binary
ones of a number that is larger by `M`. -/

namespace Sys2Proof.Machine

/-- The value in base -2 of the low `n` binary digits of `u` (R111). -/
def negabinarySum (n u : Nat) : Int := ((List.range n).map (fun j => if u.testBit j then (-2 : Int) ^ j else 0)).sum

theorem negabinarySum_succ (n u : Nat) : negabinarySum (n + 1) u = negabinarySum n u + if u.testBit n then (-2 : Int) ^ n else 0 := by
  simp [negabinarySum, List.range_succ]

theorem mod_two_pow_succ_eq (u n : Nat) : u % 2 ^ (n + 1) = u % 2 ^ n + if u.testBit n then 2 ^ n else 0 := by
  rw [pow_succ, Nat.mod_mul, Nat.testBit_eq_decide_div_mod_eq]
  rcases Nat.mod_two_eq_zero_or_one (u / 2 ^ n) with h | h <;> simp [h]

/-- A mask of the odd places exchanges the digits of weight `(-2)^j`, `j` odd, for their complements of weight `2^j` (R111). -/
theorem negabinarySum_eq {n mask : Nat} (hmask : ∀ j < n, mask.testBit j = decide (j % 2 = 1)) (u : Nat) :
    negabinarySum n u = ((u ^^^ mask) % 2 ^ n : Nat) - (mask % 2 ^ n : Nat) := by
  induction n with
  | zero => simp [negabinarySum, Nat.mod_one]
  | succ n ih =>
    rw [negabinarySum_succ, ih fun j hj => hmask j (by omega), mod_two_pow_succ_eq, mod_two_pow_succ_eq mask, Nat.testBit_xor,
      hmask n (Nat.lt_succ_self n)]
    rcases Nat.even_or_odd n with hn | hn
    · have hmod : n % 2 = 0 := Nat.even_iff.mp hn
      cases u.testBit n <;> simp [hmod, hn.neg_pow]
      ring
    · have hmod : n % 2 = 1 := Nat.odd_iff.mp hn
      cases u.testBit n <;> simp [hmod, hn.neg_pow]
      ring

/-- `M` has its ones at the odd places (R110). -/
theorem testBit_negabinaryMask {n : Nat} (hn : n = 32 ∨ n = 64) : ∀ j < n, (negabinaryMask n).testBit j = decide (j % 2 = 1) := by
  rcases hn with rfl | rfl <;> decide

/-- The image of `x`, read in base -2, is `bits_N(x + M) - M` (R110, R111). -/
theorem negabinarySum_intToUint {n : Nat} (hn : n = 32 ∨ n = 64) (x : Int) :
    negabinarySum n (intToUint n x) = bitsN n (x + negabinaryMask n) - negabinaryMask n := by
  rw [negabinarySum_eq (testBit_negabinaryMask hn), intToUint_eq, Nat.xor_xor_cancel_right, Nat.mod_eq_of_lt (bitsN_lt n _),
    Nat.mod_eq_of_lt (negabinaryMask_lt hn)]

/-- No wrap happens in `x + M` for an `Int_N` with `2x ≤ M` (R111). -/
theorem bitsN_add_mask {n : Nat} (hn : n = 32 ∨ n = 64) {x : Int} (hx : IsInt n x) (hle : 2 * x ≤ negabinaryMask n) :
    (bitsN n (x + negabinaryMask n) : Int) = x + negabinaryMask n := by
  rw [bitsN_cast]
  apply Int.emod_eq_of_lt
  all_goals
    rcases hn with rfl | rfl <;> simp only [IsInt, negabinaryMask] at hx hle ⊢ <;> norm_num at hx hle ⊢ <;> omega

end Sys2Proof.Machine

namespace Sys2Proof

open Machine

/-- Settles O43: the sum is `bits_N(x + M) - M`, which is congruent to `x`, and is `x` where the addition does not wrap. -/
theorem negabinaryMapIsBaseMinusTwo : Obligations.NegabinaryMapIsBaseMinusTwo := by
  intro n x hn hx sum
  have hsum : sum = bitsN n (x + negabinaryMask n) - negabinaryMask n := negabinarySum_intToUint hn x
  refine ⟨?_, fun hle => ?_⟩
  · have hmod : (x + negabinaryMask n : Int) ≡ bitsN n (x + negabinaryMask n) [ZMOD 2 ^ n] := (bitsN_modEq n _).symm
    rw [hsum, sub_sub, add_comm (negabinaryMask n : Int)]
    exact Int.emod_eq_zero_of_dvd hmod.dvd
  · rw [hsum, bitsN_add_mask hn hx hle, add_sub_cancel_right]

end Sys2Proof

/-! `maxprec` under the default parameters (R209): `emax` is never below `-EBIAS`, which bounds the precision of F64 from below and leaves
that of F32 whole. -/

namespace Sys2Proof.Machine

/-- `exponent` is never below its value for zero (R122). -/
theorem neg_ebias_le_exponentOf (kind : Kind) (p : Word) : -ebias kind ≤ exponentOf kind p := by
  rw [exponentOf, Config.eoff]
  split_ifs <;> omega

/-- `maxprec` of a float block under the default `MIN_EXP` (R205 step 3, R209). -/
theorem commandPrecision_atReset {kind : Kind} (hk : isFloat kind = true) (block : List Word) :
    commandPrecision Config.Params.atReset kind block = min (width kind) (maxExponent kind block + 1082).toNat := by
  have hmin : minExp Config.Params.atReset kind = -1074 := by cases kind <;> simp_all [isFloat, minExp, Config.Params.atReset]
  have hsum : maxExponent kind block - -1074 + 8 = maxExponent kind block + 1082 := by ring
  rw [commandPrecision, if_pos hk, maxPrecision, hmin, Config.precBias, hsum]

end Sys2Proof.Machine

namespace Sys2Proof

open Machine

/-- Settles O47: `maxprec` is `min(N, emax + 1082)`, with `emax` at least -127 for F32 and at least -1023 for F64. -/
theorem maxprecUnderTheDefaultParameters : Obligations.MaxprecUnderTheDefaultParameters := by
  intro kind block hk _ maxprec emax
  have hprec : maxprec = min (width kind) (emax + 1082).toNat := commandPrecision_atReset hk block
  have hemax : -ebias kind ≤ emax := neg_ebias_le_exponentOf kind _
  refine ⟨?_, ?_, ?_⟩
  · rintro rfl
    simp only [width, ebias] at hprec hemax
    omega
  · rintro rfl hge
    simp only [width] at hprec
    omega
  · rintro rfl hlt
    simp only [width, ebias] at hprec hemax
    omega

end Sys2Proof

/-! The lift (R140 to R147): where it stores, how its steps are undone, and what it makes of a constant block. -/

namespace Sys2Proof.Machine

/-! ### The stores of a lift -/

theorem getD_set (l : List Int) (i : Nat) (v : Int) (j : Nat) (hi : i < l.length) :
    (l.set i v).getD j 0 = if j = i then v else l.getD j 0 := by
  simp only [List.getD_eq_getElem?_getD, List.getElem?_set]
  by_cases h : i = j
  · subst h; simp [hi]
  · simp [h, Ne.symm h]

/-- The variables a lift reads at base `p` and stride `s` (R140). -/
def liftInputs (l : List Int) (p s : Nat) : Quad :=
  { x := l.getD p 0, y := l.getD (p + s) 0, z := l.getD (p + 2 * s) 0, w := l.getD (p + 3 * s) 0 }

/-- Every cell after a lift: the four variables in reverse along the stride, the others as before (R147). -/
theorem getD_fwdLift {l : List Int} {p s : Nat} (n : Nat) (hp : p + 3 * s < l.length) (j : Nat) :
    (fwdLift n l p s).getD j 0 =
      if j = p + 3 * s then (liftSteps n (liftInputs l p s)).x
      else if j = p + 2 * s then (liftSteps n (liftInputs l p s)).y
      else if j = p + s then (liftSteps n (liftInputs l p s)).z
      else if j = p then (liftSteps n (liftInputs l p s)).w
      else l.getD j 0 := by
  rw [fwdLift, getD_set _ _ _ _ (by simpa using hp), getD_set _ _ _ _ (by simp; omega), getD_set _ _ _ _ (by simp; omega),
    getD_set _ _ _ _ (by omega)]
  rfl

/-! ### The steps undone -/

theorem wrap_modEq (n : Nat) (z : Int) : wrap n z ≡ z [ZMOD 2 ^ n] := by
  have h : wrap n z % (2 ^ n : Nat) = z % (2 ^ n : Nat) := Int.bmod_emod
  exact_mod_cast h

/-- A wrapped subtraction is undone by a wrapped addition (R12). -/
theorem wrap_sub_add {n : Nat} (hn : 0 < n) {a : Int} (ha : IsInt n a) (b : Int) : wrap n (wrap n (a - b) + b) = a := by
  have hmod : wrap n (a - b) + b ≡ a [ZMOD 2 ^ n] := by simpa using (wrap_modEq n (a - b)).add_right b
  rw [wrap_congr hmod, wrap_of_isInt hn ha]

theorem wrap_add_sub {n : Nat} (hn : 0 < n) {a : Int} (ha : IsInt n a) (b : Int) : wrap n (wrap n (a + b) - b) = a := by
  simpa [sub_eq_add_neg] using wrap_sub_add hn ha (-b)

/-- The step that `fwd_lift` makes of a pair four times: the halved sum, and what is left of the second (R140). -/
def halve (n : Nat) (a b : Int) : Int × Int := (asr (wrap n (a + b)) 1, wrap n (b - asr (wrap n (a + b)) 1))

/-- The step that `inv_lift` makes of a pair four times: the second back, then the first (R144). -/
def unhalve (n : Nat) (v : Int × Int) : Int × Int := (wrap n (wrap n (2 * v.1) - wrap n (v.2 + v.1)), wrap n (v.2 + v.1))

theorem two_mul_asr_of_even {v : Int} (h : v % 2 = 0) : 2 * asr v 1 = v := by
  rw [asr, pow_one]
  omega

/-- A step of a pair is undone where its sum is even: then the halving loses no bit (R144). -/
theorem unhalve_halve {n : Nat} (hn : 0 < n) {a b : Int} (ha : IsInt n a) (hb : IsInt n b) (heven : wrap n (a + b) % 2 = 0) :
    unhalve n (halve n a b) = (a, b) := by
  have hback : wrap n (wrap n (b - asr (wrap n (a + b)) 1) + asr (wrap n (a + b)) 1) = b := wrap_sub_add hn hb _
  rw [unhalve, halve, hback, two_mul_asr_of_even heven, wrap_of_isInt hn (wrap_isInt hn _), wrap_add_sub hn ha]

theorem halve_isInt {n : Nat} (hn : 0 < n) (a b : Int) : IsInt n (halve n a b).1 ∧ IsInt n (halve n a b).2 :=
  ⟨asr_isInt (wrap_isInt hn _), wrap_isInt hn _⟩

/-- The last two lines of `fwd_lift` (R140). -/
def finishLift (n : Nat) (w y : Int) : Int × Int :=
  (wrap n (w + asr y 1), wrap n (y - asr (wrap n (w + asr y 1)) 1))

/-- `fwd_lift` is four steps of a pair and its last two lines (R140). -/
theorem liftSteps_eq (n : Nat) (q : Quad) :
    liftSteps n q =
      let xw := halve n q.x q.w
      let zy := halve n q.z q.y
      let xz := halve n xw.1 zy.1
      let wy := halve n xw.2 zy.2
      let r := finishLift n wy.1 wy.2
      { x := xz.1, y := r.2, z := xz.2, w := r.1 } := by
  simp only [liftSteps, halve, finishLift]

/-- `inv_lift` undoes the last two lines, then the four steps, the last first (R144). -/
theorem unliftSteps_eq (n : Nat) (q : Quad) :
    unliftSteps n q =
      let y := wrap n (q.y + asr q.w 1)
      let wy := unhalve n (wrap n (q.w - asr y 1), y)
      let xz := unhalve n (q.x, q.z)
      let zy := unhalve n (xz.2, wy.2)
      let xw := unhalve n (xz.1, wy.1)
      { x := xw.1, y := zy.2, z := zy.1, w := xw.2 } := by
  simp only [unliftSteps, unhalve]

/-- The four halved sums, pair by pair. -/
theorem liftHalvedSums_eq (n : Nat) (q : Quad) :
    liftHalvedSums n q =
      [wrap n (q.x + q.w), wrap n (q.z + q.y), wrap n ((halve n q.x q.w).1 + (halve n q.z q.y).1),
        wrap n ((halve n q.x q.w).2 + (halve n q.z q.y).2)] := rfl

/-! ### A constant block -/

/-- Four equal values. -/
def constQuad (a : Int) : Quad := { x := a, y := a, z := a, w := a }

/-- A lift of four equal values of small magnitude leaves the value in `x` and 0 elsewhere (R142). -/
theorem liftSteps_const {n : Nat} (hn : 2 ≤ n) {a : Int} (hlo : -2 ^ (n - 2) < a) (hhi : a < 2 ^ (n - 2)) :
    liftSteps n (constQuad a) = { x := a, y := 0, z := 0, w := 0 } := by
  have hpow : (2 : Int) ^ (n - 1) = 2 * 2 ^ (n - 2) := by rw [← pow_succ', show n - 2 + 1 = n - 1 by omega]
  have hpos : (0 : Int) < 2 ^ (n - 2) := by positivity
  have hsum : wrap n (a + a) = a + a := wrap_of_isInt (by omega) (by rw [IsInt, hpow]; omega)
  have hhalf : asr (a + a) 1 = a := by rw [asr]; omega
  have hzero : wrap n 0 = 0 := wrap_of_isInt (by omega) (by rw [IsInt, hpow]; omega)
  have hhalf0 : asr 0 1 = 0 := rfl
  simp [constQuad, liftSteps, hsum, hhalf, hzero, hhalf0]

/-- A block of which some cells, the marked ones, hold `a` and the others 0. -/
def markedBlock (a : Int) (marks : List Bool) : List Int := marks.map (fun b => if b then a else 0)

/-- What a lift makes of the marks where it finds four alike: it leaves the mark in the last cell. -/
def liftMarks (marks : List Bool) (p s : Nat) : Option (List Bool) :=
  if marks.getD (p + s) false = marks.getD p false ∧ marks.getD (p + 2 * s) false = marks.getD p false ∧
      marks.getD (p + 3 * s) false = marks.getD p false then
    some ((((marks.set p false).set (p + s) false).set (p + 2 * s) false).set (p + 3 * s) (marks.getD p false))
  else none

theorem getD_markedBlock (a : Int) (marks : List Bool) (j : Nat) :
    (markedBlock a marks).getD j 0 = if marks.getD j false then a else 0 := by
  by_cases hj : j < marks.length
  · simp [markedBlock, hj]
  · simp [markedBlock, Nat.le_of_not_lt hj]

/-- A lift of a marked block is one of its marks. -/
theorem fwdLift_markedBlock {n : Nat} (hn : 2 ≤ n) {a : Int} (hlo : -2 ^ (n - 2) < a) (hhi : a < 2 ^ (n - 2)) {marks marks' : List Bool}
    {p s : Nat} (h : liftMarks marks p s = some marks') : fwdLift n (markedBlock a marks) p s = markedBlock a marks' := by
  rw [liftMarks] at h
  split at h
  · rename_i hsame
    obtain ⟨hy, hz, hw⟩ := hsame
    obtain rfl := Option.some.inj h
    have hlift : ∀ b : Bool, liftSteps n (constQuad (if b then a else 0)) = { x := if b then a else 0, y := 0, z := 0, w := 0 } := fun b => by
      cases b
      · exact liftSteps_const hn (by simp) (by positivity)
      · exact liftSteps_const hn hlo hhi
    rw [fwdLift]
    simp only [getD_markedBlock, hy, hz, hw]
    rw [← constQuad, hlift]
    simp [markedBlock, List.map_set]
  · cases h

/-- The marks after the whole transform of a constant block. -/
def xformMarks (d : Nat) : Option (List Bool) :=
  (List.range d).foldlM (fun marks a => (passBases (4 ^ d) (4 ^ a)).foldlM (fun marks p => liftMarks marks p (4 ^ a)) marks)
    (List.replicate (4 ^ d) true)

theorem xformMarks_eq {d : Nat} (hd : d = 1 ∨ d = 2 ∨ d = 3) : xformMarks d = some (List.replicate (4 ^ d - 1) false ++ [true]) := by
  rcases hd with rfl | rfl | rfl <;> rfl

/-- A fold of steps that follow the marks follows the fold of the marks. -/
theorem foldl_markedBlock {a : Int} {step : List Int → Nat → List Int} {mark : List Bool → Nat → Option (List Bool)}
    (hstep : ∀ marks marks' i, mark marks i = some marks' → step (markedBlock a marks) i = markedBlock a marks') (is : List Nat)
    {marks marks' : List Bool} (h : is.foldlM mark marks = some marks') :
    is.foldl step (markedBlock a marks) = markedBlock a marks' := by
  induction is generalizing marks with
  | nil => rw [Option.some.inj h]; rfl
  | cons i is ih =>
    rw [List.foldlM_cons] at h
    obtain ⟨next, hnext, hrest⟩ := Option.bind_eq_some_iff.mp h
    rw [List.foldl_cons, hstep marks next i hnext]
    exact ih hrest

end Sys2Proof.Machine

namespace Sys2Proof

open Machine

/-- Settles O50: the four stores, the last one first, are to four different cells of the block. -/
theorem liftStoresReversedAndTouchesFourCells : Obligations.LiftStoresReversedAndTouchesFourCells := by
  intro n p s l hs hp q
  have hcell := getD_fwdLift n hp
  refine ⟨?_, ?_, ?_, ?_, length_fwdLift n l p s, fun j h0 h1 h2 h3 => ?_⟩
  · rw [hcell, if_neg (by omega), if_neg (by omega), if_neg (by omega), if_pos rfl]
    rfl
  · rw [hcell, if_neg (by omega), if_neg (by omega), if_pos rfl]
    rfl
  · rw [hcell, if_neg (by omega), if_pos rfl]
    rfl
  · rw [hcell, if_pos rfl]
    rfl
  · rw [hcell, if_neg h3, if_neg h2, if_neg h1, if_neg h0]

/-- Settles O51: the last two lines are undone whatever the values, and each step of a pair because its sum is even. -/
theorem liftIsUndoneWhenItsSumsAreEven : Obligations.LiftIsUndoneWhenItsSumsAreEven := by
  intro n q hn hx hy hz hw heven
  have hpos : 0 < n := by omega
  simp only [liftHalvedSums_eq, List.forall_mem_cons] at heven
  obtain ⟨hxw, hzy, hxz, hwy, -⟩ := heven
  have hint := halve_isInt hpos q.x q.w
  have hint' := halve_isInt hpos q.z q.y
  have hlast := halve_isInt hpos (halve n q.x q.w).2 (halve n q.z q.y).2
  have hy2 := wrap_sub_add hpos hlast.2 (asr (wrap n ((halve n (halve n q.x q.w).2 (halve n q.z q.y).2).1 +
    asr (halve n (halve n q.x q.w).2 (halve n q.z q.y).2).2 1)) 1)
  have hw2 := wrap_add_sub hpos hlast.1 (asr (halve n (halve n q.x q.w).2 (halve n q.z q.y).2).2 1)
  rw [liftSteps_eq, unliftSteps_eq]
  simp only [finishLift, hy2, hw2, Prod.mk.eta, unhalve_halve hpos hint.2 hint'.2 hwy, unhalve_halve hpos hint.1 hint'.1 hxz,
    unhalve_halve hpos hz hy hzy, unhalve_halve hpos hx hw hxw]

/-- Settles O52: each lift meets four equal cells and leaves their value in the last one; which cells those are does not depend on the
value, and at the end it is the DC corner alone. -/
theorem transformOfAConstantBlockIsDCOnly : Obligations.TransformOfAConstantBlockIsDCOnly := by
  intro n d a hn hd hlo hhi
  have hn2 : 2 ≤ n := by omega
  have hstart : List.replicate (4 ^ d) a = markedBlock a (List.replicate (4 ^ d) true) := by simp [markedBlock]
  have hend : List.replicate (4 ^ d - 1) 0 ++ [a] = markedBlock a (List.replicate (4 ^ d - 1) false ++ [true]) := by simp [markedBlock]
  rw [hstart, hend]
  exact foldl_markedBlock (fun _ _ axis h => foldl_markedBlock (fun _ _ p hp => fwdLift_markedBlock hn2 hlo hhi hp) _ h) _
    (xformMarks_eq hd)

end Sys2Proof

/-! The code of one plane in full (R94, R197): what the loops of the encoder write under an unbounded budget is the listing of raw bits and
groups, and under any budget they write as much of it as the budget admits. -/

namespace Sys2Proof.Machine

/-- The coder holds what is left of a plane whose coefficients have the bits `f`: bit `i` of `x` is that of coefficient `n + i`
(R187, R189). -/
def Coder.Holds (c : Coder) (size : Nat) (f : Nat → Bool) : Prop := ∀ i, c.x.getLsbD i = (decide (c.n + i < size) && f (c.n + i))

theorem Coder.Holds.stepOver {c : Coder} {size : Nat} {f : Nat → Bool} (h : c.Holds size f) : c.stepOver.Holds size f := fun i => by
  rw [Coder.stepOver_x, BitVec.getLsbD_ushiftRight, h, Coder.stepOver_n, Nat.add_assoc]

theorem Coder.Holds.first {c : Coder} {size : Nat} {f : Nat → Bool} (h : c.Holds size f) (hn : c.n < size) : c.x[0] = f c.n := by
  simpa [hn] using h 0

/-- The tail is 0 where no coefficient from `n` on has a 1 (R190). -/
theorem Coder.Holds.x_eq_zero_iff {c : Coder} {size : Nat} {f : Nat → Bool} (h : c.Holds size f) :
    c.x = 0 ↔ ∀ j, c.n ≤ j → j < size → f j = false := by
  constructor
  · intro hx j hj hlt
    have hbit := h (j - c.n)
    rw [hx, show c.n + (j - c.n) = j by omega] at hbit
    simpa [hlt] using hbit.symm
  · intro hnone
    refine BitVec.eq_of_getLsbD_eq fun i _ => ?_
    rw [h]
    by_cases hi : c.n + i < size
    · simp [hnone _ (Nat.le_add_right _ _) hi]
    · simp [hi]

/-- A tail that is not 0 has a first 1 (R190, R191). -/
theorem Coder.Holds.exists_first_one {c : Coder} {size : Nat} {f : Nat → Bool} (h : c.Holds size f) (hx : c.x ≠ 0) :
    ∃ j, c.n ≤ j ∧ j < size ∧ f j = true ∧ ∀ i, c.n ≤ i → i < j → f i = false := by
  have hsome : ∃ j, c.n ≤ j ∧ j < size ∧ f j = true := by
    by_contra hnone
    push Not at hnone
    exact hx (h.x_eq_zero_iff.mpr fun j hj hlt => by simpa using hnone j hj hlt)
  obtain ⟨hj, hlt, hone⟩ := Nat.find_spec hsome
  refine ⟨Nat.find hsome, hj, hlt, hone, fun i hi hij => ?_⟩
  have hmin := Nat.find_min hsome hij
  cases hf : f i with
  | false => rfl
  | true => exact absurd ⟨hi, hij.trans hlt, hf⟩ hmin

/-! ### The coefficients with a 1 -/

/-- The indices, from `n` on, of the coefficients with a 1. -/
def onesFrom (size : Nat) (f : Nat → Bool) (n : Nat) : List Nat := (List.range size).filter (fun j => decide (n ≤ j) && f j)

/-- Coefficients without a 1 are passed over. -/
theorem onesFrom_skip {size n j : Nat} {f : Nat → Bool} (hj : n ≤ j) (hnone : ∀ i, n ≤ i → i < j → f i = false) :
    onesFrom size f n = onesFrom size f j := by
  refine List.filter_congr fun i _ => ?_
  by_cases hi : j ≤ i
  · simp [hi, hj.trans hi]
  · by_cases hn : n ≤ i
    · simp [hnone i hn (Nat.lt_of_not_le hi)]
    · simp [hi, hn]

theorem onesFrom_cons {size n : Nat} {f : Nat → Bool} (hn : n < size) (hf : f n = true) :
    onesFrom size f n = n :: onesFrom size f (n + 1) := by
  obtain ⟨k, rfl⟩ : ∃ k, size = n + 1 + k := ⟨size - n - 1, by omega⟩
  have hbelow : ∀ m, n ≤ m → (List.range n).filter (fun j => decide (m ≤ j) && f j) = [] := fun m hm =>
    List.filter_eq_nil_iff.mpr fun j hj => by
      have hlt := List.mem_range.mp hj
      simp
      omega
  have habove : ((List.range k).map (n + 1 + ·)).filter (fun j => decide (n ≤ j) && f j) =
      ((List.range k).map (n + 1 + ·)).filter (fun j => decide (n + 1 ≤ j) && f j) := List.filter_congr fun j hj => by
    obtain ⟨i, -, rfl⟩ := List.mem_map.mp hj
    simp [Nat.add_assoc]
  rw [onesFrom, onesFrom, List.range_add, List.filter_append, List.filter_append, habove, List.range_succ, List.filter_append,
    List.filter_append, hbelow n le_rfl, hbelow (n + 1) (Nat.le_succ n)]
  simp [hf]

theorem onesFrom_eq_nil {size n : Nat} {f : Nat → Bool} (h : ∀ j, n ≤ j → j < size → f j = false) : onesFrom size f n = [] :=
  List.filter_eq_nil_iff.mpr fun j hj => by
    by_cases hn : n ≤ j
    · simp [h j hn (List.mem_range.mp hj)]
    · simp [hn]

/-- With no coefficient left there is nothing to write (R197 (d)). -/
theorem groupCode_of_end (size : Nat) (f : Nat → Bool) : groupCode size size (onesFrom size f size) = [] := by
  rw [onesFrom_eq_nil fun j hj hlt => absurd hlt hj.not_gt, groupCode, if_neg (lt_irrefl size)]

/-! ### The loops write the listing -/

/-- The unary loop writes the zeros up to the next 1 and, unless it is the last coefficient's, that 1 (R191, R197). -/
theorem unaryLoop_writes {size fuel j : Nat} {f : Nat → Bool} {c : Coder} (h : c.Holds size f) (hj : c.n ≤ j) (hlt : j < size)
    (hone : f j = true) (hnone : ∀ i, c.n ≤ i → i < j → f i = false) (hfuel : j - c.n < fuel) :
    ∃ c', c'.n = j ∧ c'.Holds size f ∧
      WritesPrefixOf Coder.bits (fun b => unaryLoop size fuel (c.withBits b))
        (List.replicate (j - c.n) false ++ if j + 1 = size then [] else [true]) (Coder.withBits c') := by
  induction fuel generalizing c with
  | zero => omega
  | succ fuel ih =>
    have hstop := unaryLoop_of_no_bits (size := size) (fuel := fuel + 1) (Coder.withBits_bits c 0)
    have hfirst := h.first (by omega)
    by_cases hnj : c.n = j
    · rw [hnj, hone] at hfirst
      refine ⟨c, hnj, h, ?_⟩
      rw [hnj, Nat.sub_self, List.replicate_zero, List.nil_append]
      by_cases hlast : j + 1 = size
      · have hend : ¬ c.n < size - 1 := by omega
        rw [if_pos hlast]
        simpa [unaryLoop, hend] using writesPrefixOf_nil (bitsOf := Coder.bits) (last := Coder.withBits c) rfl
      · have hgo : c.n < size - 1 := by omega
        rw [if_neg hlast]
        exact (writesPrefixOf_nil (last := Coder.withBits c) rfl).cons true (by simp [hstop]) fun b => by
          simp [unaryLoop, hgo, hfirst]
    · have hgo : c.n < size - 1 := by omega
      rw [hnone c.n le_rfl (by omega)] at hfirst
      obtain ⟨c', hn', hholds, hwrites⟩ := ih h.stepOver (by rw [Coder.stepOver_n]; omega)
        (fun i hi hij => hnone i (by rw [Coder.stepOver_n] at hi; omega) hij) (by rw [Coder.stepOver_n]; omega)
      refine ⟨c', hn', hholds, ?_⟩
      rw [show j - c.n = j - c.stepOver.n + 1 by rw [Coder.stepOver_n]; omega, List.replicate_succ, List.cons_append]
      exact hwrites.cons false (by simp [hstop]) fun b => by simp [unaryLoop, hgo, hfirst]

/-- The group-test loop writes the groups (R190, R197). -/
theorem groupLoop_writes {size fuel : Nat} {f : Nat → Bool} {c : Coder} (h : c.Holds size f) (hn : c.n ≤ size)
    (hfuel : size - c.n ≤ fuel) :
    ∃ c', WritesPrefixOf Coder.bits (fun b => groupLoop size fuel (c.withBits b)) (groupCode size c.n (onesFrom size f c.n))
      (Coder.withBits c') := by
  induction fuel generalizing c with
  | zero =>
    rw [show c.n = size by omega, groupCode_of_end]
    exact ⟨c, writesPrefixOf_nil rfl⟩
  | succ fuel ih =>
    have hstop := groupLoop_of_no_bits (size := size) (fuel := fuel + 1) (Coder.withBits_bits c 0)
    by_cases hend : c.n = size
    · refine ⟨c, ?_⟩
      rw [hend, groupCode_of_end]
      simpa [groupLoop, hend] using writesPrefixOf_nil (bitsOf := Coder.bits) (last := Coder.withBits c) rfl
    · have hgo : c.n < size := by omega
      have henter : ∀ b, (c.withBits (b + 1)).n < size ∧ 0 < (c.withBits (b + 1)).bits := fun b => ⟨hgo, Nat.succ_pos b⟩
      by_cases hx : c.x = 0
      · refine ⟨c, ?_⟩
        rw [onesFrom_eq_nil (h.x_eq_zero_iff.mp hx), groupCode, if_pos hgo]
        exact (writesPrefixOf_nil (last := Coder.withBits c) rfl).cons false (by simp [hstop]) fun b => by
          dsimp only
          rw [groupLoop, if_pos (henter b), if_pos (show (c.withBits (b + 1)).x = 0 from hx), Coder.withBits_spend]
      · obtain ⟨j, hj, hlt, hone, hnone⟩ := h.exists_first_one hx
        obtain ⟨c', hn', hholds, hunary⟩ := unaryLoop_writes (fuel := size) h hj hlt hone hnone (by omega)
        have hnext : c'.stepOver.n = j + 1 := by rw [Coder.stepOver_n, hn']
        obtain ⟨c'', hgroups⟩ := ih hholds.stepOver (by omega) (by omega)
        rw [hnext] at hgroups
        have hboth := hunary.append (next := fun c => groupLoop size fuel c.stepOver) hgroups
          fun r hr => by simp [groupLoop_of_no_bits (c := r.stepOver) hr, hr]
        refine ⟨c'', ?_⟩
        rw [onesFrom_skip hj hnone, onesFrom_cons hlt hone, groupCode, ← List.append_assoc]
        exact hboth.cons true (by simp [hstop]) fun b => by
          dsimp only
          rw [groupLoop, if_pos (henter b), if_neg (show (c.withBits (b + 1)).x ≠ 0 from hx), Coder.withBits_spend]

/-! ### A plane -/

/-- Bit `i` of what `write_bits` returns (R167). -/
theorem getLsbD_writeBitsRest (x : Word) (n i : Nat) : (writeBitsRest x n).getLsbD i = x.getLsbD (n + i) := by
  rw [writeBitsRest, Config.wordBits]
  split
  · rw [BitVec.getLsbD_of_ge x (n + i) (by omega)]
    simp
  · rw [BitVec.getLsbD_ushiftRight]

/-- After the raw bits the coder holds what is left of the plane (R188). -/
theorem holds_afterRaw {size : Nat} (hsize : size ≤ 64) (ublk : List Word) (r : PlaneRegs) :
    Coder.Holds { r.coder size ublk with x := writeBitsRest (r.coder size ublk).x (r.coder size ublk).n } size
      (fun j => (cell ublk j).getLsbD (r.k - 1)) := fun i => by
  simp only [PlaneRegs.coder, getLsbD_writeBitsRest, getLsbD_planeWord]
  by_cases h : r.n + i < size
  · simp [h, h.trans_le hsize]
  · simp [h]

/-- The raw bits of a plane are the coefficients' bits of the prefix (R187, R188). -/
theorem rawBits_eq {size : Nat} (hsize : size ≤ 64) (ublk : List Word) {r : PlaneRegs} (hn : r.n ≤ size) :
    (List.range (r.coder size ublk).n).map (r.coder size ublk).x.getLsbD =
      (List.range r.n).map (fun i => (cell ublk i).getLsbD (r.k - 1)) := by
  refine List.map_congr_left fun i hi => ?_
  have hi : i < size := (List.mem_range.mp hi).trans_le hn
  rw [PlaneRegs.coder, getLsbD_planeWord]
  simp [hi, hi.trans_le hsize]

/-- A plane writes its listing, cut at the budget (R94, R189). -/
theorem codePlane_writes {size : Nat} (hsize : size ≤ 64) (ublk : List Word) {r : PlaneRegs} (hn : r.n ≤ size) :
    (codePlane size ublk r).2.flatMap Call.written = (planeCode size (r.k - 1) r.n ublk).take r.bits := by
  obtain ⟨c', hgroups⟩ := groupLoop_writes (fuel := size) (holds_afterRaw hsize ublk r) hn (Nat.sub_le _ _)
  have hplane := (raw_writesPrefixOf (r.coder size ublk)).append hgroups fun c hc => by simp [groupLoop_of_no_bits hc, hc]
  rw [rawBits_eq hsize ublk hn] at hplane
  exact hplane.written r.bits

end Sys2Proof.Machine

namespace Sys2Proof

open Machine

/-- Settles O55: raw bits and groups are stages of the code, and each writes its part of the listing. -/
theorem planeCodeIsRawBitsThenGroups : Obligations.PlaneCodeIsRawBitsThenGroups :=
  fun _ ublk _ hsize hn => codePlane_writes hsize ublk hn

end Sys2Proof

/-! What the code costs (R192, R195), and the code of a block of zeros (R207): each plane of it is one group bit 0. -/

namespace Sys2Proof.Machine

/-! ### The budget of the plane loop -/

/-- Every bit of the plane loop is paid for (R192). -/
theorem planeLoop_counts (size fuel : Nat) (ublk : List Word) (r : PlaneRegs) :
    (planeLoop size ublk fuel r).1.bits + ((planeLoop size ublk fuel r).2.map Call.length).sum = r.bits := by
  induction fuel generalizing r with
  | zero => simp [planeLoop]
  | succ fuel ih =>
    rw [planeLoop]
    split
    · obtain ⟨-, -, -, -, hplane⟩ := codePlane_counts size ublk r
      have hrest := ih (codePlane size ublk r).1
      simp only [List.map_append, List.sum_append]
      omega
    · simp

theorem encodeInts_of_no_budget (n size maxprec : Nat) (ublk : List Word) : encodeInts n size ublk 0 maxprec = [] := by
  rw [encodeInts, planeLoop_of_no_bits rfl]

/-- Without precision the first plane is already below the last one to code (R189, R195). -/
theorem encodeInts_of_no_precision (n size budget : Nat) (ublk : List Word) : encodeInts n size ublk budget 0 = [] := by
  cases n <;> simp [encodeInts, planeLoop, PlaneRegs.start, PlaneRegs.more]

/-! ### A block of zeros -/

theorem planeWord_of_zeros {ublk : List Word} (h : ∀ i, cell ublk i = 0) (size k : Nat) : planeWord size k ublk = 0 :=
  BitVec.eq_of_getLsbD_eq fun i _ => by rw [getLsbD_planeWord, h]; simp

/-- A plane of zeros with no significant coefficient is one group bit 0 (R190). -/
theorem codePlane_of_zeros {size : Nat} (hsize : 0 < size) {ublk : List Word} (h : ∀ i, cell ublk i = 0) {r : PlaneRegs}
    (hn : r.n = 0) (hbits : 0 < r.bits) :
    codePlane size ublk r = ({ k := r.k - 1, kmin := r.kmin, n := 0, bits := r.bits - 1, x := 0 }, [.bits 0 0, .bit false]) := by
  obtain ⟨m, rfl⟩ : ∃ m, size = m + 1 := ⟨size - 1, by omega⟩
  have hcoder : r.coder (m + 1) ublk = { n := 0, bits := r.bits, x := 0 } := by rw [PlaneRegs.coder, planeWord_of_zeros h, hn]
  have hraw : (r.coder (m + 1) ublk).afterRaw = { n := 0, bits := r.bits, x := 0 } := by
    rw [hcoder]
    simp [Coder.afterRaw, Coder.rawCount, writeBitsRest, Config.wordBits]
  have hcount : (r.coder (m + 1) ublk).rawCount = 0 := by rw [hcoder, Coder.rawCount]; exact Nat.zero_min _
  have hx : (r.coder (m + 1) ublk).x = 0 := by rw [hcoder]
  have hgroups : groupLoop (m + 1) (m + 1) { n := 0, bits := r.bits, x := 0 } = ({ n := 0, bits := r.bits - 1, x := 0 }, [.bit false]) := by
    rw [groupLoop, if_pos ⟨Nat.succ_pos m, hbits⟩, if_pos rfl]
    rfl
  rw [codePlane]
  simp only [hraw, hgroups, hcount, hx]

/-- The planes of a block of zeros: a 0 each, until the budget or the planes end (R189, R207). -/
theorem written_planeLoop_of_zeros {size : Nat} (hsize : 0 < size) {ublk : List Word} (h : ∀ i, cell ublk i = 0) {fuel : Nat}
    {r : PlaneRegs} (hn : r.n = 0) (hmin : r.kmin = 0) (hk : r.k ≤ fuel) :
    (planeLoop size ublk fuel r).2.flatMap Call.written = List.replicate (min r.bits r.k) false := by
  induction fuel generalizing r with
  | zero => simp [planeLoop, Nat.le_zero.mp hk]
  | succ fuel ih =>
    rw [planeLoop]
    split
    · rename_i hmore
      obtain ⟨hbits, hlt⟩ := (PlaneRegs.more_iff r).mp hmore
      rw [codePlane_of_zeros hsize h hn hbits, List.flatMap_append]
      dsimp only
      rw [ih (r := { k := r.k - 1, kmin := r.kmin, n := 0, bits := r.bits - 1, x := 0 }) rfl hmin (Nat.sub_le_of_le_add hk),
        show min r.bits r.k = min (r.bits - 1) (r.k - 1) + 1 by omega, List.replicate_succ]
      rfl
    · rename_i hmore
      rw [PlaneRegs.more_iff] at hmore
      rw [show min r.bits r.k = 0 by omega]
      rfl

theorem intToUint_zero {n : Nat} (hn : n = 32 ∨ n = 64) : intToUint n 0 = 0 := by
  rcases hn with rfl | rfl <;> decide

theorem width_eq (kind : Kind) : width kind = 32 ∨ width kind = 64 := by cases kind <;> decide

theorem cell_of_forall_zero {l : List Word} (h : ∀ u ∈ l, u = 0) (i : Nat) : cell l i = 0 := by
  by_cases hi : i < l.length
  · rw [cell, List.getD_eq_getElem _ _ hi]
    exact h _ (List.getElem_mem hi)
  · exact List.getD_eq_default _ _ (Nat.le_of_not_lt hi)

/-- The transform of a block of zeros is a block of zeros (R142). -/
theorem fwdXform_of_zeros (kind : Kind) {dims : BitVec 2} (hd : dims ≠ 0) :
    fwdXform (width kind) dims.toNat (List.replicate (blockSize dims) 0) = List.replicate (blockSize dims) 0 := by
  have hdims : dims.toNat = 1 ∨ dims.toNat = 2 ∨ dims.toNat = 3 := by
    obtain rfl | rfl | rfl := (dims_ne_zero_iff dims).mp hd <;> decide
  have hpos : 0 < 4 ^ dims.toNat := by positivity
  rw [blockSize, Sys2Proof.transformOfAConstantBlockIsDCOnly _ _ 0 (width_eq kind) hdims (by simp) (by positivity),
    ← List.replicate_one, List.replicate_append_replicate, Nat.sub_add_cancel hpos]

/-- A block of zeros is reordered into a block of zeros: the map takes 0 to 0 (R110, R156). -/
theorem cell_reorderedBlock_of_zeros (kind : Kind) {dims : BitVec 2} (hd : dims ≠ 0) (i : Nat) :
    cell (reorderedBlock kind dims (List.replicate (blockSize dims) 0)) i = 0 := by
  rw [reorderedBlock, fwdXform_of_zeros kind hd]
  refine cell_of_forall_zero (fun u hu => ?_) i
  obtain ⟨q, -, rfl⟩ := List.mem_map.mp hu
  have hzero : (List.replicate (blockSize dims) (0 : Int)).getD q 0 = 0 := by
    simp only [List.getD_eq_getElem?_getD, List.getElem?_replicate]
    split <;> rfl
  rw [hzero, intToUint_zero (width_eq kind)]
  rfl

/-- The bits of an integer command of a block of zeros (R207). -/
theorem commandBits_of_zeros {kind : Kind} (hk : isFloat kind = false) (p : Config.Params) {dims : BitVec 2} (hd : dims ≠ 0)
    (maxbits : Nat) {block : List Word} (hlen : block.length = blockSize dims) (h : ∀ q ∈ block, q = 0) :
    commandBits p kind dims maxbits block = List.replicate (min maxbits (width kind)) false := by
  have hcell : intOfCell kind 0 = 0 := by cases kind <;> rfl
  have hints : block.map (intOfCell kind) = List.replicate (blockSize dims) 0 :=
    List.eq_replicate_iff.mpr ⟨by rw [List.length_map, hlen], fun v hv => by
      obtain ⟨q, hq, rfl⟩ := List.mem_map.mp hv
      rw [h q hq, hcell]⟩
  have hsize : 0 < blockSize dims := by rw [blockSize]; positivity
  rw [commandBits, commandCalls_of_not_float hk, commandBudget_of_not_float hk, hints, encodeInts,
    written_planeLoop_of_zeros (fuel := width kind) (r := PlaneRegs.start (width kind) maxbits (width kind)) hsize
      (cell_reorderedBlock_of_zeros kind hd) rfl (Nat.sub_self _) le_rfl]
  rfl

/-- Bits that are all 0 are laid without a 1. -/
theorem not_laidAt_replicate_false (first n q : Nat) : ¬ LaidAt first (List.replicate n false) q := by
  rintro ⟨-, hbit⟩
  simp only [List.getD_eq_getElem?_getD, List.getElem?_replicate] at hbit
  split at hbit <;> cases hbit

end Sys2Proof.Machine

namespace Sys2Proof

open Machine

/-- Settles O58: plane by plane the bits written and the budget left add up; a command's budget is what the header leaves of `maxbits`. -/
theorem codeSpendsItsBudgetExactly : Obligations.CodeSpendsItsBudgetExactly := by
  refine ⟨fun size fuel ublk r => ?_, fun n size budget maxprec ublk h => ?_, length_commandBits_le⟩
  · rw [← sum_length_calls]
    exact planeLoop_counts size fuel ublk r
  · obtain rfl | rfl := h
    · exact encodeInts_of_no_budget n size maxprec ublk
    · exact encodeInts_of_no_precision n size budget ublk

/-- Settles O20: every plane of the block is a group bit 0, so the listing writes one for each of the `N` planes the budget admits, and
ORing zeros leaves the stream as it was. -/
theorem zeroIntegerBlockWritesZeroBits : Obligations.ZeroIntegerBlockWritesZeroBits := by
  intro i s w hk hw hwf hfits hzeros
  have hbits := commandBits_of_zeros hk s.params (dims_ne_zero i) i.maxbits.toNat (length_operandBlock i.kind _ s.port.block)
    fun q hq => by
      obtain ⟨j, hj, rfl⟩ := mem_operandBlock.mp hq
      exact hzeros j hj
  have hnone : ∀ q, ¬ SomeSets (s.eventsOf i) q := fun q hq =>
    not_laidAt_replicate_false _ _ q (hbits ▸ (someSets_commandEvents ..).mp hq)
  refine ⟨hbits, _, _, completesAsListed i s w hw (fun hf => absurd hf (by simp [hk])) hfits, ?_, workerDone_completedState hw ..,
    getElem?_completedState hw .., ?_⟩
  · exact orEvents_eq_self hwf fun q hq => absurd hq (hnone q)
  · rw [completedWorker_currentBit, hbits, List.length_replicate]

end Sys2Proof
